-- ==== Sys2Proof/Word.lean ====
section
/-! DEFINITION. The word types of the block: bytes, 32-bit register words and 12-bit LZW codes
(spec/00_scope.md R8, R10; spec/10_state.md R21). -/

namespace Sys2Proof

/-- An unsigned 8-bit value (R8). -/
abbrev Byte := BitVec 8

/-- One word of the host-visible register bank (R21). -/
abbrev Word := BitVec 32

/-- An LZW code: at most `LZW_MAXW` = 12 bits wide (R6, R95). -/
abbrev Code := BitVec 12

end Sys2Proof
end

