-- ==== Sys2Proof/Machine/Bytes.lean ====
section
/-! DEFINITION. Byte-order and bit-field helpers (spec/00_scope.md R8; spec/20_memory.md R64; spec/30_encoding.md R100, R101). -/

namespace Sys2Proof

/-- `le16(b0, b1) = b0 + 256 × b1` (R8). -/
def le16 (b0 b1 : Byte) : BitVec 16 := b1 ++ b0

/-- `LE16(v)`: the two bytes of `v`, low byte first (R8). -/
def splitLe16 (v : BitVec 16) : List Byte := [v.extractLsb' 0 8, v.extractLsb' 8 8]

/-- `BE32(v)`: the four bytes of `v`, high byte first (R8). -/
def splitBe32 (v : Word) : List Byte :=
  [v.extractLsb' 24 8, v.extractLsb' 16 8, v.extractLsb' 8 8, v.extractLsb' 0 8]

/-- `BE32` of a length: a chunk's length field (R99). -/
def lenBe32 (n : Nat) : List Byte := splitBe32 (BitVec.ofNat 32 n)

/-- The `k` low bytes of a number, most significant byte first: how spec/opcode_table.json prints a `match`
that is wider than one byte (R116). -/
def beBytes : Nat → Nat → List Byte
  | 0, _ => []
  | k + 1, w => BitVec.ofNat 8 (w / 256 ^ k) :: beBytes k w

/-- The 8 signature bytes (R100). -/
def sigBytes : List Byte := [0x89, 0x50, 0x4E, 0x47, 0x0D, 0x0A, 0x1A, 0x0A]

/-- The five chunk tags (R101). -/
def tagIHDR : List Byte := [0x49, 0x48, 0x44, 0x52]
def tagPLTE : List Byte := [0x50, 0x4C, 0x54, 0x45]
def tagTRNS : List Byte := [0x74, 0x52, 0x4E, 0x53]
def tagIDAT : List Byte := [0x49, 0x44, 0x41, 0x54]
def tagIEND : List Byte := [0x49, 0x45, 0x4E, 0x44]

/-- The closing checksum of the trailer chunk, the same in every file (R207). -/
def crcIEND : List Byte := [0xAE, 0x42, 0x60, 0x82]

/-- `upper`: the ASCII letters a to z mapped onto A to Z, every other byte unchanged (R283). -/
def upperByte (b : Byte) : Byte :=
  if 0x61 ≤ b.toNat ∧ b.toNat ≤ 0x7A then b - 0x20 else b

/-- Byte `i` of a fixed field that has been read whole. -/
def byteAt (d : List Byte) (i : Nat) : Byte := d.getD i 0

end Sys2Proof
end

