-- ==== Sys2Proof/Syntax.lean ====
section
/-! DEFINITION. The instructions: one constructor per row of spec/opcode_table.json, in the table's order.
The block has no instruction words (spec/30_encoding.md, opening; R24); what it is driven by is tokens: sub-block length
bytes, a code-size byte, LZW codes, command codes, the parts of the file it emits, the headers inside the
compressed payload, and the container's tags (R90, R116). -/

namespace Sys2Proof

inductive Instr where
  -- format SB (R91): sub-block length byte
  | sbTerm
  | sbData (len : Byte)
  -- format LZWN (R94): the code-size byte
  | lzwSize (n : Byte)
  | lzwSizeIll (n : Byte)
  -- format LZWC (R95): one LZW code, classified against the registers
  | lzwClr
  | lzwEoi
  | lzwLit (code : Code)
  | lzwRef (code : Code)
  | lzwKwk (code : Code)
  | lzwIll (code : Code)
  -- format CMD (R98): the value written to the command register
  | cmdReset
  | cmdDecode
  | cmdEncode
  | cmdRsvd (c : Byte)
  -- formats SIG and CHUNK (R99 to R104): the parts of the file SER emits
  | pngSig
  | pngIhdr
  | pngPlte
  | pngTrns
  | pngIdat
  | pngIend
  -- formats ZHDR and DBLK (R106, R107): headers inside the compressed payload
  | zlibHdr (cmf flg : Byte)
  | deflStored (bfinal : Bool)
  | deflFixed (bfinal : Bool)
  | deflDyn (bfinal : Bool)
  | deflRsvd (bfinal : Bool)
  -- format GTAG (R112): the container's top-level tag byte
  | gifTrailer
  | gifExt
  | gifImg
  | gifBadtag (t : Byte)
  -- format GEXT (R112): the extension sub-type byte
  | extGce
  | extPte
  | extApp
  | extCom
  | extBad (k : Byte)
  deriving DecidableEq, Repr

end Sys2Proof
end

