-- ==== Sys2Proof/WellFormed.lean ====
section
/-! DEFINITION. Which instructions the encodings admit: the `constraint` column of spec/opcode_table.json
(spec/30_encoding.md R94, R95, R98, R112, R115, R116; spec/44_zlib_deflate.md R232). The class of an LZW code depends on
the registers of LZD, so well-formedness takes them as a context. -/

namespace Sys2Proof

/-- The LZD registers that decide the class and the width of an LZW code (R95, R97). -/
structure LzwCtx where
  clear : Nat
  eoi : Nat
  cw : Nat
  next : Nat
  hasPrev : Bool
  deriving DecidableEq, Repr

/-- The relations that hold between those registers whenever a code is decoded (R32, R164 (d)):
`clear` is `1 << N` for a legal `N`, `eoi` follows it, the width is 3 to 12 and more than `N`, and `next`
is below `1 << cw` unless the dictionary is full. -/
def LzwCtx.ok (c : LzwCtx) : Bool :=
  [4, 8, 16, 32, 64, 128, 256].contains c.clear && c.eoi == c.clear + 1 &&
  decide (c.clear * 2 ≤ 2 ^ c.cw) && decide (c.cw ≤ 12) && decide (c.clear + 2 ≤ c.next) &&
  (decide (c.next < 2 ^ c.cw) || (c.cw == 12 && c.next == 4096))

/-- Header validity of a zlib stream (R232): method 8, window exponent at most 7, no preset dictionary,
check bits right. -/
def zlibHdrOk (cmf flg : Byte) : Bool :=
  cmf.toNat % 16 == 8 && decide (cmf.toNat / 16 ≤ 7) && !flg.getLsbD 5 &&
  (cmf.toNat * 256 + flg.toNat) % 31 == 0

/-- The `constraint` of the instruction's table row. -/
def Instr.wf (c : LzwCtx) : Instr → Bool
  | .sbTerm => true
  | .sbData len => len != 0
  | .lzwSize n => decide (2 ≤ n.toNat) && decide (n.toNat ≤ 8)
  | .lzwSizeIll n => decide (n.toNat < 2) || decide (8 < n.toNat)
  | .lzwClr => true
  | .lzwEoi => true
  | .lzwLit code => decide (code.toNat < c.clear)
  | .lzwRef code => decide (c.clear + 2 ≤ code.toNat) && decide (code.toNat < c.next)
  | .lzwKwk code => code.toNat == c.next && c.hasPrev && decide (c.next < 4096)
  | .lzwIll code =>
      decide (code.toNat < 2 ^ c.cw) &&
      (decide (c.next < code.toNat) || (code.toNat == c.next && !(c.hasPrev && decide (c.next < 4096))))
  | .cmdReset => true
  | .cmdDecode => true
  | .cmdEncode => true
  | .cmdRsvd v => v == 0 || decide (4 ≤ v.toNat)
  | .pngSig => true
  | .pngIhdr => true
  | .pngPlte => true
  | .pngTrns => true
  | .pngIdat => true
  | .pngIend => true
  | .zlibHdr cmf flg => zlibHdrOk cmf flg
  | .deflStored _ => true
  | .deflFixed _ => true
  | .deflDyn _ => true
  | .deflRsvd _ => true
  | .gifTrailer => true
  | .gifExt => true
  | .gifImg => true
  | .gifBadtag t => !([0x3B#8, 0x21#8, 0x2C#8].contains t)
  | .extGce => true
  | .extPte => true
  | .extApp => true
  | .extCom => true
  | .extBad k => !([0xF9#8, 0x01#8, 0xFF#8, 0xFE#8].contains k)

end Sys2Proof
end

