-- ==== Sys2Proof/Decode.lean ====
section
/-! DEFINITION. The decoders and the encoder, one per format of spec/30_encoding.md, and the reading of a table word. Which
format applies to the next byte is decided by the sequencer's phase, not by the byte (R90), so the decoder takes the format.
Rows of one format are in priority order: the first whose condition holds applies (R116). -/

namespace Sys2Proof

/-- The formats of spec/opcode_table.json. -/
inductive Format where
  | sb | lzwn | lzwc | cmd | sig | chunk | zhdr | dblk | gtag | gext
  deriving DecidableEq, Repr

/-- Why a decoder gives no instruction. -/
inductive DecodeError where
  /-- fewer bytes than the format needs -/
  | short
  /-- the two header bytes of a zlib stream are not valid (R232) -/
  | zlibHeader
  /-- the eight bytes are not the signature (R100) -/
  | signature
  /-- the tag is none of the five, or a fixed part of its chunk differs (R101, R102, R207) -/
  | chunk
  deriving DecidableEq, Repr

/-! ### One decoder per format -/

/-- Format `SB`: a sub-block length byte (R91). -/
def decodeSb (b : Byte) : Instr := if b = 0 then .sbTerm else .sbData b

/-- Format `LZWN`: the code-size byte (R94). -/
def decodeLzwn (b : Byte) : Instr :=
  if 2 ≤ b.toNat ∧ b.toNat ≤ 8 then .lzwSize b else .lzwSizeIll b

/-- Format `LZWC`: the class of a code, first match wins (R95, and the tests of R152). -/
def decodeLzwc (c : LzwCtx) (code : Code) : Instr :=
  if code.toNat = c.clear then .lzwClr
  else if code.toNat = c.eoi then .lzwEoi
  else if code.toNat < c.clear then .lzwLit code
  else if code.toNat < c.next then .lzwRef code
  else if code.toNat = c.next ∧ c.hasPrev = true ∧ c.next < 4096 then .lzwKwk code
  else .lzwIll code

/-- Format `CMD`: the value written to the command register (R98). -/
def decodeCmd (b : Byte) : Instr :=
  if b = 0x01 then .cmdReset
  else if b = 0x02 then .cmdDecode
  else if b = 0x03 then .cmdEncode
  else .cmdRsvd b

/-- Format `ZHDR`: the two header bytes of a zlib stream (R106, R232). -/
def decodeZhdr (cmf flg : Byte) : Except DecodeError Instr :=
  if zlibHdrOk cmf flg = true then .ok (.zlibHdr cmf flg) else .error .zlibHeader

/-- Format `DBLK`: the three header bits of a deflate block, `BFINAL` in bit 0, `BTYPE` in bits 2 to 1 (R107). -/
def decodeDblk (bits : Nat) : Instr :=
  let bfinal := bits % 2 == 1
  match bits / 2 % 4 with
  | 0 => .deflStored bfinal
  | 1 => .deflFixed bfinal
  | 2 => .deflDyn bfinal
  | _ => .deflRsvd bfinal

/-- Format `GTAG`: the container's top-level tag byte (R112). -/
def decodeTag (t : Byte) : Instr :=
  if t = 0x3B then .gifTrailer
  else if t = 0x21 then .gifExt
  else if t = 0x2C then .gifImg
  else .gifBadtag t

/-- Format `GEXT`: the extension sub-type byte (R112). -/
def decodeExt (k : Byte) : Instr :=
  if k = 0xF9 then .extGce
  else if k = 0x01 then .extPte
  else if k = 0xFF then .extApp
  else if k = 0xFE then .extCom
  else .extBad k

/-- Format `SIG`: the signature (R100). -/
def decodeSig (bytes : List Byte) : Except DecodeError (Instr × List Byte) :=
  if bytes.length < 8 then .error .short
  else if bytes.take 8 = sigBytes then .ok (.pngSig, bytes.drop 8)
  else .error .signature

/-- Format `CHUNK`: the fixed part of a chunk, as far as the table's mask covers it: length and tag, and for the
trailer chunk all 12 bytes (R99, R101, R102, R116). -/
def decodeChunk (bytes : List Byte) : Except DecodeError (Instr × List Byte) :=
  if bytes.length < 8 then .error .short
  else
    let len := bytes.take 4
    let tag := (bytes.drop 4).take 4
    let rest := bytes.drop 8
    if tag = tagIHDR then
      if len = lenBe32 13 then .ok (.pngIhdr, rest) else .error .chunk
    else if tag = tagPLTE then .ok (.pngPlte, rest)
    else if tag = tagTRNS then .ok (.pngTrns, rest)
    else if tag = tagIDAT then .ok (.pngIdat, rest)
    else if tag = tagIEND then
      if len = lenBe32 0 ∧ rest.take 4 = crcIEND then .ok (.pngIend, rest.drop 4) else .error .chunk
    else .error .chunk

/-- The bytes an LZW code of width `cw` takes when it starts on a byte boundary: its first stream bit is bit 0 of the
first byte (R65, R96). -/
def decodeLzwcBytes (c : LzwCtx) (bytes : List Byte) : Except DecodeError (Instr × List Byte) :=
  match bytes with
  | [] => .error .short
  | b0 :: rest =>
    if c.cw ≤ 8 then .ok (decodeLzwc c (BitVec.ofNat 12 (b0.toNat % 2 ^ c.cw)), rest)
    else
      match rest with
      | [] => .error .short
      | b1 :: rest => .ok (decodeLzwc c (BitVec.ofNat 12 ((b0.toNat + 256 * b1.toNat) % 2 ^ c.cw)), rest)

/-- The decoder of format `f`: total on any bytes; it answers the instruction and the bytes that follow it. -/
def decode (f : Format) (c : LzwCtx) (bytes : List Byte) : Except DecodeError (Instr × List Byte) :=
  match f, bytes with
  | .sb, b :: rest => .ok (decodeSb b, rest)
  | .lzwn, b :: rest => .ok (decodeLzwn b, rest)
  | .cmd, b :: rest => .ok (decodeCmd b, rest)
  | .dblk, b :: rest => .ok (decodeDblk (b.toNat % 8), rest)
  | .gtag, b :: rest => .ok (decodeTag b, rest)
  | .gext, b :: rest => .ok (decodeExt b, rest)
  | .zhdr, cmf :: flg :: rest => (decodeZhdr cmf flg).map (fun i => (i, rest))
  | .lzwc, bytes => decodeLzwcBytes c bytes
  | .sig, bytes => decodeSig bytes
  | .chunk, bytes => decodeChunk bytes
  | _, _ => .error .short

/-! ### The encoder -/

/-- The format an instruction belongs to (spec/opcode_table.json, key `format`). -/
def formatOf : Instr → Format
  | .sbTerm | .sbData _ => .sb
  | .lzwSize _ | .lzwSizeIll _ => .lzwn
  | .lzwClr | .lzwEoi | .lzwLit _ | .lzwRef _ | .lzwKwk _ | .lzwIll _ => .lzwc
  | .cmdReset | .cmdDecode | .cmdEncode | .cmdRsvd _ => .cmd
  | .pngSig => .sig
  | .pngIhdr | .pngPlte | .pngTrns | .pngIdat | .pngIend => .chunk
  | .zlibHdr _ _ => .zhdr
  | .deflStored _ | .deflFixed _ | .deflDyn _ | .deflRsvd _ => .dblk
  | .gifTrailer | .gifExt | .gifImg | .gifBadtag _ => .gtag
  | .extGce | .extPte | .extApp | .extCom | .extBad _ => .gext

/-- An LZW code of value `v` and width `cw` packed alone into bytes, unused high bits 0 (R96). -/
def encodeCode (cw v : Nat) : List Byte :=
  if cw ≤ 8 then [BitVec.ofNat 8 v] else [BitVec.ofNat 8 v, BitVec.ofNat 8 (v / 256)]

/-- Three deflate header bits in the low bits of a byte (R107). -/
def encodeDblk (bfinal : Bool) (btype : Nat) : List Byte :=
  [BitVec.ofNat 8 (bfinal.toNat + 2 * btype)]

/-- The words of a well-formed instruction: for a chunk, its length field (0 where the table leaves it open) and tag. -/
def encode (c : LzwCtx) : Instr → List Byte
  | .sbTerm => [0x00]
  | .sbData len => [len]
  | .lzwSize n => [n]
  | .lzwSizeIll n => [n]
  | .lzwClr => encodeCode c.cw c.clear
  | .lzwEoi => encodeCode c.cw c.eoi
  | .lzwLit code => encodeCode c.cw code.toNat
  | .lzwRef code => encodeCode c.cw code.toNat
  | .lzwKwk code => encodeCode c.cw code.toNat
  | .lzwIll code => encodeCode c.cw code.toNat
  | .cmdReset => [0x01]
  | .cmdDecode => [0x02]
  | .cmdEncode => [0x03]
  | .cmdRsvd v => [v]
  | .pngSig => sigBytes
  | .pngIhdr => lenBe32 13 ++ tagIHDR
  | .pngPlte => lenBe32 0 ++ tagPLTE
  | .pngTrns => lenBe32 0 ++ tagTRNS
  | .pngIdat => lenBe32 0 ++ tagIDAT
  | .pngIend => lenBe32 0 ++ tagIEND ++ crcIEND
  | .zlibHdr cmf flg => [cmf, flg]
  | .deflStored b => encodeDblk b 0
  | .deflFixed b => encodeDblk b 1
  | .deflDyn b => encodeDblk b 2
  | .deflRsvd b => encodeDblk b 3
  | .gifTrailer => [0x3B]
  | .gifExt => [0x21]
  | .gifImg => [0x2C]
  | .gifBadtag t => [t]
  | .extGce => [0xF9]
  | .extPte => [0x01]
  | .extApp => [0xFF]
  | .extCom => [0xFE]
  | .extBad k => [k]

/-! ### Table words
One word of the table does not say which format it is in (R90): 0x01 is a command code, a sub-block length, an
illegal code size and an extension sub-type. DESIGN CHOICE (notes/assumptions/14.md): a one-byte word is read in the
format that has a row fixing all its bits to that value, commands first; a word no row fixes is a sub-block length. -/

/-- The registers under which a table word of format `LZWC` is read: `N` = 2, one entry in the dictionary, a
previous code, width 12. -/
def tableCtx : LzwCtx := { clear := 4, eoi := 5, cw := 12, next := 7, hasPrev := true }

/-- The format a one-byte table word is read in. -/
def byteFormat (b : Byte) : Format :=
  if b = 0x01 ∨ b = 0x02 ∨ b = 0x03 then .cmd
  else if b = 0x04 ∨ b = 0x05 ∨ b = 0x06 ∨ b = 0x07 then .dblk
  else if b = 0x3B ∨ b = 0x21 ∨ b = 0x2C then .gtag
  else if b = 0xF9 ∨ b = 0xFF ∨ b = 0xFE then .gext
  else if b = 0x08 then .lzwn
  else .sb

/-- The bytes of a chunk word whose last four bytes are `tag` after the length `len`; the trailer's word carries its checksum. -/
def chunkWord (len tag : List Byte) : List Byte :=
  if tag = tagIEND then len ++ tag ++ crcIEND else len ++ tag

/-- The format and the bytes of a table word of `nbits` bits: the number's most significant byte is the first in stream
order, as the table prints it; an LZW code is a number of up to 12 bits. -/
def tableReading (nbits w : Nat) : Format × List Byte :=
  if nbits < 8 then (.dblk, [BitVec.ofNat 8 w])
  else if nbits = 8 then (byteFormat (BitVec.ofNat 8 w), [BitVec.ofNat 8 w])
  else if nbits ≤ 16 then
    if zlibHdrOk (BitVec.ofNat 8 (w / 256)) (BitVec.ofNat 8 w) = true then (.zhdr, beBytes 2 w)
    else (.lzwc, [BitVec.ofNat 8 w, BitVec.ofNat 8 (w / 256)])
  else if nbits ≤ 32 then
    (.chunk, chunkWord (lenBe32 (if beBytes 4 w = tagIHDR then 13 else 0)) (beBytes 4 w))
  else if nbits ≤ 64 then
    if beBytes 8 w = sigBytes then (.sig, sigBytes)
    else (.chunk, chunkWord ((beBytes 8 w).take 4) ((beBytes 8 w).drop 4))
  else (.chunk, beBytes 12 w)

/-- The instruction this file's decoders read from a table word. -/
def decodeTableWord (nbits w : Nat) : Option Instr :=
  match decode (tableReading nbits w).1 tableCtx (tableReading nbits w).2 with
  | .ok (i, _) => some i
  | .error _ => none

end Sys2Proof
end

