-- ==== Sys2Proof/Config.lean ====
section
/-! DEFINITION. The open parameters of the block and of its host (spec/00_scope.md R7; spec/92_eei_decisions.md, "Open parameters,
gathered"), and the free values: constants with no body, of which nothing can be proved. -/

namespace Sys2Proof

/-- `EXT_TERM` (R298): what the host takes to be an extension's variable trailing data. -/
inductive ExtTerm where
  | consume
  | literal
  deriving DecidableEq, Repr

/-- `TRNS_CARRY` (R297): whether the pending transparency index survives an image. -/
inductive TrnsCarry where
  | carry
  | reset
  deriving DecidableEq, Repr

/-- `ZCompress` (R230, R244): the reference compressor, or the open one of that number. -/
inductive Compressor where
  | reference
  | free (id : Nat)
  deriving DecidableEq, Repr

/-- The values a particular block and host fix; no step changes them (R351). -/
structure Config where
  fbCap : Nat
  extTerm : ExtTerm
  trnsCarry : TrnsCarry
  compressor : Compressor
  deriving DecidableEq, Repr

/-- The defaults of spec/92_eei_decisions.md; the compressor is left open. DESIGN CHOICE (notes/assumptions/2.md). -/
def Config.initial : Config :=
  { fbCap := 4294836225, extTerm := .consume, trnsCarry := .carry, compressor := .free 0 }

/-- The bytes an unspecified compressor writes (R230, D28). Free value; notes/assumptions/3.md. -/
opaque Config.freeZ : Nat → List Byte → List Byte

/-- The file extension of an output file's name, which no source gives (R309, N23). Free value; notes/assumptions/16.md. -/
opaque Config.fileExt : List Byte

/-- What a working register holds after reset, where R50 says it holds no value: an uninterpreted number, one per
register, that no rule reads (U19). Free value; notes/assumptions/4.md. -/
opaque Config.freeReg : Nat → Nat

/-- The same for `prev`, which is a code or `NONE`. Free value; notes/assumptions/4.md. -/
opaque Config.freePrev : Option Code

end Sys2Proof
end

