-- ==== Sys2Proof/Machine/State.lean ====
section
/-! DEFINITION. The state of the machine (spec/10_state.md R20 to R46, R50): the registers, units and memories of the block; the two
streams and the environment's answers; the register bank's caller; the container parser; and the yardstick decompressor of
spec/44_zlib_deflate.md. Plain data throughout. Also the reasons a step can stop, and the state after reset. -/

namespace Sys2Proof.Machine

/-- A memory space: cells by index, indexes strictly rising; an index that is not listed holds no value (R41 to R44). -/
abbrev Memory (α : Type) := List (Nat × α)

/-- The fault and refusal causes of the code table (R321). -/
inductive Cause where
  | badSignature | badVersion | badTag | badExt | paletteLength | noPalette | lzwCodeSize | lzwCode | badTerminator
  | sbLength | sbPayload | fixedField
  | inRead | outWrite | openFile
  | sbTerminator | lzwEoi
  | badCmd | errSticky | fbCap | badPalN | palUnwritten | badTrns | badFbLen | chunkTooLong
  deriving DecidableEq, Repr

/-- The sequencer phase, in place of a program counter (R24). -/
inductive Seq where
  | idle | lzdSize | lzdRun | serSig | serIhdr | serPlte | serTrns | serIdat | serIend | fault
  deriving DecidableEq, Repr

/-- `STATUS`: bit 0 `DONE`, bit 1 `ERR` (R23). -/
structure Status where
  done : Bool
  err : Bool
  deriving DecidableEq, Repr

/-- `dfr.st` (R31); a truncated deframer keeps the cause it reported (R132). -/
inductive DfrSt where
  | active
  | eof
  | trunc (cause : Cause)
  deriving DecidableEq, Repr

/-- The deframer's registers (R31). -/
structure Dfr where
  len : Nat
  pos : Nat
  st : DfrSt
  deriving DecidableEq, Repr

/-- One dictionary entry: the code of the string it extends (`prefix` in the spec) and the byte that extends it (R43). -/
structure DictEntry where
  pre : Code
  suf : Byte
  deriving DecidableEq, Repr

/-- The decompressor's registers (R32). `prev = none` is the spec's `NONE`. -/
structure Lzd where
  n : Nat
  clear : Nat
  eoi : Nat
  cw : Nat
  next : Nat
  prev : Option Code
  bitbuf : Nat
  bitcnt : Nat
  outcnt : Nat
  target : Nat
  deriving DecidableEq, Repr

/-- The serializer's working registers (R33). -/
structure Ser where
  crc : BitVec 32
  adlA : BitVec 16
  adlB : BitVec 16
  deriving DecidableEq, Repr

/-- The name of an output file, as far as the host makes it (R309): the input file's base name, and the frame's index. -/
structure FileName where
  base : List Byte
  index : Nat
  deriving DecidableEq, Repr

/-- A closed output file: its bytes, and its name if the container parser opened it. -/
structure OutFile where
  name : Option FileName
  bytes : List Byte
  deriving DecidableEq, Repr

/-- The environment: the input stream and its cursor (R61), the current output sink (R63) with the name it was opened under, the
sinks already closed (R60, R309; notes/assumptions/16.md), and the answers the environment will give: `true` makes that call fail, an
exhausted list lets every call succeed (R62, R63, D30; notes/assumptions/7.md). -/
structure Env where
  inData : List Byte
  inPos : Nat
  inFails : List Bool
  out : List Byte
  outName : Option FileName
  outFails : List Bool
  files : List OutFile
  openFails : List Bool
  deriving DecidableEq, Repr

/-- What the host can do to the block and its surroundings between commands: write and read the register bank (R21), read the
frame buffer port (R41), give `OUT` a fresh sink and close it (R60), take a byte of `IN` for itself (R362), start the container
parser on an input file of that base name (R289, R309), and start the yardstick decompressor on a byte string (R234). -/
inductive HostAct where
  | wr (offset : Nat) (value : Word)
  | rd (offset : Nat)
  | fbRd (index : Nat)
  | openOut
  | closeOut
  | inTake
  | gifRun (base : List Byte)
  | unzip (z : List Byte)
  deriving DecidableEq, Repr

/-- One palette entry (R42, R285). -/
structure Rgb where
  r : Byte
  g : Byte
  b : Byte
  deriving DecidableEq, Repr

/-- Where the container parser stands in `HOST.RUN` (R289, R292, R305). -/
inductive GifPhase where
  | off
  | header
  | tag
  | ext
  | decoding (active : List Rgb)
  | opening
  | encoding
  | finished
  | failed (code : BitVec 8)
  deriving DecidableEq, Repr

/-- The container parser's state (R46, R281, R284, R304); `base` is the base name of its input file (R309). -/
structure GifHost where
  phase : GifPhase
  gPresent : Bool
  gPal : Option (List Rgb)
  pendTrns : Int
  pendDisp : BitVec 3
  pendDelay : BitVec 16
  pendInput : Bool
  frameNo : Nat
  base : List Byte
  screenW : BitVec 16
  screenH : BitVec 16
  flags : Byte
  bg : Byte
  aspect : Byte
  imgLeft : BitVec 16
  imgTop : BitVec 16
  imgFlags : Byte
  deriving DecidableEq, Repr

/-- Where the yardstick decompressor stands (R234, R235); `result none` is the spec's `invalid`. -/
inductive YardSt where
  | off
  | header
  | block
  | result (r : Option (List Byte))
  deriving DecidableEq, Repr

/-- The yardstick decompressor: the zlib stream under test, the bit position `p` in its deflate part, and the data `u`
decoded so far (R235). -/
structure Yard where
  st : YardSt
  z : List Byte
  p : Nat
  u : List Byte
  deriving DecidableEq, Repr

/-- The state. `pin` is the hardware reset input (R350): before each reset to come, the number of steps until it strikes
(notes/assumptions/22.md). -/
structure State where
  status : Status
  errcode : BitVec 8
  width : BitVec 16
  height : BitVec 16
  trns : BitVec 16
  palN : BitVec 9
  fbLen : BitVec 32
  seq : Seq
  dfr : Dfr
  lzd : Lzd
  ser : Ser
  fb : Memory Byte
  pal : Memory (BitVec 24)
  dict : Memory DictEntry
  dfrbuf : Memory Byte
  env : Env
  bus : List HostAct
  busRd : Option Word
  pin : List Nat
  gif : GifHost
  yard : Yard
  cfg : Config
  deriving DecidableEq, Repr

/-- Accesses of the host to the register bank that the spec gives no effect (notes/assumptions/11.md). -/
inductive Fault where
  /-- An offset at which the bank has no register (R21, R69). Raised by the host's read and write steps of Machine/Fetch.lean, by no
  instruction. Safe: the machine stops where the hardware might go on. -/
  | noRegister (offset : Nat)
  /-- A write to a register the bank lists as read-only (R21). Raised by the host's write step of Machine/Fetch.lean, by no
  instruction. Safe, for the same reason. -/
  | readOnlyRegister (offset : Nat)
  deriving DecidableEq, Repr

/-- Reads of a cell that holds no value: the spec says to treat such a read as refused (R41, R43, R44, R50; notes/assumptions/11.md). -/
inductive Refusal where
  /-- Raised by an arm of exec that has no meaning yet: by none now. Safe. -/
  | notModelled (mnemonic : String)
  /-- A palette cell that was never written: raised by the host's read of it, and by PNG.PLTE in a state no run reaches. Safe. -/
  | palNoValue (index : Nat)
  /-- A frame buffer cell at or above `FB_LEN`: raised by the host's read port, and by CMD.ENCODE and PNG.IDAT in a state no run
  reaches. Safe. -/
  | fbNoValue
  /-- A dictionary cell that holds no entry: raised by LZW.REF and LZW.KWK in a state no run reaches. Safe. -/
  | dictNoValue (code : Code)
  /-- A deframer buffer cell at or above `dfr.len`: raised by the deframer's read in a state no run reaches. Safe. -/
  | dfrNoValue
  deriving DecidableEq, Repr

/-- The deframer after reset (R50). -/
def Dfr.reset : Dfr := { len := 0, pos := 0, st := .active }

/-- The decompressor's registers after reset: no value (R50). DESIGN CHOICE (notes/assumptions/4.md). -/
def Lzd.noValue : Lzd :=
  { n := Config.freeReg 0, clear := Config.freeReg 1, eoi := Config.freeReg 2, cw := Config.freeReg 3,
    next := Config.freeReg 4, prev := Config.freePrev, bitbuf := Config.freeReg 5, bitcnt := Config.freeReg 6,
    outcnt := Config.freeReg 7, target := Config.freeReg 8 }

/-- The serializer's registers after reset: no value (R50). DESIGN CHOICE (notes/assumptions/4.md). -/
def Ser.noValue : Ser :=
  { crc := BitVec.ofNat 32 (Config.freeReg 9), adlA := BitVec.ofNat 16 (Config.freeReg 10),
    adlB := BitVec.ofNat 16 (Config.freeReg 11) }

/-- An environment with nothing to read, nothing written, and no failure to come. -/
def Env.initial : Env :=
  { inData := [], inPos := 0, inFails := [], out := [], outName := none, outFails := [], files := [], openFails := [] }

/-- The container parser before it is started; `frameNo` and the four pending values as R281 gives them,
the rest DESIGN CHOICE (notes/assumptions/5.md). -/
def GifHost.initial : GifHost :=
  { phase := .off, gPresent := false, gPal := none, pendTrns := -1, pendDisp := 0, pendDelay := 0, pendInput := false,
    frameNo := 0, base := [], screenW := 0, screenH := 0, flags := 0, bg := 0, aspect := 0, imgLeft := 0, imgTop := 0,
    imgFlags := 0 }

/-- The yardstick decompressor, not in use. -/
def Yard.initial : Yard := { st := .off, z := [], p := 0, u := [] }

/-- The machine right after reset (R50, R350). -/
def State.reset : State :=
  { status := { done := false, err := false }
    errcode := 0x00
    width := 0
    height := 0
    trns := 0xFFFF
    palN := 0
    fbLen := 0
    seq := .idle
    dfr := Dfr.reset
    lzd := Lzd.noValue
    ser := Ser.noValue
    fb := []
    pal := []
    dict := []
    dfrbuf := []
    env := Env.initial
    bus := []
    busRd := none
    pin := []
    gif := GifHost.initial
    yard := Yard.initial
    cfg := Config.initial }

end Sys2Proof.Machine
end

