-- ==== Sys2Proof/Machine/Flags.lean ====
section
/-! DEFINITION. The flags of the block: `STATUS`, the numbers of the code table, and the tests that instructions make of
register values (spec/10_state.md R23, R25, R29, R30; spec/60_exceptions.md R321). -/

namespace Sys2Proof.Machine

/-- `STATUS` as the host reads it: bit 0 `DONE`, bit 1 `ERR` (R23). -/
def statusWord (f : Status) : BitVec 2 := BitVec.ofBool f.err ++ BitVec.ofBool f.done

/-- The class of a cause (R320, R321). -/
def causeClass : Cause → Nat
  | .badSignature | .badVersion | .badTag | .badExt | .paletteLength | .noPalette | .lzwCodeSize | .lzwCode
  | .badTerminator => 1
  | .sbLength | .sbPayload | .fixedField => 2
  | .inRead | .outWrite | .openFile => 3
  | .sbTerminator | .lzwEoi => 4
  | .badCmd | .errSticky | .fbCap | .badPalN | .palUnwritten | .badTrns | .badFbLen | .chunkTooLong => 5

/-- The number of a cause inside its class (R321). -/
def causeNumber : Cause → Nat
  | .badSignature => 1
  | .badVersion => 2
  | .badTag => 3
  | .badExt => 4
  | .paletteLength => 5
  | .noPalette => 6
  | .lzwCodeSize => 7
  | .lzwCode => 8
  | .badTerminator => 9
  | .sbLength => 1
  | .sbPayload => 2
  | .fixedField => 3
  | .inRead => 1
  | .outWrite => 2
  | .openFile => 3
  | .sbTerminator => 1
  | .lzwEoi => 2
  | .badCmd => 1
  | .errSticky => 2
  | .fbCap => 3
  | .badPalN => 4
  | .palUnwritten => 5
  | .badTrns => 6
  | .badFbLen => 7
  | .chunkTooLong => 8

/-- `ERRCODE = (class << 4) | cause` (R321). -/
def causeCode (c : Cause) : BitVec 8 := BitVec.ofNat 8 (causeClass c * 16 + causeNumber c)

/-- `DONE` is cleared when any command starts (R23, R270). -/
def clearDone (s : State) : State := { s with status := { s.status with done := false } }

/-- A command that ends with success (R23): `seq` is `IDLE` again and `DONE` is set (R275). -/
def succeed (s : State) : State := { s with seq := .idle, status := { s.status with done := true } }

/-- The block is carrying out a command (R24, R271). -/
def busy (s : State) : Bool :=
  match s.seq with
  | .idle | .fault => false
  | _ => true

/-- `PAL_N` is a power of two from 2 to 256 (R29). -/
def palNLegal (n : BitVec 9) : Bool := [2, 4, 8, 16, 32, 64, 128, 256].contains n.toNat

/-- A transparency chunk is written (R30, R204). -/
def trnsPresent (s : State) : Bool := decide (0 ≤ s.trns.toInt)

/-- `WIDTH × HEIGHT`, on natural numbers (R10). -/
def frameSize (s : State) : Nat := s.width.toNat * s.height.toNat

end Sys2Proof.Machine
end

