-- ==== Sys2Proof/Machine/Ops.lean ====
section
/-! DEFINITION. The shared operations: memory cells, the two streams (spec/20_memory.md R61 to R63, R75), what an operation that may
raise answers, taking a fault or a refusal (spec/60_exceptions.md R329, R330), and the only way back, reset (R331, R350). -/

namespace Sys2Proof.Machine

/-! ### Memory cells (R40, R68) -/

/-- Cell `a`, if it holds a value. -/
def Memory.read {α : Type} : Memory α → Nat → Option α
  | [], _ => none
  | (b, v) :: m, a => if a = b then some v else Memory.read m a

/-- Cell `a` takes the value `v`; the list keeps its rising order. -/
def Memory.write {α : Type} : Memory α → Nat → α → Memory α
  | [], a, v => [(a, v)]
  | (b, w) :: m, a, v =>
    if a < b then (a, v) :: (b, w) :: m
    else if a = b then (a, v) :: m
    else (b, w) :: Memory.write m a v

/-- `MemWrite(S, a, n, v)`: consecutive cells from `a` on (R9). -/
def Memory.writeList {α : Type} : Memory α → Nat → List α → Memory α
  | m, _, [] => m
  | m, a, v :: vs => Memory.writeList (Memory.write m a v) (a + 1) vs

/-- `MemRead(S, a, n)`: `n` consecutive cells from `a` on, if every one holds a value (R9). -/
def Memory.readList {α : Type} (m : Memory α) : Nat → Nat → Option (List α)
  | _, 0 => some []
  | a, n + 1 =>
    match Memory.read m a, Memory.readList m (a + 1) n with
    | some v, some vs => some (v :: vs)
    | _, _ => none

/-- The canonical form: indexes strictly rising. -/
def Memory.wf {α : Type} : Memory α → Bool
  | [] => true
  | [_] => true
  | (a, _) :: (b, w) :: m => decide (a < b) && Memory.wf ((b, w) :: m)

/-- Every listed index is below `n`. -/
def Memory.below {α : Type} (n : Nat) (m : Memory α) : Bool := m.all (fun c => decide (c.1 < n))

/-! ### The input stream -/

/-- What `InRead` answers: a byte, `END`, or `FAIL` (R62). -/
inductive InAns where
  | byte (b : Byte)
  | eos
  | fail
  deriving DecidableEq, Repr

/-- The environment's answer to this `InRead` has been given. -/
def inDraw (s : State) : State := { s with env := { s.env with inFails := s.env.inFails.tail } }

/-- `InRead()`: the draw first, then the end test; a byte moves the cursor by 1 (R62). -/
def inRead (s : State) : InAns × State :=
  if s.env.inFails.headD false then (.fail, inDraw s)
  else
    match s.env.inData[s.env.inPos]? with
    | none => (.eos, inDraw s)
    | some b => (.byte b, { inDraw s with env := { (inDraw s).env with inPos := s.env.inPos + 1 } })

/-- `InPeek()`: what `InRead()` would return, the cursor unmoved (R75). It uses up no answer of the environment, whatever it
shows: DESIGN CHOICE (notes/assumptions/7.md). -/
def inPeek (s : State) : InAns := (inRead s).1

/-! ### Answers of operations that may raise -/

/-- What an operation that may raise answers: a value and the state, or the cause and the state at the `raise` (R330). -/
inductive Res (α : Type) where
  | ok (a : α) (s : State)
  | raised (c : Cause) (s : State)
  deriving DecidableEq, Repr

/-- What follows an operation runs only if the operation did not raise (R9). -/
def Res.bind {α β : Type} (r : Res α) (f : α → State → Res β) : Res β :=
  match r with
  | .ok a s => f a s
  | .raised c s => .raised c s

/-- The state an operation ends in, either way. -/
def Res.state {α : Type} : Res α → State
  | .ok _ s => s
  | .raised _ s => s

/-! ### The output stream -/

/-- `OutWrite(b)`: `true` is `ok`, with `b` appended; `false` is `FAIL`, with `OUT` unchanged (R63). -/
def outWrite (b : Byte) (s : State) : Bool × State :=
  if s.env.outFails.headD false then
    (false, { s with env := { s.env with outFails := s.env.outFails.tail } })
  else
    (true, { s with env := { s.env with outFails := s.env.outFails.tail, out := s.env.out ++ [b] } })

/-- `OutWriteAll(s)` (R9): the first failure raises `IOError(OUT_WRITE)` (R208). -/
def outWriteAll : List Byte → State → Res Unit
  | [], s => .ok () s
  | b :: bs, s =>
    match outWrite b s with
    | (true, s') => outWriteAll bs s'
    | (false, s') => .raised .outWrite s'

/-! ### Taking a fault or a refusal, and reset -/

/-- `raise E(cause)` (R330): the block's whole trap entry. Nothing is saved, nothing is rolled back; the code is latched only
if `ERR` was 0 (R25). -/
def raiseExc (c : Cause) (s : State) : State :=
  { s with
    status := { done := false, err := true }
    errcode := if s.status.err then s.errcode else causeCode c
    seq := .fault }

/-- `refuse(cause)` (R329): mechanically `raise Refused(cause)`. -/
def refuseCmd (c : Cause) (s : State) : State := raiseExc c s

/-- Reset of the block, by the pin or by the command (R50, R272, R350): every register and memory of the block takes its reset
value; streams, host, yardstick and configuration are not the block's (R351). It is the only exit from `FAULT` (R331). -/
def blockReset (s : State) : State :=
  { State.reset with
    env := s.env, bus := s.bus, busRd := s.busRd, pin := s.pin, gif := s.gif, yard := s.yard, cfg := s.cfg }

/-- The end of an operation of the block: the command goes on, or the fault is taken. -/
def settle (r : Res Unit) : State :=
  match r with
  | .ok _ s => s
  | .raised c s => raiseExc c s

/-- The end of a phase of the serializer: on to the next phase, or the fault is taken (R275). -/
def settleAt (q : Seq) (r : Res Unit) : State :=
  match r with
  | .ok _ s => { s with seq := q }
  | .raised c s => raiseExc c s

end Sys2Proof.Machine
end

