-- ==== Sys2Proof/Machine/Checksum.lean ====
section
/-! DEFINITION. The CRC-32 and Adler-32 units (spec/43_checksums.md). -/

namespace Sys2Proof.Machine

/-! ### CRC-32 -/

/-- The inner step of R221. -/
def crcBit (c : BitVec 32) : BitVec 32 := if c.getLsbD 0 then (c >>> 1) ^^^ 0xEDB88320 else c >>> 1

/-- The inner step, `n` times. -/
def crcBits : Nat → BitVec 32 → BitVec 32
  | 0, c => c
  | n + 1, c => crcBits n (crcBit c)

/-- `CRC.UPDATE(b)` on a value (R222). -/
def crcByte (c : BitVec 32) (b : Byte) : BitVec 32 := crcBits 8 (c ^^^ b.setWidth 32)

/-- `Crc32(s)` (R221). -/
def crc32 (bs : List Byte) : BitVec 32 := bs.foldl crcByte 0xFFFFFFFF ^^^ 0xFFFFFFFF

/-- The table `T` of R223. -/
def crcTable (n : Byte) : BitVec 32 := crcBits 8 (n.setWidth 32)

/-- `CRC.INIT` (R222). -/
def crcInit (s : State) : State := { s with ser := { s.ser with crc := 0xFFFFFFFF } }

/-- `CRC.UPDATE(b)` (R222). -/
def crcUpdate (b : Byte) (s : State) : State := { s with ser := { s.ser with crc := crcByte s.ser.crc b } }

/-- `CRC.FINAL`: the register is not changed (R222). -/
def crcFinal (s : State) : BitVec 32 := s.ser.crc ^^^ 0xFFFFFFFF

/-! ### Adler-32 -/

/-- One byte of the two sums, on natural numbers (R225, R10). -/
def adlerStep (ab : Nat × Nat) (x : Byte) : Nat × Nat :=
  ((ab.1 + x.toNat) % 65521, (ab.2 + (ab.1 + x.toNat) % 65521) % 65521)

/-- `Adler32(s)` (R225). -/
def adler32 (bs : List Byte) : BitVec 32 :=
  BitVec.ofNat 32 ((bs.foldl adlerStep (1, 0)).2 * 65536 + (bs.foldl adlerStep (1, 0)).1)

/-- `ADLER.INIT` (R226). -/
def adlerInit (s : State) : State := { s with ser := { s.ser with adlA := 1, adlB := 0 } }

/-- `ADLER.UPDATE(x)` (R226). -/
def adlerUpdate (x : Byte) (s : State) : State :=
  { s with ser := { s.ser with
      adlA := BitVec.ofNat 16 (adlerStep (s.ser.adlA.toNat, s.ser.adlB.toNat) x).1
      adlB := BitVec.ofNat 16 (adlerStep (s.ser.adlA.toNat, s.ser.adlB.toNat) x).2 } }

/-- `ADLER.FINAL` (R226). -/
def adlerFinal (s : State) : BitVec 32 := s.ser.adlB ++ s.ser.adlA

/-- `ADLER.INIT`, then `ADLER.UPDATE` for each byte in order (R51, R226). -/
def adlerAll (bs : List Byte) (s : State) : State := bs.foldl (fun t x => adlerUpdate x t) (adlerInit s)

end Sys2Proof.Machine
end

