-- ==== Sys2Proof/Machine/Inflate.lean ====
section
/-! DEFINITION. The yardstick decompressor `ZDecompress` and the reference compressor (spec/44_zlib_deflate.md): pure functions on
byte strings. `none` is the spec's `invalid`. -/

namespace Sys2Proof.Machine

/-! ### The bit reader (R236) -/

/-- Stream bit `p`: bit `p mod 8` of byte `floor(p / 8)`. -/
def bitAt (d : List Byte) (p : Nat) : Option Nat :=
  match d[p / 8]? with
  | some b => some (b.toNat / 2 ^ (p % 8) % 2)
  | none => none

/-- `Bits(n)` at position `p`: the value, first bit least significant. -/
def bitsAt (d : List Byte) (p : Nat) : Nat → Option Nat
  | 0 => some 0
  | n + 1 =>
    match bitAt d p, bitsAt d (p + 1) n with
    | some b, some v => some (b + 2 * v)
    | _, _ => none

/-! ### Huffman codes (R239) -/

/-- `count[L]`; `count[0]` is taken as 0. -/
def lenCount (lens : List Nat) (L : Nat) : Nat := if L = 0 then 0 else lens.count L

/-- `first[L]`: the first code of length `L`. -/
def firstCode (lens : List Nat) : Nat → Nat
  | 0 => 0
  | L + 1 => (firstCode lens L + lenCount lens L) * 2

/-- The symbols whose code has length `L`, in alphabet order, from symbol `s` on. -/
def symsOfLen (L : Nat) : Nat → List Nat → List Nat
  | _, [] => []
  | s, l :: ls => if l = L then s :: symsOfLen L (s + 1) ls else symsOfLen L (s + 1) ls

/-- A code table: for each length from 1 to 15, the first code of that length and the symbols that have it. Codes of one length
are consecutive integers in symbol order, so symbol number `k` of length `L` has the code `first[L] + k` (R239). -/
abbrev Huff := List (Nat × List Nat)

/-- The canonical table of a list of code lengths (R239). -/
def huffTable (lens : List Nat) : Huff :=
  (List.range 15).map (fun i => (firstCode lens (i + 1), symsOfLen (i + 1) 0 lens))

/-- The code is complete: the words of its codes fill the words of 15 bits exactly. An over-subscribed or incomplete code makes the
stream `invalid` (spec/93_implementation_defined.md U33); notes/assumptions/13.md. -/
def huffComplete (lens : List Nat) : Bool :=
  ((List.range 15).map (fun i => lenCount lens (i + 1) * 2 ^ (14 - i))).sum == 2 ^ 15

/-- The decoding loop of R239: `c` is the code read so far; the levels of the table are the lengths still to be tried. -/
def decodeSymFrom (d : List Byte) : Huff → Nat → Nat → Option (Nat × Nat)
  | [], _, _ => none
  | (first, syms) :: rest, c, p =>
    match bitAt d p with
    | none => none
    | some b =>
      if first ≤ 2 * c + b then
        match syms[2 * c + b - first]? with
        | some sym => some (sym, p + 1)
        | none => decodeSymFrom d rest (2 * c + b) (p + 1)
      else decodeSymFrom d rest (2 * c + b) (p + 1)

/-- One symbol and the position after its code (R239). -/
def decodeSym (d : List Byte) (h : Huff) (p : Nat) : Option (Nat × Nat) := decodeSymFrom d h 0 p

/-! ### Coded data (R242) -/

def lenBase : List Nat :=
  [3, 4, 5, 6, 7, 8, 9, 10, 11, 13, 15, 17, 19, 23, 27, 31, 35, 43, 51, 59, 67, 83, 99, 115, 131, 163, 195, 227, 258]

def lenExtra : List Nat :=
  [0, 0, 0, 0, 0, 0, 0, 0, 1, 1, 1, 1, 2, 2, 2, 2, 3, 3, 3, 3, 4, 4, 4, 4, 5, 5, 5, 5, 0]

def distBase : List Nat :=
  [1, 2, 3, 4, 5, 7, 9, 13, 17, 25, 33, 49, 65, 97, 129, 193, 257, 385, 513, 769, 1025, 1537, 2049, 3073, 4097, 6145,
   8193, 12289, 16385, 24577]

def distExtra : List Nat :=
  [0, 0, 0, 0, 1, 1, 2, 2, 3, 3, 4, 4, 5, 5, 6, 6, 7, 7, 8, 8, 9, 9, 10, 10, 11, 11, 12, 12, 13, 13]

/-- A base plus extra bits: the value and the position after the bits; no value for a symbol outside the tables (R242). -/
def baseExtra (d : List Byte) (base extra : List Nat) (k p : Nat) : Option (Nat × Nat) :=
  match base[k]?, extra[k]? with
  | some b, some n => (bitsAt d p n).map (fun v => (b + v, p + n))
  | _, _ => none

/-- A match: `n` bytes, one at a time, each the byte `dist` places before the end at that moment (R242). -/
def copyMatch (dist : Nat) : Nat → List Byte → List Byte
  | 0, u => u
  | n + 1, u => copyMatch dist n (u ++ [u.getD (u.length - dist) 0])

/-- Length symbol 257 + `k` and the distance after it: the position and the data with the match appended (R242). -/
def inflateMatch (d : List Byte) (dst : Huff) (k p : Nat) (u : List Byte) : Option (Nat × List Byte) :=
  match baseExtra d lenBase lenExtra k p with
  | none => none
  | some (len, p2) =>
    match decodeSym d dst p2 with
    | none => none
    | some (t, p3) =>
      match baseExtra d distBase distExtra t p3 with
      | none => none
      | some (dist, p4) => if u.length < dist then none else some (p4, copyMatch dist len u)

/-- One symbol of coded data: a literal byte, the end of the block (`true`), or a match (R242). -/
def inflateSym (d : List Byte) (lit dst : Huff) (p : Nat) (u : List Byte) : Option (Bool × Nat × List Byte) :=
  match decodeSym d lit p with
  | none => none
  | some (sym, p1) =>
    if sym < 256 then some (false, p1, u ++ [BitVec.ofNat 8 sym])
    else if sym = 256 then some (true, p1, u)
    else (inflateMatch d dst (sym - 257) p1 u).map (fun r => (false, r))

/-- Coded data with the tables `lit` and `dst`, by recursion on fuel: every symbol takes at least one bit (R242). -/
def inflateCoded (d : List Byte) (lit dst : Huff) : Nat → Nat → List Byte → Option (Nat × List Byte)
  | 0, _, _ => none
  | k + 1, p, u =>
    match inflateSym d lit dst p u with
    | none => none
    | some (true, r) => some r
    | some (false, p', u') => inflateCoded d lit dst k p' u'

/-- Fuel that no stream of `d` uses up. -/
def bitFuel (d : List Byte) : Nat := 8 * d.length + 1

/-! ### The three kinds of block -/

/-- A stored block (R238); `p` stands after the three header bits. -/
def inflateStored (d : List Byte) (p : Nat) (u : List Byte) : Option (Nat × List Byte) :=
  let q := 8 * ((p + 7) / 8)
  match bitsAt d q 16, bitsAt d (q + 16) 16 with
  | some len, some nlen =>
    if len + nlen = 65535 ∧ q / 8 + 4 + len ≤ d.length then
      some (q + 32 + 8 * len, u ++ (d.drop (q / 8 + 4)).take len)
    else none
  | _, _ => none

/-- The fixed tables (R240). -/
def fixedLit : List Nat :=
  List.replicate 144 8 ++ List.replicate 112 9 ++ List.replicate 24 7 ++ List.replicate 8 8

def fixedDist : List Nat := List.replicate 32 5

/-- A block with the fixed tables (R240, R242). -/
def inflateFixed (d : List Byte) (p : Nat) (u : List Byte) : Option (Nat × List Byte) :=
  inflateCoded d (huffTable fixedLit) (huffTable fixedDist) (bitFuel d) p u

/-- The order in which the lengths of the code-length alphabet come (R241). -/
def clOrder : List Nat := [16, 17, 18, 0, 8, 7, 9, 6, 10, 5, 11, 4, 12, 3, 13, 2, 14, 1, 15]

/-- Three-bit values for the symbols of `order`; symbols not reached keep length 0 (R241). -/
def readClLens (d : List Byte) : List Nat → Nat → List Nat → Option (List Nat)
  | [], _, acc => some acc
  | s :: order, p, acc =>
    match bitsAt d p 3 with
    | none => none
    | some v => readClLens d order (p + 3) (acc.set s v)

/-- The code lengths of a dynamic block, `need` of them, by recursion on fuel: every symbol takes at least one bit (R241). -/
def readLens (d : List Byte) (h : Huff) (need : Nat) : Nat → Nat → List Nat → Option (Nat × List Nat)
  | 0, _, _ => none
  | k + 1, p, acc =>
    if need < acc.length then none
    else if acc.length = need then some (p, acc)
    else
      match decodeSym d h p with
      | none => none
      | some (sym, p1) =>
        if sym ≤ 15 then readLens d h need k p1 (acc ++ [sym])
        else if sym = 16 then
          match acc.getLast?, bitsAt d p1 2 with
          | some l, some v => readLens d h need k (p1 + 2) (acc ++ List.replicate (3 + v) l)
          | _, _ => none
        else if sym = 17 then
          match bitsAt d p1 3 with
          | some v => readLens d h need k (p1 + 3) (acc ++ List.replicate (3 + v) 0)
          | none => none
        else
          match bitsAt d p1 7 with
          | some v => readLens d h need k (p1 + 7) (acc ++ List.replicate (11 + v) 0)
          | none => none

/-- The two tables of a dynamic block and the position after them (R241): literal/length lengths, distance lengths. -/
def dynTables (d : List Byte) (p : Nat) : Option (Nat × List Nat × List Nat) :=
  match bitsAt d p 5, bitsAt d (p + 5) 5, bitsAt d (p + 10) 4 with
  | some a, some b, some c =>
    if 286 < a + 257 then none
    else
      match readClLens d (clOrder.take (c + 4)) (p + 14) (List.replicate 19 0) with
      | none => none
      | some cl =>
        if huffComplete cl = false then none
        else
          match readLens d (huffTable cl) (a + 257 + (b + 1)) (bitFuel d) (p + 14 + 3 * (c + 4)) [] with
          | none => none
          | some (p', lens) => some (p', lens.take (a + 257), lens.drop (a + 257))
  | _, _, _ => none

/-- A block with dynamic tables (R241, R242). -/
def inflateDyn (d : List Byte) (p : Nat) (u : List Byte) : Option (Nat × List Byte) :=
  match dynTables d p with
  | none => none
  | some (p', lit, dst) =>
    if huffComplete lit = false ∨ huffComplete dst = false then none
    else inflateCoded d (huffTable lit) (huffTable dst) (bitFuel d) p' u

/-- One block of kind `btype` after its header bits (R235, R237). -/
def inflateBlock (d : List Byte) (btype p : Nat) (u : List Byte) : Option (Nat × List Byte) :=
  match btype with
  | 0 => inflateStored d p u
  | 1 => inflateFixed d p u
  | 2 => inflateDyn d p u
  | _ => none

/-- The loop of `Inflate`, by recursion on fuel: every block takes at least its three header bits (R235). -/
def inflateFrom (d : List Byte) : Nat → Nat → List Byte → Option (Nat × List Byte)
  | 0, _, _ => none
  | k + 1, p, u =>
    match bitsAt d p 3 with
    | none => none
    | some h =>
      match inflateBlock d (h / 2) (p + 3) u with
      | none => none
      | some (p', u') => if h % 2 = 1 then some (p', u') else inflateFrom d k p' u'

/-- `Inflate(d)`: the data and the number of whole bytes used (R235). -/
def inflate (d : List Byte) : Option (List Byte × Nat) :=
  (inflateFrom d (bitFuel d) 0 []).map (fun r => (r.2, (r.1 + 7) / 8))

/-- The last conditions of `ZDecompress`: nothing is missing or left over, and the trailer is right (R233, R234); `p` is the
bit position after the last block. -/
def zTrailer (z : List Byte) (p : Nat) (u : List Byte) : Option (List Byte) :=
  if z.length = 2 + (p + 7) / 8 + 4 ∧ z.drop (2 + (p + 7) / 8) = splitBe32 (adler32 u) then some u else none

/-- `ZDecompress(z)` (R234). -/
def zDecompress (z : List Byte) : Option (List Byte) :=
  if z.length < 6 ∨ zlibHdrOk (byteAt z 0) (byteAt z 1) = false then none
  else
    match inflateFrom (z.drop 2) (bitFuel (z.drop 2)) 0 [] with
    | none => none
    | some (p, u) => zTrailer z p u

/-! ### The compressors -/

/-- One stored block, header byte 0x00 or 0x01 (R244). -/
def storedBlock (fin : Bool) (c : List Byte) : List Byte :=
  [BitVec.ofNat 8 fin.toNat] ++ splitLe16 (BitVec.ofNat 16 c.length) ++
    splitLe16 (BitVec.ofNat 16 c.length ^^^ 0xFFFF) ++ c

/-- The stored blocks of `b`: pieces of `STORED_MAX` bytes, the last possibly shorter, by recursion on fuel (R244). -/
def storedBlocks : Nat → List Byte → List Byte
  | 0, b => storedBlock true b
  | k + 1, b =>
    if b.length ≤ 65535 then storedBlock true b
    else storedBlock false (b.take 65535) ++ storedBlocks k (b.drop 65535)

/-- `ZCompress_ref` (R244). -/
def zCompressRef (b : List Byte) : List Byte :=
  [0x78, 0xDA] ++ storedBlocks (b.length / 65535) b ++ splitBe32 (adler32 b)

/-- `ZCompress` (R230): the reference, or whatever the open compressor writes, as long as it obeys the law; where it would not,
the reference again, so that the law holds of every compressor. DESIGN CHOICE (notes/assumptions/3.md). -/
def zCompress (c : Compressor) (b : List Byte) : List Byte :=
  match c with
  | .reference => zCompressRef b
  | .free id => if zDecompress (Config.freeZ id b) = some b then Config.freeZ id b else zCompressRef b

end Sys2Proof.Machine
end

