-- ==== Sys2Proof/Machine/Operands.lean ====
section
/-! DEFINITION. Where operands come from: the register bank and its access rules (spec/10_state.md R21 to R30, R42), and the guarded
cells of the four memories (R41 to R44): a cell outside its valid range holds no value, whatever is listed there. -/

namespace Sys2Proof.Machine

/-! ### Offsets of the register bank (R21) -/

def offCmd : Nat := 0x00
def offStatus : Nat := 0x04
def offErrcode : Nat := 0x08
def offWidth : Nat := 0x0C
def offHeight : Nat := 0x10
def offTrns : Nat := 0x14
def offPalN : Nat := 0x18
def offFbLen : Nat := 0x1C
def offPal : Nat := 0x400

/-- The palette entry at a bank offset, `0x400 + 4 × i` for `i` from 0 to 255 (R21). -/
def palIndex (off : Nat) : Option Nat :=
  if offPal ≤ off ∧ off < offPal + 4 * 256 ∧ off % 4 = 0 then some ((off - offPal) / 4) else none

/-- A host write to a register other than `CMD`; bits above the register's width are ignored (R21). -/
def busWrite (off : Nat) (v : Word) (s : State) : Except Fault State :=
  if off = offWidth then .ok { s with width := v.setWidth 16 }
  else if off = offHeight then .ok { s with height := v.setWidth 16 }
  else if off = offTrns then .ok { s with trns := v.setWidth 16 }
  else if off = offPalN then .ok { s with palN := v.setWidth 9 }
  else if off = offStatus ∨ off = offErrcode ∨ off = offFbLen then .error (.readOnlyRegister off)
  else
    match palIndex off with
    | some i => .ok { s with pal := Memory.write s.pal i (v.setWidth 24) }
    | none => .error (.noRegister off)

/-- What a host read of the bank gives. -/
inductive BusAns where
  | value (v : Word)
  | fault (f : Fault)
  | refused (r : Refusal)
  deriving DecidableEq, Repr

/-- A host read of the bank: zeros above a register's width, `TRNS` sign-extended, `CMD` reads as 0 (R21, R22); an
unwritten palette cell holds no value (R42, R50). -/
def busRead (off : Nat) (s : State) : BusAns :=
  if off = offCmd then .value 0
  else if off = offStatus then .value ((statusWord s.status).setWidth 32)
  else if off = offErrcode then .value (s.errcode.setWidth 32)
  else if off = offWidth then .value (s.width.setWidth 32)
  else if off = offHeight then .value (s.height.setWidth 32)
  else if off = offTrns then .value (s.trns.signExtend 32)
  else if off = offPalN then .value (s.palN.setWidth 32)
  else if off = offFbLen then .value s.fbLen
  else
    match palIndex off with
    | some i =>
      match Memory.read s.pal i with
      | some e => .value (e.setWidth 32)
      | none => .refused (.palNoValue i)
    | none => .fault (.noRegister off)

/-! ### Guarded cells -/

/-- Frame buffer cell `i`: it holds a value only below `FB_LEN` (R41). -/
def fbCell (s : State) (i : Nat) : Option Byte :=
  if i < s.fbLen.toNat then Memory.read s.fb i else none

/-- `MemRead(FB, a, n)` (R9, R41). -/
def fbSlice (s : State) : Nat → Nat → Option (List Byte)
  | _, 0 => some []
  | a, n + 1 =>
    match fbCell s a, fbSlice s (a + 1) n with
    | some v, some vs => some (v :: vs)
    | _, _ => none

/-- Dictionary cell `c`: it holds an entry only for `clear + 2 <= c < next` (R43). -/
def dictCell (s : State) (c : Nat) : Option DictEntry :=
  if s.lzd.clear + 2 ≤ c ∧ c < s.lzd.next then Memory.read s.dict c else none

/-- `MemRead(DFRBUF, a, k)`: cells at and above `dfr.len` hold no value (R44). -/
def dfrSlice (s : State) (a k : Nat) : Option (List Byte) :=
  if a + k ≤ s.dfr.len then Memory.readList s.dfrbuf a k else none

/-- Every palette cell below `n` is written (R42, R191). -/
def palWritten (s : State) (n : Nat) : Bool := (List.range n).all (fun i => (Memory.read s.pal i).isSome)

/-- `FB_CAP` under its law: at most 4294836225 cells (R7). -/
def fbCap (s : State) : Nat := min s.cfg.fbCap 4294836225

end Sys2Proof.Machine
end

