-- ==== Sys2Proof/Machine/Ser.lean ====
section
/-! DEFINITION. SER, the image serializer, and the instructions PNG.SIG to PNG.IEND (spec/42_serializer.md). Each is what the
sequencer carries out in one phase (spec/45_commands.md R275): it writes its part of the file and goes to the next phase. -/

namespace Sys2Proof.Machine

/-- Bytes that go to `OUT` and into the running checksum, one by one (R193). -/
def emitCrc : List Byte → State → Res Unit
  | [], s => .ok () s
  | b :: bs, s =>
    match outWrite b s with
    | (true, s') => emitCrc bs (crcUpdate b s')
    | (false, s') => .raised .outWrite s'

/-- `SER.CHUNK(tag, payload)` (R193). -/
def serChunk (tag payload : List Byte) (s : State) : Res Unit :=
  Res.bind (outWriteAll (lenBe32 payload.length) s) (fun _ s1 =>
    Res.bind (emitCrc tag (crcInit s1)) (fun _ s2 =>
      Res.bind (emitCrc payload s2) (fun _ s3 => outWriteAll (splitBe32 (crcFinal s3)) s3)))

/-- The bytes of a chunk, as a function (R99): what `SER.CHUNK` appends when nothing fails. -/
def chunkBytes (tag payload : List Byte) : List Byte :=
  lenBe32 payload.length ++ tag ++ payload ++ splitBe32 (crc32 (tag ++ payload))

/-- The header chunk's payload (R102, R200). -/
def ihdrPayload (s : State) : List Byte :=
  splitBe32 (s.width.setWidth 32) ++ splitBe32 (s.height.setWidth 32) ++ [0x08, 0x03, 0x00, 0x00, 0x00]

/-- One palette entry as R, G, B (R103, R201). -/
def rgbBytes (e : BitVec 24) : List Byte := [e.extractLsb' 16 8, e.extractLsb' 8 8, e.extractLsb' 0 8]

/-- The palette chunk's payload from entry `i` on, `n` entries; no value if one is unwritten (R201, R42). -/
def pltePayload (s : State) : Nat → Nat → Option (List Byte)
  | _, 0 => some []
  | i, n + 1 =>
    match Memory.read s.pal i, pltePayload s (i + 1) n with
    | some e, some bs => some (rgbBytes e ++ bs)
    | _, _ => none

/-- The first palette cell below `n` that was never written, for the refusal of an unwritten palette. -/
def firstUnwritten (s : State) (n : Nat) : Nat :=
  ((List.range n).find? (fun i => (Memory.read s.pal i).isNone)).getD n

/-- The transparency chunk's payload (R204). -/
def trnsPayload (t : Nat) : List Byte := List.replicate t 0xFF ++ [0x00]

/-- `SER.FILT` from row `r` on, `n` rows; no value if a cell of `FB` has none (R206, R41). -/
def serFiltFrom (s : State) : Nat → Nat → Option (List Byte)
  | _, 0 => some []
  | r, n + 1 =>
    match fbSlice s (r * s.width.toNat) s.width.toNat, serFiltFrom s (r + 1) n with
    | some row, some bs => some ((0x00 :: row) ++ bs)
    | _, _ => none

/-- `SER.FILT` (R206). -/
def serFilt (s : State) : Option (List Byte) := serFiltFrom s 0 s.height.toNat

/-- `SER.IDAT(z)` (R205). -/
def serIdat (z : List Byte) (s : State) : Res Unit := serChunk tagIDAT z s

/-- The largest payload length SER frames: `CHUNK_MAXLEN` (R6, R191). -/
def chunkMaxLen : Nat := 2147483647

/-- Preconditions 1 to 4 of `ENCODE`, in order (R191): the cause of the first that fails. -/
def encodeCheck (s : State) : Option Cause :=
  if palNLegal s.palN = false then some .badPalN
  else if palWritten s s.palN.toNat = false then some .palUnwritten
  else if 255 < s.trns.toInt then some .badTrns
  else if s.fbLen.toNat ≠ frameSize s then some .badFbLen
  else none

/-- The phase after the palette chunk (R190, R275). -/
def afterPlte (s : State) : Seq := if trnsPresent s then .serTrns else .serIdat

/-! ### The instructions -/

/-- PNG.SIG (R192). -/
def execPngSig (s : State) : Host.Outcome State Fault Refusal := .next (settleAt .serIhdr (outWriteAll sigBytes s))

/-- PNG.IHDR (R200). -/
def execPngIhdr (s : State) : Host.Outcome State Fault Refusal :=
  .next (settleAt .serPlte (serChunk tagIHDR (ihdrPayload s) s))

/-- PNG.PLTE (R201). -/
def execPngPlte (s : State) : Host.Outcome State Fault Refusal :=
  match pltePayload s 0 s.palN.toNat with
  | some p => .next (settleAt (afterPlte s) (serChunk tagPLTE p s))
  | none => .refused (.palNoValue (firstUnwritten s s.palN.toNat))

/-- PNG.tRNS (R204): with `TRNS < 0` the chunk is absent altogether. -/
def execPngTrns (s : State) : Host.Outcome State Fault Refusal :=
  .next (if trnsPresent s then settleAt .serIdat (serChunk tagTRNS (trnsPayload s.trns.toNat) s)
    else { s with seq := .serIdat })

/-- PNG.IDAT (R205): `z = ZCompress(raw)`, of the same `raw` and the same function as at the preconditions (R190). -/
def execPngIdat (s : State) : Host.Outcome State Fault Refusal :=
  match serFilt s with
  | some raw => .next (settleAt .serIend (serIdat (zCompress s.cfg.compressor raw) s))
  | none => .refused .fbNoValue

/-- PNG.IEND (R207): after it the command ends with success. -/
def execPngIend (s : State) : Host.Outcome State Fault Refusal :=
  .next (match serChunk tagIEND [] s with
    | .ok _ s' => succeed s'
    | .raised c s' => raiseExc c s')

end Sys2Proof.Machine
end

