-- ==== Sys2Proof/Machine/Cmd.lean ====
section
/-! DEFINITION. The commands: dispatch and the instructions CMD.RESET, CMD.DECODE, CMD.ENCODE, CMD.RSVD (spec/45_commands.md). A
command's instruction accepts or refuses it; the phases that follow carry it out. -/

namespace Sys2Proof.Machine

/-- CMD.RESET (R272): accepted in every state. -/
def execCmdReset (s : State) : Host.Outcome State Fault Refusal := .next (blockReset s)

/-- CMD.DECODE (R270, R273): accepted, it enters the phase that reads the code-size byte. -/
def execCmdDecode (s : State) : Host.Outcome State Fault Refusal :=
  .next (if s.status.err then refuseCmd .errSticky (clearDone s)
    else if fbCap s < frameSize s then refuseCmd .fbCap (clearDone s)
    else { clearDone s with seq := .lzdSize })

/-- CMD.ENCODE (R270, R274): the preconditions of R191 in order, then the phase that writes the signature. The Adler unit runs
over `raw` when the command is accepted (R51; notes/assumptions/9.md). -/
def execCmdEncode (s : State) : Host.Outcome State Fault Refusal :=
  if s.status.err then .next (refuseCmd .errSticky (clearDone s))
  else
    match encodeCheck s with
    | some c => .next (refuseCmd c (clearDone s))
    | none =>
      match serFilt s with
      | none => .refused .fbNoValue
      | some raw =>
        .next (if chunkMaxLen < (zCompress s.cfg.compressor raw).length then refuseCmd .chunkTooLong (clearDone s)
          else { adlerAll raw (clearDone s) with seq := .serSig })

/-- CMD.RSVD (R270): a reserved code. -/
def execCmdRsvd (_c : Byte) (s : State) : Host.Outcome State Fault Refusal :=
  .next (if s.status.err then refuseCmd .errSticky (clearDone s) else refuseCmd .badCmd (clearDone s))

end Sys2Proof.Machine
end

