-- ==== Sys2Proof/Machine/Dfr.lean ====
section
/-! DEFINITION. DFR, the sub-block deframer, and the instructions SB.TERM and SB.DATA (spec/40_deframer.md). -/

namespace Sys2Proof.Machine

/-- The deframer has reported truncation and stays unusable (R132, R133). -/
def dfrTrunc (c : Cause) (s : State) : State := { s with dfr := { s.dfr with st := .trunc c } }

/-- The same for a short payload, which also empties the buffer (R133). -/
def dfrTruncPayload (s : State) : State := { s with dfr := { len := 0, pos := 0, st := .trunc .sbPayload } }

/-- `DFR.OPEN` (R131). -/
def dfrOpen (s : State) : State := { s with dfr := { len := 0, pos := 0, st := .active } }

/-- The terminator inside `DFR.FILL` (R134). -/
def dfrTerm (s : State) : State := { s with dfr := { len := 0, pos := 0, st := .eof } }

/-- The payload loop of `DFR.FILL`: `k` bytes still to come, the next one for cell `i` (R133). -/
def dfrPayload : Nat → Nat → State → Res Unit
  | 0, _, s => .ok () s
  | k + 1, i, s =>
    match inRead s with
    | (.fail, s') => .raised .inRead (dfrTrunc .inRead s')
    | (.eos, s') => .raised .sbPayload (dfrTruncPayload s')
    | (.byte b, s') => dfrPayload k (i + 1) { s' with dfrbuf := Memory.write s'.dfrbuf i b }

/-- `DFR.FILL` after a length byte `len` other than 0 (R133). -/
def dfrLoad (len : Byte) (s : State) : Res Unit :=
  Res.bind (dfrPayload len.toNat 0 s)
    (fun _ s' => .ok () { s' with dfr := { s'.dfr with len := len.toNat, pos := 0 } })

/-- `DFR.FILL` up to its length byte (R133). -/
def dfrLength (s : State) : Res Byte :=
  match inRead s with
  | (.fail, s') => .raised .inRead (dfrTrunc .inRead s')
  | (.eos, s') => .raised .sbLength (dfrTrunc .sbLength s')
  | (.byte b, s') => .ok b s'

/-- `DFR.FILL` whole: `true` is `DATA`, `false` is `EOF` (R133, R134). -/
def dfrFill (s : State) : Res Bool :=
  Res.bind (dfrLength s) (fun len s' =>
    if len = 0 then .ok false (dfrTerm s') else Res.bind (dfrLoad len s') (fun _ s'' => .ok true s''))

/-- The answers of a read request (R130). -/
inductive DfrAns where
  | data (bs : List Byte)
  | eof
  /-- a buffered cell holds no value: in no state a run reaches -/
  | noValue
  deriving DecidableEq, Repr

/-- The last lines of `DFR.READ`: at most `n` bytes of the current sub-block (R132, R139). -/
def dfrTake (n : Nat) (s : State) : Res DfrAns :=
  match dfrSlice s s.dfr.pos (min n (s.dfr.len - s.dfr.pos)) with
  | some bs => .ok (.data bs) { s with dfr := { s.dfr with pos := s.dfr.pos + min n (s.dfr.len - s.dfr.pos) } }
  | none => .ok .noValue s

/-- `DFR.READ(n)` (R132). -/
def dfrRead (n : Nat) (s : State) : Res DfrAns :=
  match s.dfr.st with
  | .eof => .ok .eof s
  | .trunc c => .raised c s
  | .active =>
    if n = 0 then .ok (.data []) s
    else if s.dfr.pos = s.dfr.len then
      Res.bind (dfrFill s) (fun got s' => if got then dfrTake n s' else .ok .eof s')
    else dfrTake n s

/-- SB.TERM (R134). The cursor already stands after the length byte. -/
def execSbTerm (s : State) : Host.Outcome State Fault Refusal := .next (dfrTerm s)

/-- SB.DATA (R133). The cursor already stands after the length byte. -/
def execSbData (len : Byte) (s : State) : Host.Outcome State Fault Refusal := .next (settle (dfrLoad len s))

end Sys2Proof.Machine
end

