-- ==== Sys2Proof/Machine/Gif.lean ====
section
/-! DEFINITION. The block's host as spec/46_host_protocol.md gives it: the Container Parser and the Palette Codec, and the instructions
GIF.TRAILER to EXT.BAD. It drives the block only through host actions (`bus`), and its own faults end its run without touching
`ERRCODE` (R280). -/

namespace Sys2Proof.Machine

/-! ### Faults and phases of the host -/

/-- A fault ends the host's run, under its code of the table (R280, R307, R321). -/
def hostFail (code : BitVec 8) (s : State) : State := { s with gif := { s.gif with phase := .failed code } }

/-- A host fault of cause `c`. -/
def hostRaise (c : Cause) (s : State) : State := hostFail (causeCode c) s

/-- The host goes on to phase `q`. -/
def setPhase (q : GifPhase) (s : State) : State := { s with gif := { s.gif with phase := q } }

/-- The end of a host operation: on to phase `q`, or the fault. -/
def hostAt (q : GifPhase) (r : Res Unit) : State :=
  match r with
  | .ok _ s => setPhase q s
  | .raised c s => hostRaise c s

/-- The end of a host operation that sets its own phase, or the fault. -/
def hostEnd (r : Res Unit) : State :=
  match r with
  | .ok _ s => s
  | .raised c s => hostRaise c s

/-! ### Read primitives (R282) -/

/-- `HRead(n)`: a fixed field of `n` bytes. -/
def hRead : Nat → State → Res (List Byte)
  | 0, s => .ok [] s
  | n + 1, s =>
    match inRead s with
    | (.fail, s') => .raised .inRead s'
    | (.eos, s') => .raised .fixedField s'
    | (.byte b, s') => Res.bind (hRead n s') (fun bs s'' => .ok (b :: bs) s'')

/-- The payload of a skipped sub-block, `k` bytes still to come. -/
def hSkipPayload : Nat → State → Res Unit
  | 0, s => .ok () s
  | k + 1, s =>
    match inRead s with
    | (.fail, s') => .raised .inRead s'
    | (.eos, s') => .raised .sbPayload s'
    | (.byte _, s') => hSkipPayload k s'

/-- `HSkipSub()`: one sub-block, skipped; its length byte. -/
def hSkipSub (s : State) : Res Byte :=
  match inRead s with
  | (.fail, s') => .raised .inRead s'
  | (.eos, s') => .raised .sbLength s'
  | (.byte len, s') => Res.bind (hSkipPayload len.toNat s') (fun _ s'' => .ok len s'')

/-- Sub-blocks up to and including a terminator, by recursion on fuel: each takes at least one byte of `IN`. -/
def hSkipSeq : Nat → State → Res Unit
  | 0, s => .raised .sbLength s
  | k + 1, s => Res.bind (hSkipSub s) (fun len s' => if len = 0 then .ok () s' else hSkipSeq k s')

/-- `HSkipVar()`: an extension's variable trailing data (R282, R298). -/
def hSkipVar (s : State) : Res Unit :=
  match s.cfg.extTerm with
  | .literal => Res.bind (hSkipSub s) (fun _ s' => .ok () s')
  | .consume => hSkipSeq (s.env.inData.length - s.env.inPos + 1) s

/-- `HTerm` (R298). -/
def hTerm (s : State) : Res Unit :=
  Res.bind (hRead 1 s) (fun bs s' => if byteAt bs 0 = 0x00 then .ok () s' else .raised .badTerminator s')

/-! ### The Palette Codec (R285, R286, R288) -/

/-- The triples of a byte string, in order. -/
def rgbTriples : List Byte → List Rgb
  | r :: g :: b :: rest => { r := r, g := g, b := b } :: rgbTriples rest
  | _ => []

/-- `PAL.DECODE(bytes, expectedEntries)` (R285). -/
def palDecode (bytes : List Byte) (entries : Nat) : Except Cause (List Rgb) :=
  if bytes.length = entries * 3 then .ok (rgbTriples bytes) else .error .paletteLength

/-- `PAL.ENCODE(palette)` (R286). -/
def palEncode (pal : List Rgb) : List Byte := pal.flatMap (fun e => [e.r, e.g, e.b])

/-- The 24-bit value of a palette cell (R42). -/
def rgbCell (e : Rgb) : BitVec 24 := e.r ++ e.g ++ e.b

/-- `PAL.DECODE(HReadPal(e), e)` (R284, R288, R304). -/
def readPalette (entries : Nat) (s : State) : Res (List Rgb) :=
  Res.bind (hRead (3 * entries) s) (fun bs s' =>
    match palDecode bs entries with
    | .ok p => .ok p s'
    | .error c => .raised c s')

/-- The entry count of a size exponent: `2^(n+1)` (R109, R111). -/
def palEntries (flags : Byte) : Nat := 2 ^ (flags.toNat % 8 + 1)

/-! ### The header (R283, R284) -/

/-- Signature and version (R283): the signature is tested first. -/
def gifSignature (h : List Byte) : Option Cause :=
  if (h.take 3).map upperByte ≠ [0x47, 0x49, 0x46] then some .badSignature
  else if h.drop 3 ≠ [0x38, 0x37, 0x61] ∧ h.drop 3 ≠ [0x38, 0x39, 0x61] then some .badVersion
  else none

/-- The logical screen descriptor's fields (R284). -/
def setScreen (d : List Byte) (s : State) : State :=
  { s with gif := { s.gif with
      screenW := le16 (byteAt d 0) (byteAt d 1)
      screenH := le16 (byteAt d 2) (byteAt d 3)
      flags := byteAt d 4
      bg := byteAt d 5
      aspect := byteAt d 6
      gPresent := (byteAt d 4).getLsbD 7 } }

/-- `HOST.HEADER`, second half (R284). -/
def gifScreen (s : State) : Res Unit :=
  Res.bind (hRead 7 s) (fun d s1 =>
    if (byteAt d 4).getLsbD 7 then
      Res.bind (readPalette (palEntries (byteAt d 4)) (setScreen d s1)) (fun p s2 =>
        .ok () { s2 with gif := { s2.gif with gPal := some p } })
    else .ok () { setScreen d s1 with gif := { (setScreen d s1).gif with gPal := none } })

/-- `HOST.HEADER` whole (R283, R284). -/
def gifHeader (s : State) : Res Unit :=
  Res.bind (hRead 6 s) (fun h s1 =>
    match gifSignature h with
    | some c => .raised c s1
    | none => gifScreen s1)

/-! ### Files (R60, R305, R309) -/

/-- The environment's answer to an opening: `false` is a failure. -/
def openDraw (s : State) : Bool × State :=
  (!s.env.openFails.headD false, { s with env := { s.env with openFails := s.env.openFails.tail } })

/-- The decimal digits of a frame index. -/
def indexDigits (n : Nat) : List Byte := (Nat.toDigits 10 n).map (fun c => BitVec.ofNat 8 c.toNat)

/-- The name in bytes: `<basename>-<frame-index>.<ext>` in a directory named after the base name (R309). -/
def FileName.path (f : FileName) : List Byte :=
  f.base ++ [0x2F] ++ f.base ++ [0x2D] ++ indexDigits f.index ++ [0x2E] ++ Config.fileExt

/-- A fresh, empty `OUT` sink, with its name if it has one. A sink that was not closed is kept as a file if it holds a byte or has
a name. DESIGN CHOICE (notes/assumptions/16.md). -/
def openOut (name : Option FileName) (s : State) : State :=
  { s with env := { s.env with
      files := if s.env.out = [] ∧ s.env.outName = none then s.env.files
        else s.env.files ++ [{ name := s.env.outName, bytes := s.env.out }]
      out := []
      outName := name } }

/-- The current sink is closed: it becomes the next file. The spec does not say what an `ENCODE` or a closing does with no sink
open: here there is always a current sink, fresh and without a name after a closing, so an `ENCODE` appends to it and a closing adds
it to the files. DESIGN CHOICE (notes/assumptions/16.md). -/
def closeOut (s : State) : State :=
  { s with env := { s.env with
      files := s.env.files ++ [{ name := s.env.outName, bytes := s.env.out }], out := [], outName := none } }

/-! ### `HOST.RUN` between the tokens (R289, R305) -/

/-- The host starts on the input file of base name `base`: the input is opened, and the variables to which R281 gives a start value
take it (R281, R289, R309). The rules do not say which comes first: here the opening does, and a run whose input cannot be opened
leaves the variables as they were. DESIGN CHOICE (notes/assumptions/5.md). -/
def gifStart (base : List Byte) (s : State) : State :=
  match openDraw s with
  | (false, s') => hostRaise .openFile s'
  | (true, s') =>
    { s' with gif := { s'.gif with
        phase := .header, pendTrns := -1, pendDisp := 0, pendDelay := 0, pendInput := false, frameNo := 0, base := base } }

/-- The writes that load a palette: `wr PAL_N, len(p)`, then `wr PAL[i]` for each entry (R286, R305). -/
def palWrites (p : List Rgb) : List HostAct :=
  .wr offPalN (BitVec.ofNat 32 p.length) ::
    (List.range p.length).map (fun i => .wr (offPal + 4 * i) ((rgbCell (p.getD i ⟨0, 0, 0⟩)).setWidth 32))

/-- After `cmd DECODE` returned (R305): the block's fault becomes the host's, or palette and `TRNS` are loaded. -/
def gifAfterDecode (active : List Rgb) (s : State) : State :=
  if s.status.err then hostFail s.errcode s
  else
    setPhase .opening
      { s with bus := palWrites active ++ [.wr offTrns (BitVec.ofInt 32 s.gif.pendTrns)] ++ s.bus }

/-- The name of the file of frame number `frame_no` (R309). -/
def frameName (s : State) : FileName := { base := s.gif.base, index := s.gif.frameNo }

/-- The frame gets its number, a fresh `OUT` is opened under its name, and `cmd ENCODE` is issued (R305, R309). -/
def gifOpen (s : State) : State :=
  match openDraw { s with gif := { s.gif with frameNo := s.gif.frameNo + 1 } } with
  | (false, s') => hostRaise .openFile s'
  | (true, s') => setPhase .encoding { openOut (some (frameName s')) s' with bus := .wr offCmd 0x03 :: s'.bus }

/-- The pending index after an image (R297). -/
def carryTrns (s : State) : State :=
  match s.cfg.trnsCarry with
  | .carry => s
  | .reset => { s with gif := { s.gif with pendTrns := -1 } }

/-- After `cmd ENCODE` returned (R305): the block's fault becomes the host's, or the file is closed and the image's
terminator is stepped over (R306). -/
def gifAfterEncode (s : State) : State :=
  if s.status.err then hostFail s.errcode s
  else hostAt .tag (hTerm (carryTrns (closeOut s)))

/-! ### The instructions: top-level tags -/

/-- GIF.TRAILER (R289): the run ends with success. -/
def execGifTrailer (s : State) : Host.Outcome State Fault Refusal :=
  .next (hostAt .finished (Res.bind (hRead 1 s) (fun _ s' => .ok () s')))

/-- GIF.EXT (R292): the introducer is consumed; the sub-type byte comes next. -/
def execGifExt (s : State) : Host.Outcome State Fault Refusal :=
  .next (hostAt .ext (Res.bind (hRead 1 s) (fun _ s' => .ok () s')))

/-- The descriptor's unused fields are recorded (R304, R303). -/
def setDescriptor (d : List Byte) (s : State) : State :=
  { s with gif := { s.gif with
      imgLeft := le16 (byteAt d 0) (byteAt d 1)
      imgTop := le16 (byteAt d 2) (byteAt d 3)
      imgFlags := byteAt d 8 } }

/-- The local palette, if the descriptor's flag is set (R304). -/
def localPalette (flags : Byte) (s : State) : Res (Option (List Rgb)) :=
  if flags.getLsbD 7 then Res.bind (readPalette (palEntries flags) s) (fun p s' => .ok (some p) s')
  else .ok none s

/-- The frame's dimensions are written and `cmd DECODE` is issued, with the active palette bound (R305). -/
def startDecode (d : List Byte) (active : List Rgb) (s : State) : State :=
  setPhase (.decoding active)
    { s with bus :=
        [.wr offWidth ((le16 (byteAt d 4) (byteAt d 5)).setWidth 32),
         .wr offHeight ((le16 (byteAt d 6) (byteAt d 7)).setWidth 32),
         .wr offCmd 0x02] ++ s.bus }

/-- Palette resolution: local, else global, else a fault (R300). -/
def activePalette (loc glob : Option (List Rgb)) : Option (List Rgb) :=
  match loc with
  | some p => some p
  | none => glob

/-- `GIF.IMG` up to `cmd DECODE` (R304, R300, R305). -/
def gifImage (s : State) : Res Unit :=
  Res.bind (hRead 1 s) (fun _ s1 =>
    Res.bind (hRead 9 s1) (fun d s2 =>
      Res.bind (localPalette (byteAt d 8) (setDescriptor d s2)) (fun loc s3 =>
        match activePalette loc s3.gif.gPal with
        | none => .raised .noPalette s3
        | some active => .ok () (startDecode d active s3))))

/-- GIF.IMG (R304, R300, R305). -/
def execGifImg (s : State) : Host.Outcome State Fault Refusal :=
  .next (hostEnd (gifImage s))

/-- GIF.BADTAG (R290): the byte is not consumed. -/
def execGifBadtag (_t : Byte) (s : State) : Host.Outcome State Fault Refusal := .next (hostRaise .badTag s)

/-! ### The instructions: extension sub-types. The sub-type byte has been consumed. -/

/-- The graphics control block's four bytes (R295, R296). -/
def setControl (g : List Byte) (s : State) : State :=
  { s with gif := { s.gif with
      pendInput := (byteAt g 0).getLsbD 1
      pendDisp := (byteAt g 0).extractLsb' 2 3
      pendDelay := le16 (byteAt g 1) (byteAt g 2)
      pendTrns := if (byteAt g 0).getLsbD 0 then ((byteAt g 3).toNat : Int) else -1 } }

/-- EXT.GCE (R295). -/
def execExtGce (s : State) : Host.Outcome State Fault Refusal :=
  .next (hostAt .tag (Res.bind (hRead 1 s) (fun _ s1 =>
    Res.bind (hRead 4 s1) (fun g s2 =>
      match s2.cfg.extTerm with
      | .consume => hTerm (setControl g s2)
      | .literal => .ok () (setControl g s2)))))

/-- A fixed block behind its length byte, then the variable data (R299, R301). -/
def skipFixed (n : Nat) (s : State) : Res Unit :=
  Res.bind (hRead 1 s) (fun _ s1 => Res.bind (hRead n s1) (fun _ s2 => hSkipVar s2))

/-- EXT.PTE (R299). -/
def execExtPte (s : State) : Host.Outcome State Fault Refusal := .next (hostAt .tag (skipFixed 12 s))

/-- EXT.APP (R301). -/
def execExtApp (s : State) : Host.Outcome State Fault Refusal := .next (hostAt .tag (skipFixed 11 s))

/-- EXT.COM (R302). -/
def execExtCom (s : State) : Host.Outcome State Fault Refusal := .next (hostAt .tag (hSkipVar s))

/-- EXT.BAD (R294). -/
def execExtBad (_k : Byte) (s : State) : Host.Outcome State Fault Refusal := .next (hostRaise .badExt s)

end Sys2Proof.Machine
end

