-- ==== Sys2Proof/Machine/Lzd.lean ====
section
/-! DEFINITION. LZD, the LZW decompressor, and the instructions LZW.SIZE to LZW.ILL (spec/41_lzw.md). -/

namespace Sys2Proof.Machine

/-- `Str(c)` (R158), by recursion on fuel: every prefix is a smaller code, so `c + 1` steps are enough. -/
def strAux (s : State) : Nat → Code → Option (List Byte)
  | 0, _ => none
  | k + 1, c =>
    if c.toNat < s.lzd.clear then some [c.setWidth 8]
    else
      match dictCell s c.toNat with
      | none => none
      | some e => (strAux s k e.pre).map (fun p => p ++ [e.suf])

/-- The string of a code, if it has one (R158). -/
def strCode (s : State) (c : Code) : Option (List Byte) := strAux s (c.toNat + 1) c

/-- `LZD.EMIT(s)`: never past the target (R165). -/
def lzdEmit (str : List Byte) (s : State) : State :=
  { s with
    fb := Memory.writeList s.fb s.lzd.outcnt (str.take (min str.length (s.lzd.target - s.lzd.outcnt)))
    lzd := { s.lzd with outcnt := s.lzd.outcnt + min str.length (s.lzd.target - s.lzd.outcnt) } }

/-- `LZD.ADD(k)`: one dictionary entry, and the growth of the code width (R164). -/
def lzdAdd (k : Byte) (s : State) : State :=
  match s.lzd.prev with
  | none => s
  | some p =>
    if s.lzd.next < 4096 then
      { s with
        dict := Memory.write s.dict s.lzd.next { pre := p, suf := k }
        lzd := { s.lzd with
          next := s.lzd.next + 1
          cw := if s.lzd.next + 1 = 2 ^ s.lzd.cw ∧ s.lzd.cw < 12 then s.lzd.cw + 1 else s.lzd.cw } }
    else s

/-- `prev <- code`. -/
def setPrev (c : Code) (s : State) : State := { s with lzd := { s.lzd with prev := some c } }

/-- What the three data classes do once their string is formed: emit, add, remember (R159, R160, R161). -/
def lzdPut (str : List Byte) (first : Byte) (code : Code) (s : State) : State :=
  setPrev code (lzdAdd first (lzdEmit str s))

/-- `LZD.START` once the code-size byte has been read and is legal (R153). -/
def lzdStart (b : Byte) (s : State) : State :=
  dfrOpen { s with
    fbLen := 0
    seq := .lzdRun
    lzd :=
      { n := b.toNat, clear := 2 ^ b.toNat, eoi := 2 ^ b.toNat + 1, cw := b.toNat + 1, next := 2 ^ b.toNat + 2, prev := none,
        bitbuf := 0, bitcnt := 0, outcnt := 0, target := frameSize s } }

/-- The test of `LZD.START` on the code-size byte (R153, R94). -/
def codeSizeLegal (b : Byte) : Bool := decide (2 ≤ b.toNat) && decide (b.toNat ≤ 8)

/-- The registers that classify a code (R95, R152). -/
def lzwCtx (s : State) : LzwCtx :=
  { clear := s.lzd.clear, eoi := s.lzd.eoi, cw := s.lzd.cw, next := s.lzd.next, hasPrev := s.lzd.prev.isSome }

/-- The code in the low bits of the bit buffer: `bitbuf[cw-1:0]` (R156). -/
def codeInBuf (s : State) : Code := BitVec.ofNat 12 (s.lzd.bitbuf % 2 ^ s.lzd.cw)

/-- The code's bits are used up (R156). -/
def dropCode (s : State) : State :=
  { s with lzd := { s.lzd with bitbuf := s.lzd.bitbuf >>> s.lzd.cw, bitcnt := s.lzd.bitcnt - s.lzd.cw } }

/-- A byte of the flat stream goes above the bits already held (R156). -/
def pushByte (b : Byte) (s : State) : State :=
  { s with lzd := { s.lzd with
      bitbuf := s.lzd.bitbuf ||| (b.toNat <<< s.lzd.bitcnt), bitcnt := s.lzd.bitcnt + 8 } }

/-- The answers of `LZD.FETCH`; `noValue` as for the deframer. -/
inductive FetchAns where
  | code (c : Code)
  | noValue
  deriving DecidableEq, Repr

/-- `LZD.FETCH` whole (R156), by recursion on fuel: a code of at most 12 bits needs at most two more bytes, so
three rounds are enough. -/
def lzdFetch : Nat → State → Res FetchAns
  | 0, s => .ok .noValue s
  | k + 1, s =>
    if s.lzd.cw ≤ s.lzd.bitcnt then .ok (.code (codeInBuf s)) (dropCode s)
    else
      match dfrRead 1 s with
      | .ok (.data (b :: _)) s' => lzdFetch k (pushByte b s')
      | .ok (.data []) s' => .ok .noValue s'
      | .ok .eof s' => .raised .sbTerminator s'
      | .ok .noValue s' => .ok .noValue s'
      | .raised c s' => .raised c s'

/-- The end of the run: the loop test of R152 fails. -/
def lzdFinish (s : State) : State := succeed { s with fbLen := BitVec.ofNat 32 s.lzd.target }

/-! ### The instructions -/

/-- LZW.SIZE: `LZD.START` (R153). -/
def execLzwSize (n : Byte) (s : State) : Host.Outcome State Fault Refusal :=
  .next (if codeSizeLegal n = true then lzdStart n s else raiseExc .lzwCodeSize { s with fbLen := 0 })

/-- LZW.SIZE.ILL: `LZD.START` on an illegal byte (R153). -/
def execLzwSizeIll (n : Byte) (s : State) : Host.Outcome State Fault Refusal :=
  .next (if codeSizeLegal n = true then lzdStart n s else raiseExc .lzwCodeSize { s with fbLen := 0 })

/-- LZW.CLR (R157). -/
def execLzwClr (s : State) : Host.Outcome State Fault Refusal :=
  .next { s with lzd := { s.lzd with cw := s.lzd.n + 1, next := s.lzd.clear + 2, prev := none } }

/-- LZW.EOI (R163): it is decoded only while bytes are owed. -/
def execLzwEoi (s : State) : Host.Outcome State Fault Refusal := .next (raiseExc .lzwEoi s)

/-- LZW.LIT (R159). -/
def execLzwLit (code : Code) (s : State) : Host.Outcome State Fault Refusal :=
  .next (lzdPut [code.setWidth 8] (code.setWidth 8) code s)

/-- LZW.REF (R160). -/
def execLzwRef (code : Code) (s : State) : Host.Outcome State Fault Refusal :=
  match strCode s code with
  | some (b :: bs) => .next (lzdPut (b :: bs) b code s)
  | _ => .refused (.dictNoValue code)

/-- LZW.KWK (R161): the previous string plus its own first byte. With no previous code the same value is an impossible code
(R161 (b), R162). -/
def execLzwKwk (code : Code) (s : State) : Host.Outcome State Fault Refusal :=
  match s.lzd.prev with
  | none => .next (raiseExc .lzwCode s)
  | some p =>
    match strCode s p with
    | some (b :: bs) => .next (lzdPut (b :: bs ++ [b]) b code s)
    | _ => .refused (.dictNoValue p)

/-- LZW.ILL (R162). -/
def execLzwIll (_code : Code) (s : State) : Host.Outcome State Fault Refusal := .next (raiseExc .lzwCode s)

end Sys2Proof.Machine
end

