-- ==== Sys2Proof/Machine/Zlib.lean ====
section
/-! DEFINITION. The yardstick decompressor as an agent, and the instructions ZLIB.HDR and DEFL.STORED to DEFL.RSVD: the decoder rules
of spec/44_zlib_deflate.md (R232 to R242), one header at a time. The block never runs it (R234). -/

namespace Sys2Proof.Machine

/-- The deflate part of the stream under test: everything after the two header bytes (R234). -/
def yardData (s : State) : List Byte := s.yard.z.drop 2

/-- The result is known (R234). -/
def yardDone (r : Option (List Byte)) (s : State) : State := { s with yard := { s.yard with st := .result r } }

/-- After a block: the next one, or the trailer if it was the last (R233, R235). -/
def yardAfter (bfinal : Bool) (r : Option (Nat × List Byte)) (s : State) : State :=
  match r with
  | none => yardDone none s
  | some (p, u) =>
    if bfinal then yardDone (zTrailer s.yard.z p u) { s with yard := { s.yard with p := p, u := u } }
    else { s with yard := { s.yard with st := .block, p := p, u := u } }

/-- ZLIB.HDR (R232, R235): a valid header; the deflate stream starts at bit 0 with no data yet. -/
def execZlibHdr (cmf flg : Byte) (s : State) : Host.Outcome State Fault Refusal :=
  .next (if zlibHdrOk cmf flg = true then { s with yard := { s.yard with st := .block, p := 0, u := [] } }
    else yardDone none s)

/-- DEFL.STORED (R238); the position stands after the three header bits. -/
def execDeflStored (bfinal : Bool) (s : State) : Host.Outcome State Fault Refusal :=
  .next (yardAfter bfinal (inflateStored (yardData s) s.yard.p s.yard.u) s)

/-- DEFL.FIXED (R240, R242). -/
def execDeflFixed (bfinal : Bool) (s : State) : Host.Outcome State Fault Refusal :=
  .next (yardAfter bfinal (inflateFixed (yardData s) s.yard.p s.yard.u) s)

/-- DEFL.DYN (R241, R242). -/
def execDeflDyn (bfinal : Bool) (s : State) : Host.Outcome State Fault Refusal :=
  .next (yardAfter bfinal (inflateDyn (yardData s) s.yard.p s.yard.u) s)

/-- DEFL.RSVD (R237): the stream is invalid. -/
def execDeflRsvd (_bfinal : Bool) (s : State) : Host.Outcome State Fault Refusal := .next (yardDone none s)

end Sys2Proof.Machine
end

