-- ==== Sys2Proof/Machine/Dispatch.lean ====
section
/-! DEFINITION. One arm per instruction. -/

namespace Sys2Proof.Machine

def exec (i : Instr) (s : State) : Host.Outcome State Fault Refusal :=
  match i with
  | .sbTerm => Sys2Proof.Machine.execSbTerm s
  | .sbData len => Sys2Proof.Machine.execSbData len s
  | .lzwSize n => Sys2Proof.Machine.execLzwSize n s
  | .lzwSizeIll n => Sys2Proof.Machine.execLzwSizeIll n s
  | .lzwClr => Sys2Proof.Machine.execLzwClr s
  | .lzwEoi => Sys2Proof.Machine.execLzwEoi s
  | .lzwLit code => Sys2Proof.Machine.execLzwLit code s
  | .lzwRef code => Sys2Proof.Machine.execLzwRef code s
  | .lzwKwk code => Sys2Proof.Machine.execLzwKwk code s
  | .lzwIll code => Sys2Proof.Machine.execLzwIll code s
  | .cmdReset => Sys2Proof.Machine.execCmdReset s
  | .cmdDecode => Sys2Proof.Machine.execCmdDecode s
  | .cmdEncode => Sys2Proof.Machine.execCmdEncode s
  | .cmdRsvd c => Sys2Proof.Machine.execCmdRsvd c s
  | .pngSig => Sys2Proof.Machine.execPngSig s
  | .pngIhdr => Sys2Proof.Machine.execPngIhdr s
  | .pngPlte => Sys2Proof.Machine.execPngPlte s
  | .pngTrns => Sys2Proof.Machine.execPngTrns s
  | .pngIdat => Sys2Proof.Machine.execPngIdat s
  | .pngIend => Sys2Proof.Machine.execPngIend s
  | .zlibHdr cmf flg => Sys2Proof.Machine.execZlibHdr cmf flg s
  | .deflStored bfinal => Sys2Proof.Machine.execDeflStored bfinal s
  | .deflFixed bfinal => Sys2Proof.Machine.execDeflFixed bfinal s
  | .deflDyn bfinal => Sys2Proof.Machine.execDeflDyn bfinal s
  | .deflRsvd bfinal => Sys2Proof.Machine.execDeflRsvd bfinal s
  | .gifTrailer => Sys2Proof.Machine.execGifTrailer s
  | .gifExt => Sys2Proof.Machine.execGifExt s
  | .gifImg => Sys2Proof.Machine.execGifImg s
  | .gifBadtag t => Sys2Proof.Machine.execGifBadtag t s
  | .extGce => Sys2Proof.Machine.execExtGce s
  | .extPte => Sys2Proof.Machine.execExtPte s
  | .extApp => Sys2Proof.Machine.execExtApp s
  | .extCom => Sys2Proof.Machine.execExtCom s
  | .extBad k => Sys2Proof.Machine.execExtBad k s

end Sys2Proof.Machine
end

