-- ==== Sys2Proof/Machine/Fetch.lean ====
section
/-! DEFINITION. What the machine does next: which agent moves, and which token it takes (spec/30_encoding.md R90; spec/45_commands.md
R270, R271, R275). One step takes one token, or one action of the host, or one of the moves between tokens. The order of the
agents is notes/assumptions/1.md. -/

namespace Sys2Proof.Machine

/-- What a step is about to do: run an instruction in a state, or move on by itself, or stop. -/
inductive Fetched where
  | token (i : Instr) (s : State)
  | micro (s : State)
  | fault (f : Fault)
  | refuse (r : Refusal)
  deriving DecidableEq, Repr

/-! ### The yardstick decompressor (R234, R235) -/

/-- The two header bytes; a string of fewer than 6 bytes, or a header that is not valid, is `invalid`. -/
def fetchZhdr (s : State) : Fetched :=
  if s.yard.z.length < 6 then .micro (yardDone none s)
  else
    match decodeZhdr (byteAt s.yard.z 0) (byteAt s.yard.z 1) with
    | .ok i => .token i s
    | .error _ => .micro (yardDone none s)

/-- The three header bits of a block; a bit beyond the end is `invalid`. -/
def fetchDblk (s : State) : Fetched :=
  match bitsAt (yardData s) s.yard.p 3 with
  | some bits => .token (decodeDblk bits) { s with yard := { s.yard with p := s.yard.p + 3 } }
  | none => .micro (yardDone none s)

/-! ### The block, in a phase of `DECODE` -/

/-- Phase `LZD_SIZE`: the code-size byte, read from `IN` directly (R153). -/
def fetchSize (s : State) : Fetched :=
  match inRead { s with fbLen := 0 } with
  | (.fail, s') => .micro (raiseExc .inRead s')
  | (.eos, s') => .micro (raiseExc .fixedField s')
  | (.byte b, s') => .token (decodeLzwn b) s'

/-- The deframer needs a sub-block: its length byte (R90, R133). -/
def fetchSub (s : State) : Fetched :=
  match dfrLength s with
  | .ok len s' => .token (decodeSb len) s'
  | .raised c s' => .micro (raiseExc c s')

/-- One byte of the flat stream for LZD: `DFR.READ(1)` and the lines after it in R156. -/
def takeByte (s : State) : Fetched :=
  match dfrRead 1 s with
  | .ok (.data (b :: _)) s' => .micro (pushByte b s')
  | .ok (.data []) _ => .refuse .dfrNoValue
  | .ok .noValue _ => .refuse .dfrNoValue
  | .ok .eof s' => .micro (raiseExc .sbTerminator s')
  | .raised c s' => .micro (raiseExc c s')

/-- The deframer's buffer is used up and a sub-block is due (R132). -/
def needsSub (s : State) : Bool := s.dfr.st == .active && s.dfr.pos == s.dfr.len

/-- Phase `LZD_RUN` (R152, R156): the loop test; then a code if its bits are there; else a sub-block or a byte. -/
def fetchRun (s : State) : Fetched :=
  if s.lzd.target ≤ s.lzd.outcnt then .micro (lzdFinish s)
  else if s.lzd.cw ≤ s.lzd.bitcnt then .token (decodeLzwc (lzwCtx s) (codeInBuf s)) (dropCode s)
  else if needsSub s then fetchSub s
  else takeByte s

/-! ### The host's actions (R21, R41, R60, R270) -/

/-- A host action, already taken from the list. A write to `CMD` is a command (R22, R270); bits above bit 7 are ignored. R309 lets an
opening fail for the container parser, and no rule says whether a sink that the register bank's own caller opens can fail to open: here
`openOut` always succeeds and uses up no answer of the environment. DESIGN CHOICE (notes/assumptions/16.md). -/
def fetchBus (a : HostAct) (s : State) : Fetched :=
  match a with
  | .wr off v =>
    if off = offCmd then .token (decodeCmd (v.setWidth 8)) s
    else
      match busWrite off v s with
      | .ok s' => .micro s'
      | .error f => .fault f
  | .rd off =>
    match busRead off s with
    | .value v => .micro { s with busRd := some v }
    | .fault f => .fault f
    | .refused r => .refuse r
  | .fbRd i =>
    match fbCell s i with
    | some b => .micro { s with busRd := some (b.setWidth 32) }
    | none => .refuse .fbNoValue
  | .openOut => .micro (openOut none s)
  | .closeOut => .micro (closeOut s)
  | .inTake =>
    match inRead s with
    | (.byte b, s') => .micro { s' with busRd := some (b.setWidth 32) }
    | (_, s') => .micro { s' with busRd := none }
  | .gifRun base => .micro (gifStart base s)
  | .unzip z => .micro { s with yard := { st := .header, z := z, p := 0, u := [] } }

/-! ### The container parser (R289, R292, R305) -/

/-- At top level: the tag byte, peeked (R289, R291). A peek that answers `FAIL` or `END` uses up no answer of the environment either:
DESIGN CHOICE (notes/assumptions/7.md). -/
def fetchTag (s : State) : Fetched :=
  match inPeek s with
  | .fail => .micro (hostRaise .inRead s)
  | .eos => .micro (hostRaise .fixedField s)
  | .byte t => .token (decodeTag t) s

/-- After the extension introducer: the sub-type byte, consumed (R292, R294). -/
def fetchExt (s : State) : Fetched :=
  match hRead 1 s with
  | .ok bs s' => .token (decodeExt (byteAt bs 0)) s'
  | .raised c s' => .micro (hostRaise c s')

/-- The host, when the block is not busy and no action is pending. Before it is started and after it has ended the machine
waits: nothing changes. -/
def fetchGif (s : State) : Fetched :=
  match s.gif.phase with
  | .off => .micro s
  | .finished => .micro s
  | .failed _ => .micro s
  | .header => .micro (hostAt .tag (gifHeader s))
  | .tag => fetchTag s
  | .ext => fetchExt s
  | .decoding active => .micro (gifAfterDecode active s)
  | .opening => .micro (gifOpen s)
  | .encoding => .micro (gifAfterEncode s)

/-- Between commands: the oldest pending host action, else the container parser. -/
def fetchIdle (s : State) : Fetched :=
  match s.bus with
  | a :: rest => fetchBus a { s with bus := rest }
  | [] => fetchGif s

/-- The block's phase decides what comes next (R90, R275). -/
def fetchBlock (s : State) : Fetched :=
  match s.seq with
  | .idle => fetchIdle s
  | .fault => fetchIdle s
  | .lzdSize => fetchSize s
  | .lzdRun => fetchRun s
  | .serSig => .token .pngSig s
  | .serIhdr => .token .pngIhdr s
  | .serPlte => .token .pngPlte s
  | .serTrns => .token .pngTrns s
  | .serIdat => .token .pngIdat s
  | .serIend => .token .pngIend s

/-- What the machine does next: the yardstick first if it is running, else the block and its host. -/
def fetch (s : State) : Fetched :=
  match s.yard.st with
  | .header => fetchZhdr s
  | .block => fetchDblk s
  | .off => fetchBlock s
  | .result _ => fetchBlock s

/-- A step from what was fetched. -/
def runFetched : Fetched → Host.Outcome State Fault Refusal
  | .token i s => exec i s
  | .micro s => .next s
  | .fault f => .fault f
  | .refuse r => .refused r

/-! ### Hardware reset (R350, R275) -/

/-- The outcome, with the reset input as given. -/
def withPin (p : List Nat) : Host.Outcome State Fault Refusal → Host.Outcome State Fault Refusal
  | .next s => .next { s with pin := p }
  | .fault f => .fault f
  | .refused r => .refused r

/-- What happens in a step. The reset input comes first: a reset that is due strikes in whatever phase the block is (R275, row `any`);
one still to come is counted down while the agents move, which cannot see it. That it may strike while a command runs, and
between any two steps of it, is a DESIGN CHOICE (notes/assumptions/22.md). -/
def advance (s : State) : Host.Outcome State Fault Refusal :=
  match s.pin with
  | [] => runFetched (fetch s)
  | 0 :: rest => .next { blockReset s with pin := rest }
  | (n + 1) :: rest => withPin (n :: rest) (runFetched (fetch { s with pin := [] }))

/-! ### Placing a token where the next step takes it (notes/assumptions/14.md) -/

/-- `bytes` stand next in `IN`, followed by zeros, and no read of them fails. -/
def placeIn (bytes : List Byte) (s : State) : State :=
  { s with env := { s.env with
      inData := List.replicate s.env.inPos 0 ++ bytes ++ List.replicate 1024 0, inFails := [] } }

/-- The yardstick is not running, the block is not busy and no host action is pending. -/
def placeIdle (s : State) : State :=
  { s with yard := { s.yard with st := .off }, bus := [], seq := if busy s then .idle else s.seq }

/-- The decompressor has the registers `tableCtx` names and owes a byte. -/
def placeLzd (bitbuf bitcnt : Nat) (s : State) : State :=
  { s with
    seq := .lzdRun
    dict := [(6, { pre := 0, suf := 0 })]
    lzd :=
      { n := 2, clear := tableCtx.clear, eoi := tableCtx.eoi, cw := tableCtx.cw, next := tableCtx.next, prev := some 0,
        bitbuf := bitbuf, bitcnt := bitcnt, outcnt := 0, target := 1 } }

/-- The serializer's phase of a chunk instruction. -/
def serPhase : Instr → Seq
  | .pngSig => .serSig
  | .pngIhdr => .serIhdr
  | .pngPlte => .serPlte
  | .pngTrns => .serTrns
  | .pngIdat => .serIdat
  | _ => .serIend

/-- The machine is in the phase that takes a token of format `f`, with the bytes of the token next. -/
def placeToken (f : Format) (bytes : List Byte) (s : State) : State :=
  match f with
  | .cmd => { placeIdle s with bus := [.wr offCmd ((byteAt bytes 0).setWidth 32)] }
  | .sb => dfrOpen (placeLzd 0 0 (placeIn bytes (placeIdle s)))
  | .lzwn => { placeIn bytes (placeIdle s) with seq := .lzdSize }
  | .lzwc => placeLzd (((byteAt bytes 0).toNat + 256 * (byteAt bytes 1).toNat) % 2 ^ 12) 12 (placeIdle s)
  | .sig => { placeIdle s with seq := .serSig }
  | .chunk =>
    match decode .chunk tableCtx bytes with
    | .ok (i, _) => { placeIdle s with seq := serPhase i }
    | .error _ => placeIdle s
  | .zhdr => { s with yard := { st := .header, z := bytes ++ List.replicate 1024 0, p := 0, u := [] } }
  | .dblk => { s with yard := { st := .block, z := [0, 0] ++ bytes ++ List.replicate 1024 0, p := 0, u := [] } }
  | .gtag => setPhase .tag (placeIn bytes (placeIdle s))
  | .gext => setPhase .ext (placeIn bytes (placeIdle s))

/-- The machine is ready to take a table word as its next token. -/
def placeTableWord (nbits w : Nat) (s : State) : State :=
  placeToken (tableReading nbits w).1 (tableReading nbits w).2 { s with pin := [] }

end Sys2Proof.Machine
end

