-- ==== Sys2Proof/Safety.lean ====
section
/-! DEFINITION. What counts as a sound state: the relations between fields of the state that the spec's rules keep. Claims are stated
in these terms. No run from reset leaves them; a state that breaks one is reached by no run. -/

namespace Sys2Proof.Machine

/-- `DONE` and `ERR` are never both 1, `seq = FAULT` exactly when `ERR = 1`, `ERRCODE` is 0x00 while `ERR = 0` and not
otherwise, and `DONE` is 0 while a command runs (R23, R25, R275). -/
def StatusAgrees (s : State) : Prop :=
  ¬ (s.status.done = true ∧ s.status.err = true) ∧ (s.seq = .fault ↔ s.status.err = true) ∧
  (s.errcode = 0 ↔ s.status.err = false) ∧ (busy s = true → s.status.done = false)

/-- `dfr.pos <= dfr.len`, and at most one sub-block is buffered (R31, R139). -/
def DfrBounded (s : State) : Prop := s.dfr.pos ≤ s.dfr.len ∧ s.dfr.len ≤ 255

/-- While the deframer is active the cells below `dfr.len` hold the sub-block (R44). -/
def DfrFilled (s : State) : Prop :=
  s.dfr.st = .active → ∀ i, i < s.dfr.len → (Memory.read s.dfrbuf i).isSome = true

/-- The ranges of the decompressor's registers while it runs (R32, R164 (d)). -/
def LzdRanges (s : State) : Prop :=
  2 ≤ s.lzd.n ∧ s.lzd.n ≤ 8 ∧ s.lzd.clear = 2 ^ s.lzd.n ∧ s.lzd.eoi = s.lzd.clear + 1 ∧
  s.lzd.n + 1 ≤ s.lzd.cw ∧ s.lzd.cw ≤ 12 ∧ s.lzd.clear + 2 ≤ s.lzd.next ∧
  (s.lzd.next < 2 ^ s.lzd.cw ∨ (s.lzd.cw = 12 ∧ s.lzd.next = 4096)) ∧
  s.lzd.bitcnt ≤ 19 ∧ s.lzd.bitbuf < 2 ^ s.lzd.bitcnt ∧ s.lzd.outcnt ≤ s.lzd.target ∧ s.lzd.target = frameSize s

/-- A code that is a literal or names an entry below `bound`: what `prev` and an entry's prefix may be (R32, R43). -/
def DataCode (s : State) (bound : Nat) (c : Code) : Prop :=
  c.toNat < bound ∧ c.toNat ≠ s.lzd.clear ∧ c.toNat ≠ s.lzd.eoi

/-- `prev` is `NONE` only with an empty dictionary (R162), and otherwise a code that has a string (R32). -/
def LzdPrev (s : State) : Prop :=
  match s.lzd.prev with
  | none => s.lzd.next = s.lzd.clear + 2
  | some p => DataCode s s.lzd.next p

/-- Every code from `clear + 2` below `next` has an entry, whose prefix is a smaller data code (R43, R158). -/
def DictSound (s : State) : Prop :=
  ∀ c, s.lzd.clear + 2 ≤ c → c < s.lzd.next → ∃ e, Memory.read s.dict c = some e ∧ DataCode s c e.pre

/-- All of this holds while `DECODE` runs through its codes. -/
def LzdSound (s : State) : Prop := s.seq = .lzdRun → LzdRanges s ∧ LzdPrev s ∧ DictSound s

/-- The frame being decoded fits the frame buffer (R273). -/
def CapSound (s : State) : Prop := s.seq = .lzdSize ∨ s.seq = .lzdRun → frameSize s ≤ fbCap s

/-- The cells below `FB_LEN` hold values; while a frame is decoded `FB_LEN` is 0 and the cells written so far hold values
(R28, R41). -/
def FrameSound (s : State) : Prop :=
  (∀ i, i < s.fbLen.toNat → (Memory.read s.fb i).isSome = true) ∧
  (s.seq = .lzdRun → s.fbLen = 0 ∧ ∀ i, i < s.lzd.outcnt → (Memory.read s.fb i).isSome = true)

/-- The block is in one of the phases of `ENCODE` (R275). -/
def encoding (s : State) : Bool :=
  match s.seq with
  | .serSig | .serIhdr | .serPlte | .serTrns | .serIdat | .serIend => true
  | _ => false

/-- The preconditions of `ENCODE` still hold while it runs (R191, R274). -/
def SerSound (s : State) : Prop :=
  encoding s = true →
    palNLegal s.palN = true ∧ palWritten s s.palN.toNat = true ∧ s.trns.toInt ≤ 255 ∧ s.fbLen.toNat = frameSize s

/-- The four memories are in canonical form and inside their spaces (R40). -/
def MemoriesCanonical (s : State) : Prop :=
  Memory.wf s.fb = true ∧ Memory.wf s.pal = true ∧ Memory.wf s.dict = true ∧ Memory.wf s.dfrbuf = true ∧
  Memory.below (fbCap s) s.fb = true ∧ Memory.below 256 s.pal = true ∧ Memory.below 4096 s.dict = true ∧
  Memory.below 255 s.dfrbuf = true

/-- A sound state. -/
structure Sound (s : State) : Prop where
  status : StatusAgrees s
  dfrBounded : DfrBounded s
  dfrFilled : DfrFilled s
  lzd : LzdSound s
  cap : CapSound s
  frame : FrameSound s
  ser : SerSound s
  memories : MemoriesCanonical s

/-- The block is the agent that moves: the yardstick decompressor is not running (notes/assumptions/1.md). -/
def yardRests (s : State) : Bool :=
  match s.yard.st with
  | .off | .result _ => true
  | .header | .block => false

/-- The block or its host moves in the next step: no reset of the pin is to come and the yardstick is not running
(notes/assumptions/1.md, 22.md). -/
def blockMoves (s : State) : Bool := s.pin.isEmpty && yardRests s

/-- The next `n` calls of `InRead` do not fail and find a byte each. -/
def InReady (n : Nat) (s : State) : Prop :=
  (s.env.inFails.take n).all (fun f => !f) = true ∧ s.env.inPos + n ≤ s.env.inData.length

/-- The state after `n` successful calls of `InRead`. -/
def afterIn (n : Nat) (s : State) : State :=
  { s with env := { s.env with inPos := s.env.inPos + n, inFails := s.env.inFails.drop n } }

/-- The next `n` bytes of `IN`. -/
def nextIn (n : Nat) (s : State) : List Byte := (s.env.inData.drop s.env.inPos).take n

/-- No call of `OutWrite` to come fails. -/
def OutReady (s : State) : Prop := s.env.outFails.all (fun f => !f) = true

/-! ### Sub-block sequences (R92, R117) -/

/-- Format `SB`: each payload behind its length byte, then the terminator (R91, R92). -/
def subSeq : List (List Byte) → List Byte
  | [] => [0x00]
  | p :: ps => BitVec.ofNat 8 p.length :: p ++ subSeq ps

/-- Payloads of 1 to 255 bytes (R91). -/
def payloadsOk (ps : List (List Byte)) : Bool := ps.all (fun p => decide (1 ≤ p.length) && decide (p.length ≤ 255))

/-- A series of read requests until one answers `EOF`: the bytes delivered, and whether `EOF` came (R137). -/
def dfrReads : List Nat → State → Res (List Byte × Bool)
  | [], s => .ok ([], false) s
  | n :: ns, s =>
    match dfrRead n s with
    | .ok (.data bs) s' => Res.bind (dfrReads ns s') (fun r s'' => .ok (bs ++ r.1, r.2) s'')
    | .ok .eof s' => .ok ([], true) s'
    | .ok .noValue s' => .ok ([], false) s'
    | .raised c s' => .raised c s'

/-! ### Codes and bits (R65, R96) -/

/-- The number whose little-endian bytes are `bs`: flat byte `k` gives the stream bits from `8 × k` on (R65). -/
def leValue : List Byte → Nat
  | [] => 0
  | b :: bs => b.toNat + 256 * leValue bs

/-- The number whose binary digits are the stream bits from `p` on, `L` of them, the first one most significant (R236, R239). -/
def codeAt (d : List Byte) (p : Nat) : Nat → Option Nat
  | 0 => some 0
  | L + 1 =>
    match codeAt d p L, bitAt d (p + L) with
    | some c, some b => some (2 * c + b)
    | _, _ => none

/-- How many words of 15 bits begin with a code of these lengths, each word counted once for each such code: 2^15 exactly when a code
is complete, fewer when it is incomplete, more when it is over-subscribed (U33). -/
def kraftSum (lens : List Nat) : Nat := (lens.map (fun l => if 1 ≤ l ∧ l ≤ 15 then 2 ^ (15 - l) else 0)).sum

/-! ### The file (R104, R190) -/

/-- The bytes of the file: signature, header, palette, transparency when `TRNS >= 0`, pixel data, trailer (R190). -/
def pngFile (s : State) (plte z : List Byte) : List Byte :=
  sigBytes ++ chunkBytes tagIHDR (ihdrPayload s) ++ chunkBytes tagPLTE plte ++
    (if trnsPresent s then chunkBytes tagTRNS (trnsPayload s.trns.toNat) else []) ++
    chunkBytes tagIDAT z ++ chunkBytes tagIEND []

/-- The writes of a phase that succeed before the first failure, which comes after `j` of them (R63, R208). -/
def FirstFailure (j : Nat) (s : State) : Prop :=
  (s.env.outFails.take j).all (fun f => !f) = true ∧ s.env.outFails[j]? = some true

/-- What a phase of the serializer writes (R190), as far as its operands have values. -/
def serPart (s : State) : Instr → Option (List Byte)
  | .pngSig => some sigBytes
  | .pngIhdr => some (chunkBytes tagIHDR (ihdrPayload s))
  | .pngPlte => (pltePayload s 0 s.palN.toNat).map (chunkBytes tagPLTE)
  | .pngTrns => some (if trnsPresent s then chunkBytes tagTRNS (trnsPayload s.trns.toNat) else [])
  | .pngIdat => (serFilt s).map (fun raw => chunkBytes tagIDAT (zCompress s.cfg.compressor raw))
  | .pngIend => some (chunkBytes tagIEND [])
  | _ => none

/-- The phase after a phase of the serializer (R275). -/
def serAfter (s : State) : Instr → Seq
  | .pngSig => .serIhdr
  | .pngIhdr => .serPlte
  | .pngPlte => afterPlte s
  | .pngTrns => .serIdat
  | .pngIdat => .serIend
  | _ => .idle

/-! ### What the data codes do (R164, R165) -/

/-- How many bytes of a string fit before the target (R165). -/
def emitCount (str : List Byte) (s : State) : Nat := min str.length (s.lzd.target - s.lzd.outcnt)

/-- From `s` to `t` the string was written behind the bytes so far, cut at the target, and no other cell of `FB` changed. -/
def Emitted (str : List Byte) (s t : State) : Prop :=
  t.lzd.outcnt = s.lzd.outcnt + emitCount str s ∧
  (∀ k, k < emitCount str s → Memory.read t.fb (s.lzd.outcnt + k) = str[k]?) ∧
  (∀ a, a < s.lzd.outcnt ∨ s.lzd.outcnt + emitCount str s ≤ a → Memory.read t.fb a = Memory.read s.fb a)

/-- From `s` to `t` the dictionary got the entry `(prev, first)` if there was a previous code and room, the width grew if `next`
reached `1 << cw`, and no other cell of `DICT` changed. -/
def Extended (first : Byte) (s t : State) : Prop :=
  match s.lzd.prev with
  | none => t.dict = s.dict ∧ t.lzd.next = s.lzd.next ∧ t.lzd.cw = s.lzd.cw
  | some p =>
    if s.lzd.next < 4096 then
      Memory.read t.dict s.lzd.next = some { pre := p, suf := first } ∧
      (∀ a, a ≠ s.lzd.next → Memory.read t.dict a = Memory.read s.dict a) ∧
      t.lzd.next = s.lzd.next + 1 ∧
      t.lzd.cw = if s.lzd.next + 1 = 2 ^ s.lzd.cw ∧ s.lzd.cw < 12 then s.lzd.cw + 1 else s.lzd.cw
    else t.dict = s.dict ∧ t.lzd.next = s.lzd.next ∧ t.lzd.cw = s.lzd.cw

/-- The frame of a data code: nothing but `FB`, `DICT`, `outcnt`, `next`, `cw`, `prev` changes, and `prev` is the code. -/
def DataFrame (code : Code) (s t : State) : Prop :=
  t = { s with
    fb := t.fb
    dict := t.dict
    lzd := { s.lzd with outcnt := t.lzd.outcnt, next := t.lzd.next, cw := t.lzd.cw, prev := some code } }

/-! ### The sequencer (R275) -/

/-- A reset of the pin is due (notes/assumptions/22.md). -/
def pinStrikes (s : State) : Prop := ∃ rest, s.pin = 0 :: rest

/-- A transition of the table of R275, from the phase of `s` to the phase of `t`, with what the table says comes with it; the first
row, reset, by the pin in any phase; by the command, which is dispatched between commands, from `FAULT`. -/
def SeqEdge (s t : State) : Prop :=
  (pinStrikes s ∧ t.seq = .idle ∧ t.status = { done := false, err := false }) ∨
  match s.seq, t.seq with
  | .idle, .lzdSize => True
  | .lzdSize, .lzdRun => True
  | .lzdRun, .idle => t.status.done = true ∧ s.lzd.target ≤ s.lzd.outcnt
  | .idle, .serSig => True
  | .serSig, .serIhdr => True
  | .serIhdr, .serPlte => True
  | .serPlte, .serTrns => 0 ≤ s.trns.toInt
  | .serPlte, .serIdat => s.trns.toInt < 0
  | .serTrns, .serIdat => True
  | .serIdat, .serIend => True
  | .serIend, .idle => t.status.done = true
  | .fault, .idle => t.status.err = false
  | .fault, .fault => True
  | _, .fault => t.status.err = true
  | _, _ => False

/-- The instructions the block runs from its own phases and from the command register (units DFR, LZD, SER, CMD of the table). -/
def blockInstr : Instr → Bool
  | .sbTerm | .sbData _ | .lzwSize _ | .lzwSizeIll _ | .lzwClr | .lzwEoi | .lzwLit _ | .lzwRef _ | .lzwKwk _ | .lzwIll _
  | .cmdReset | .cmdDecode | .cmdEncode | .cmdRsvd _ | .pngSig | .pngIhdr | .pngPlte | .pngTrns | .pngIdat | .pngIend => true
  | _ => false

/-- The instructions of the container parser (unit HOST of the table). -/
def hostInstr : Instr → Bool
  | .gifTrailer | .gifExt | .gifImg | .gifBadtag _ | .extGce | .extPte | .extApp | .extCom | .extBad _ => true
  | _ => false

/-- The headers inside the compressed payload, read by the yardstick decompressor alone. -/
def yardInstr : Instr → Bool
  | .zlibHdr _ _ | .deflStored _ | .deflFixed _ | .deflDyn _ | .deflRsvd _ => true
  | _ => false

/-- The instructions of a running `DECODE`. -/
def decodeInstr : Instr → Bool
  | .sbTerm | .sbData _ | .lzwSize _ | .lzwSizeIll _ | .lzwClr | .lzwEoi | .lzwLit _ | .lzwRef _ | .lzwKwk _ | .lzwIll _ => true
  | _ => false

/-- The instructions of a running `ENCODE`. -/
def encodeInstr : Instr → Bool
  | .pngSig | .pngIhdr | .pngPlte | .pngTrns | .pngIdat | .pngIend => true
  | _ => false

end Sys2Proof.Machine
end

