-- ==== Sys2Proof/Certificates/Slice0/Obligations.lean ====
section
/-! DEFINITION. What is to be proved of the machine. -/

open Sys2Proof Sys2Proof.Machine

/-! ### Encodings -/

/-- Decoding the words of a well-formed instruction gives it back, with every operand (R91 to R113, R116). -/
def Obligations.DecodeOfEncodeIsTheInstruction : Prop :=
  ∀ (c : LzwCtx) (i : Instr) (rest : List Byte), c.ok = true → i.wf c = true →
    decode (formatOf i) c (encode c i ++ rest) = .ok (i, rest)

/-- What a decoder answers is well-formed, belongs to the decoder's format, and took at least one byte (R116). -/
def Obligations.DecodedInstructionIsWellFormed : Prop :=
  ∀ (f : Format) (c : LzwCtx) (bytes rest : List Byte) (i : Instr), c.ok = true →
    decode f c bytes = .ok (i, rest) →
      i.wf c = true ∧ formatOf i = f ∧ ∃ used, used ≠ [] ∧ bytes = used ++ rest

/-- Words written out from the format tables decode to their rows (R91, R94, R98, R100, R101, R107, R112). -/
def Obligations.WordsOfTheTablesDecode : Prop :=
  decode .sb tableCtx [0x00] = .ok (.sbTerm, []) ∧ decode .sb tableCtx [0xFF] = .ok (.sbData 0xFF, []) ∧
  decode .lzwn tableCtx [0x08] = .ok (.lzwSize 0x08, []) ∧ decode .lzwn tableCtx [0x09] = .ok (.lzwSizeIll 0x09, []) ∧
  decode .lzwc tableCtx [0x04, 0x00] = .ok (.lzwClr, []) ∧ decode .lzwc tableCtx [0x07, 0x00] = .ok (.lzwKwk 7, []) ∧
  decode .cmd tableCtx [0x02] = .ok (.cmdDecode, []) ∧ decode .sig tableCtx sigBytes = .ok (.pngSig, []) ∧
  decode .chunk tableCtx [0, 0, 0, 0, 0x49, 0x45, 0x4E, 0x44, 0xAE, 0x42, 0x60, 0x82] = .ok (.pngIend, []) ∧
  decode .zhdr tableCtx [0x78, 0xDA] = .ok (.zlibHdr 0x78 0xDA, []) ∧
  decode .dblk tableCtx [0x01] = .ok (.deflStored true, []) ∧ decode .gtag tableCtx [0x2C] = .ok (.gifImg, []) ∧
  decode .gext tableCtx [0xF9] = .ok (.extGce, [])

/-! ### A step runs the decoded instruction -/

/-- A pending write to `CMD`, taken while no command runs, is run as the instruction its low byte decodes to (R22, R270). -/
def Obligations.WrittenCommandIsRun : Prop :=
  ∀ (s : State) (v : Word) (rest : List HostAct), blockMoves s = true → busy s = false →
    s.bus = .wr offCmd v :: rest →
      step s = exec (decodeCmd (v.setWidth 8)) { s with bus := rest }

/-- In `LZD_SIZE` the next byte of `IN` is run as a code-size byte, after `FB_LEN` is set to 0; a failing source is the fault
`IOError(IN_READ)`, code 0x31, and the end of `IN` the fault `TruncatedStreamError(FIXED_FIELD)`, code 0x23 (R62, R90, R153, R321). -/
def Obligations.CodeSizeByteIsRun : Prop :=
  ∀ (s : State) (b : Byte), blockMoves s = true → s.seq = .lzdSize →
    let faulted (code : BitVec 8) := { s with
      fbLen := 0
      env := { s.env with inFails := s.env.inFails.tail }
      status := { done := false, err := true }
      errcode := if s.status.err then s.errcode else code
      seq := .fault }
    (InReady 1 s → s.env.inData[s.env.inPos]? = some b →
      step s = exec (decodeLzwn b) (afterIn 1 { s with fbLen := 0 })) ∧
    (s.env.inFails.headD false = true → step s = .next (faulted 0x31)) ∧
    (s.env.inFails.headD false = false → s.env.inData.length ≤ s.env.inPos → step s = .next (faulted 0x23))

/-- In `LZD_RUN`: the run ends when nothing is owed; a code whose bits are there is run; a byte the deframer holds goes above the bits
held; with none held the next byte of `IN` is run as a sub-block length byte, a failing source being the fault `IN_READ`, code 0x31,
and the end of `IN` the fault `SB_LENGTH`, code 0x21; after a terminator the fault is `SB_TERMINATOR`, code 0x41; a deframer that has
reported truncation reports it again (R62, R90, R132, R133, R152, R156, R321). That each of these is a step is notes/assumptions/1.md;
the cause a failing source leaves in the deframer is notes/assumptions/10.md. -/
def Obligations.RunPhaseTakesCodesAndSubBlocks : Prop :=
  ∀ (s : State) (b : Byte), blockMoves s = true → s.seq = .lzdRun →
    let faulted (code : BitVec 8) (t : State) := { t with
      status := { done := false, err := true }, errcode := if t.status.err then t.errcode else code, seq := .fault }
    let truncated (c : Cause) := { s with
      env := { s.env with inFails := s.env.inFails.tail }, dfr := { s.dfr with st := .trunc c } }
    (s.lzd.target ≤ s.lzd.outcnt →
      step s = .next { s with fbLen := BitVec.ofNat 32 s.lzd.target, seq := .idle, status := { s.status with done := true } }) ∧
    (s.lzd.outcnt < s.lzd.target → s.lzd.cw ≤ s.lzd.bitcnt →
      step s = exec (decodeLzwc (lzwCtx s) (codeInBuf s)) (dropCode s)) ∧
    (s.lzd.outcnt < s.lzd.target → s.lzd.bitcnt < s.lzd.cw →
      (s.dfr.st = .active → s.dfr.pos < s.dfr.len → Memory.read s.dfrbuf s.dfr.pos = some b → step s = .next { s with
        dfr := { s.dfr with pos := s.dfr.pos + 1 }
        lzd := { s.lzd with bitbuf := s.lzd.bitbuf ||| (b.toNat <<< s.lzd.bitcnt), bitcnt := s.lzd.bitcnt + 8 } }) ∧
      (s.dfr.st = .active → s.dfr.pos = s.dfr.len →
        (InReady 1 s → s.env.inData[s.env.inPos]? = some b → step s = exec (decodeSb b) (afterIn 1 s)) ∧
        (s.env.inFails.headD false = true → step s = .next (faulted 0x31 (truncated .inRead))) ∧
        (s.env.inFails.headD false = false → s.env.inData.length ≤ s.env.inPos →
          step s = .next (faulted 0x21 (truncated .sbLength)))) ∧
      (s.dfr.st = .eof → step s = .next (faulted 0x41 s)) ∧
      (s.dfr.st = .trunc .sbLength → step s = .next (faulted 0x21 s)) ∧
      (s.dfr.st = .trunc .sbPayload → step s = .next (faulted 0x22 s)))

/-- In a phase of `ENCODE` the phase's own instruction is run (R190, R275). -/
def Obligations.EncodePhaseRunsItsInstruction : Prop :=
  ∀ (s : State) (i : Instr), blockMoves s = true → encodeInstr i = true → s.seq = serPhase i → step s = exec i s

/-- The container parser runs the tag byte it peeks and the extension sub-type byte it reads. Where either is due, a failing source ends
the run with code 0x31 and the end of `IN` with code 0x23 (R62, R282, R289, R291, R292, R321). That the peek leaves the environment's
answer where it is, whatever it shows, is the model's choice: notes/assumptions/7.md. -/
def Obligations.TagAndSubTypeAreRun : Prop :=
  ∀ (s : State) (b : Byte), blockMoves s = true → busy s = false → s.bus = [] →
    let drawn := { s with env := { s.env with inFails := s.env.inFails.tail } }
    let failed (code : BitVec 8) (t : State) := { t with gif := { t.gif with phase := .failed code } }
    (InReady 1 s → s.env.inData[s.env.inPos]? = some b →
      (s.gif.phase = .tag → step s = exec (decodeTag b) s) ∧
      (s.gif.phase = .ext → step s = exec (decodeExt b) (afterIn 1 s))) ∧
    (s.env.inFails.headD false = true →
      (s.gif.phase = .tag → step s = .next (failed 0x31 s)) ∧ (s.gif.phase = .ext → step s = .next (failed 0x31 drawn))) ∧
    (s.env.inFails.headD false = false → s.env.inData.length ≤ s.env.inPos →
      (s.gif.phase = .tag → step s = .next (failed 0x23 s)) ∧ (s.gif.phase = .ext → step s = .next (failed 0x23 drawn)))

/-- The yardstick runs the header bytes of its stream and the three header bits of each block (R234, R235). -/
def Obligations.StreamHeadersAreRun : Prop :=
  ∀ (s : State) (cmf flg : Byte) (rest : List Byte) (bits : Nat), s.pin = [] →
    (s.yard.st = .header → s.yard.z = cmf :: flg :: rest → 4 ≤ rest.length → zlibHdrOk cmf flg = true →
      step s = exec (.zlibHdr cmf flg) s) ∧
    (s.yard.st = .block → bitsAt (s.yard.z.drop 2) s.yard.p 3 = some bits →
      step s = exec (decodeDblk bits) { s with yard := { s.yard with p := s.yard.p + 3 } })

/-! ### The deframer -/

/-- SB.TERM ends the flat stream and is no fault (R134). SB.DATA fetches its payload whole into the buffer; nothing else changes but
the cursor (R133). -/
def Obligations.SubBlockTokensTakeTheirEffect : Prop :=
  ∀ (s : State) (len : Byte),
    exec .sbTerm s = .next { s with dfr := { len := 0, pos := 0, st := .eof } } ∧
    (InReady len.toNat s → ∃ buf, exec (.sbData len) s =
        .next { afterIn len.toNat s with dfrbuf := buf, dfr := { s.dfr with len := len.toNat, pos := 0 } } ∧
      (∀ i, i < len.toNat → Memory.read buf i = s.env.inData[s.env.inPos + i]?) ∧
      (∀ i, len.toNat ≤ i → Memory.read buf i = Memory.read s.dfrbuf i))

/-- When `IN` ends inside the payload SB.DATA takes the fault `TruncatedStreamError(SB_PAYLOAD)`, code 0x22: the cursor is at the end of
`IN` and the deframer is empty. When the source fails at a payload byte it takes the fault `IOError(IN_READ)`, code 0x31: the cursor
stands at that byte. Either way the `k` bytes read so far stand in the first cells of the buffer, no other cell changed, and the deframer
stays unusable (R62, R133, R138, R321). The cause it keeps is notes/assumptions/10.md. -/
def Obligations.ShortSubBlockIsTruncated : Prop :=
  ∀ (s : State) (len : Byte) (k : Nat), k < len.toNat → (s.env.inFails.take k).all (fun f => !f) = true →
    s.env.inPos + k ≤ s.env.inData.length →
    let holds (buf : Memory Byte) := (∀ i, i < k → Memory.read buf i = s.env.inData[s.env.inPos + i]?) ∧
      (∀ i, k ≤ i → Memory.read buf i = Memory.read s.dfrbuf i)
    let faulted (code : BitVec 8) (d : Dfr) (buf : Memory Byte) := { s with
      env := { s.env with inPos := s.env.inPos + k, inFails := s.env.inFails.drop (k + 1) }
      dfrbuf := buf
      dfr := d
      status := { done := false, err := true }
      errcode := if s.status.err then s.errcode else code
      seq := .fault }
    (s.env.inFails[k]? ≠ some true → s.env.inPos + k = s.env.inData.length → ∃ buf, holds buf ∧
      exec (.sbData len) s = .next (faulted 0x22 { len := 0, pos := 0, st := .trunc .sbPayload } buf)) ∧
    (s.env.inFails[k]? = some true → ∃ buf, holds buf ∧
      exec (.sbData len) s = .next (faulted 0x31 { s.dfr with st := .trunc .inRead } buf))

/-- A series of non-empty read requests delivers the flat stream in order, and answers `EOF` to the first request after its last
byte, with the cursor just after the terminator (R137). -/
def Obligations.ReadsDeliverTheFlatStream : Prop :=
  ∀ (s : State) (ps : List (List Byte)) (rest : List Byte) (ns : List Nat), payloadsOk ps = true →
    s.env.inFails = [] → s.env.inData.drop s.env.inPos = subSeq ps ++ rest → (∀ n ∈ ns, 0 < n) →
      ∃ bs fin t, dfrReads ns (dfrOpen s) = .ok (bs, fin) t ∧ bs <+: ps.flatten ∧
        (fin = true → bs = ps.flatten ∧ t.env.inPos = s.env.inPos + (subSeq ps).length) ∧
        (fin = false → ns.length ≤ bs.length ∧
          ∀ n, 0 < n → ((∃ t', dfrRead n t = .ok .eof t') ↔ bs = ps.flatten))

/-! ### The decompressor -/

/-- LZW.SIZE on a legal byte sets up every register of the unit and opens the deframer; LZW.SIZE.ILL on any other byte takes the
fault `FormatError(LZW_CODE_SIZE)` (R153). -/
def Obligations.CodeSizeSetsUpTheRun : Prop :=
  ∀ (s : State) (n : Byte),
    (2 ≤ n.toNat → n.toNat ≤ 8 → exec (.lzwSize n) s = .next { s with
      fbLen := 0
      seq := .lzdRun
      dfr := { len := 0, pos := 0, st := .active }
      lzd := { n := n.toNat, clear := 1 <<< n.toNat, eoi := (1 <<< n.toNat) + 1, cw := n.toNat + 1,
               next := (1 <<< n.toNat) + 2, prev := none, bitbuf := 0, bitcnt := 0, outcnt := 0,
               target := s.width.toNat * s.height.toNat } }) ∧
    (n.toNat < 2 ∨ 8 < n.toNat → exec (.lzwSizeIll n) s = .next { s with
      fbLen := 0
      seq := .fault
      status := { done := false, err := true }
      errcode := if s.status.err then s.errcode else 0x17 })

/-- LZW.CLR: width and `next` back to their start, no previous code, nothing else. LZW.EOI and LZW.ILL always take their fault, whose
code is latched unless an earlier one is; nothing but `STATUS`, `ERRCODE` and `seq` changes (R157, R162, R163). -/
def Obligations.ControlAndImpossibleCodesTakeTheirEffect : Prop :=
  ∀ (s : State) (code : Code),
    exec .lzwClr s = .next { s with lzd := { s.lzd with cw := s.lzd.n + 1, next := s.lzd.clear + 2, prev := none } } ∧
    exec .lzwEoi s = .next { s with
      status := { done := false, err := true }, errcode := if s.status.err then s.errcode else 0x42, seq := .fault } ∧
    exec (.lzwIll code) s = .next { s with
      status := { done := false, err := true }, errcode := if s.status.err then s.errcode else 0x18, seq := .fault }

/-- LZW.LIT, LZW.REF and LZW.KWK run whenever their string exists: they write it, cut at the target, extend the dictionary by the
previous string and the string's first byte, and remember the code; nothing else changes (R159, R160, R161, R164, R165). -/
def Obligations.DataCodesEmitExtendAndRemember : Prop :=
  ∀ (s : State) (code : Code),
    (code.toNat < s.lzd.clear → ∃ t, exec (.lzwLit code) s = .next t ∧ Emitted [code.setWidth 8] s t ∧
      Extended (code.setWidth 8) s t ∧ DataFrame code s t) ∧
    (∀ b bs, strCode s code = some (b :: bs) → ∃ t, exec (.lzwRef code) s = .next t ∧ Emitted (b :: bs) s t ∧
      Extended b s t ∧ DataFrame code s t) ∧
    (∀ p b bs, s.lzd.prev = some p → strCode s p = some (b :: bs) → ∃ t, exec (.lzwKwk code) s = .next t ∧
      Emitted (b :: bs ++ [b]) s t ∧ Extended b s t ∧ DataFrame code s t)

/-- In a sound state every literal and every code from `clear + 2` below `next` has a non-empty string, of at most `c - clear`
bytes for an entry (R158). -/
def Obligations.EveryDataCodeHasAString : Prop :=
  ∀ (s : State) (c : Code), LzdRanges s → DictSound s → DataCode s s.lzd.next c →
    ∃ b bs, strCode s c = some (b :: bs) ∧ (c.toNat < s.lzd.clear → bs = [] ∧ b.toNat = c.toNat) ∧
      (s.lzd.clear ≤ c.toNat → (b :: bs).length ≤ c.toNat - s.lzd.clear)

/-- LZW.KWK creates the entry of its own code, and that entry's string is the string it wrote (R161). -/
def Obligations.KwkNamesTheEntryItCreates : Prop :=
  ∀ (s t : State) (code p : Code) (b : Byte) (bs : List Byte), LzdRanges s → LzdPrev s → DictSound s →
    code.toNat = s.lzd.next → s.lzd.next < 4096 → s.lzd.prev = some p → strCode s p = some (b :: bs) →
    exec (.lzwKwk code) s = .next t → strCode t code = some (b :: bs ++ [b])

/-- A fetched code is the next `cw` bits of the flat stream, first bit least significant; the bits not used are kept, and at most
two bytes are asked of the deframer, one at a time (R65, R156). -/
def Obligations.FetchedCodeIsTheNextBits : Prop :=
  ∀ (s t : State) (c : Code), s.lzd.cw ≤ 12 → s.lzd.bitbuf < 2 ^ s.lzd.bitcnt → lzdFetch 3 s = .ok (.code c) t →
    ∃ bs u, bs.length ≤ 2 ∧ dfrReads (List.replicate bs.length 1) s = .ok (bs, false) u ∧
      t = { u with lzd := { s.lzd with bitbuf := t.lzd.bitbuf, bitcnt := t.lzd.bitcnt } } ∧
      s.lzd.bitbuf + 2 ^ s.lzd.bitcnt * leValue bs = c.toNat + 2 ^ s.lzd.cw * t.lzd.bitbuf ∧ c.toNat < 2 ^ s.lzd.cw ∧
      t.lzd.bitcnt + s.lzd.cw = s.lzd.bitcnt + 8 * bs.length ∧ t.lzd.bitbuf < 2 ^ t.lzd.bitcnt

/-- The steps of `LZD_RUN` carry out `LZD.FETCH` and then the code's instruction, or the fault the fetch raises (R152, R156). -/
def Obligations.StepsCarryOutTheFetch : Prop :=
  ∀ (s t : State), blockMoves s = true → s.seq = .lzdRun → s.lzd.outcnt < s.lzd.target →
    (∀ c, lzdFetch 3 s = .ok (.code c) t →
      ∃ k, Host.Core.run Sys2Proof.core (k + 1) s = exec (decodeLzwc (lzwCtx s) c) t) ∧
    (∀ c, lzdFetch 3 s = .raised c t → ∃ k, Host.Core.run Sys2Proof.core (k + 1) s = .next (raiseExc c t))

/-- A frame of zero size: `DECODE` reads and checks the code-size byte and nothing else, and succeeds with `FB_LEN = 0` (R154). -/
def Obligations.ZeroSizeFrameReadsOneByte : Prop :=
  ∀ (s : State) (v : Word) (rest : List HostAct) (b : Byte), blockMoves s = true → s.seq = .idle → s.status.err = false →
    s.bus = .wr offCmd v :: rest → v.setWidth 8 = (0x02 : Byte) → s.width = 0 ∨ s.height = 0 → InReady 1 s →
    s.env.inData[s.env.inPos]? = some b →
    (2 ≤ b.toNat ∧ b.toNat ≤ 8 → ∃ k t, Host.Core.run Sys2Proof.core k s = .next t ∧ t.fbLen = 0 ∧ t.seq = .idle ∧
      t.status = { done := true, err := false } ∧ t.env = (afterIn 1 s).env ∧ t.bus = rest) ∧
    (b.toNat < 2 ∨ 8 < b.toNat → ∃ k t, Host.Core.run Sys2Proof.core k s = .next t ∧ t.seq = .fault ∧
      t.errcode = 0x17 ∧ t.env = (afterIn 1 s).env)

/-! ### The commands, faults and reset -/

/-- Dispatch of a written command: `RESET` in every state, then the sticky `ERR`, then the working commands, then the reserved
codes (R270). Nothing is said of the working registers after `RESET`, which have no value (notes/assumptions/4.md). -/
def Obligations.CommandsAreDispatchedInOrder : Prop :=
  ∀ (s : State) (c : Byte),
    (∃ l w, exec (decodeCmd 0x01) s = .next { blockReset s with lzd := l, ser := w }) ∧
    (c ≠ 0x01 → s.status.err = true → exec (decodeCmd c) s =
      .next { s with status := { done := false, err := true }, seq := .fault }) ∧
    (s.status.err = false → frameSize s ≤ fbCap s → exec (decodeCmd 0x02) s =
      .next { s with status := { done := false, err := false }, seq := .lzdSize }) ∧
    (s.status.err = false → fbCap s < frameSize s → exec (decodeCmd 0x02) s =
      .next { s with status := { done := false, err := true }, errcode := 0x53, seq := .fault }) ∧
    (s.status.err = false → c = 0x00 ∨ 4 ≤ c.toNat → exec (decodeCmd c) s =
      .next { s with status := { done := false, err := true }, errcode := 0x51, seq := .fault })

/-- CMD.RESET leaves every register the spec gives a reset value at that value, and no memory cell with a value; streams, host,
yardstick and configuration are as they were. A reset of the pin that is due does the same in the next step, whatever phase the block
is in; one still to come is counted down beside the step the machine makes without it (R50, R272, R275, R350, R351). Nothing is
said of the working registers, which have no value (notes/assumptions/4.md); the form of the pin, and the steps between which it
strikes, are notes/assumptions/22.md. -/
def Obligations.ResetPutsEveryValueBack : Prop :=
  ∀ s : State, ∃ t, exec .cmdReset s = .next t ∧
    (∀ rest, s.pin = 0 :: rest → ∃ l w, step s = .next { t with pin := rest, lzd := l, ser := w }) ∧
    (∀ n rest, s.pin = (n + 1) :: rest → step s = withPin (n :: rest) (step { s with pin := [] })) ∧
    t.status = { done := false, err := false } ∧ t.errcode = 0x00 ∧ t.width = 0 ∧ t.height = 0 ∧ t.trns = 0xFFFF ∧
    t.palN = 0 ∧ t.fbLen = 0 ∧ t.seq = .idle ∧ t.dfr = { len := 0, pos := 0, st := .active } ∧
    (∀ a, Memory.read t.pal a = none ∧ Memory.read t.fb a = none ∧ Memory.read t.dict a = none ∧
      Memory.read t.dfrbuf a = none) ∧
    t.env = s.env ∧ t.cfg = s.cfg ∧ t.bus = s.bus ∧ t.busRd = s.busRd ∧ t.pin = s.pin ∧ t.gif = s.gif ∧ t.yard = s.yard

/-- The preconditions of `ENCODE`, in order; when all hold the command is accepted with `OUT` untouched (R191). -/
def Obligations.EncodeChecksItsPreconditionsInOrder : Prop :=
  ∀ (s : State) (raw : List Byte), s.status.err = false →
    let refused (code : BitVec 8) := exec .cmdEncode s =
      .next { s with status := { done := false, err := true }, errcode := code, seq := .fault }
    let legal := s.palN.toNat ∈ [2, 4, 8, 16, 32, 64, 128, 256]
    let written := ∀ i, i < s.palN.toNat → (Memory.read s.pal i).isSome = true
    (¬ legal → refused 0x54) ∧
    (legal → ¬ written → refused 0x55) ∧
    (legal → written → 255 < s.trns.toInt → refused 0x56) ∧
    (legal → written → s.trns.toInt ≤ 255 → s.fbLen.toNat ≠ s.width.toNat * s.height.toNat → refused 0x57) ∧
    (legal → written → s.trns.toInt ≤ 255 → s.fbLen.toNat = s.width.toNat * s.height.toNat → serFilt s = some raw →
      2 ^ 31 - 1 < (zCompress s.cfg.compressor raw).length → refused 0x58) ∧
    (legal → written → s.trns.toInt ≤ 255 → s.fbLen.toNat = s.width.toNat * s.height.toNat → serFilt s = some raw →
      (zCompress s.cfg.compressor raw).length ≤ 2 ^ 31 - 1 →
      ∃ t, exec .cmdEncode s = .next t ∧
        t = { s with status := { done := false, err := false }, seq := .serSig, ser := t.ser })

/-- A refused command changes `STATUS`, `ERRCODE` and `seq` and nothing else; the code is of class 5 (R329). -/
def Obligations.RefusalTouchesOnlyTheStatus : Prop :=
  ∀ (s t : State) (i : Instr), i = .cmdDecode ∨ i = .cmdEncode ∨ (∃ c, i = .cmdRsvd c) → exec i s = .next t →
    t.seq = .fault → s.seq ≠ .fault →
      t = { s with status := t.status, errcode := t.errcode, seq := .fault } ∧
      t.status = { done := false, err := true } ∧ (s.status.err = true → t.errcode = s.errcode) ∧
      (s.status.err = false → t.errcode.extractLsb' 4 4 = 5)

/-- In `FAULT` nothing but reset, by pin or by command, changes `STATUS`, `ERRCODE` or the phase (R331, R335). -/
def Obligations.OnlyResetLeavesTheFaultPhase : Prop :=
  ∀ s t : State, StatusAgrees s → s.seq = .fault → step s = .next t →
    (t.seq = .fault ∧ t.status = s.status ∧ t.errcode = s.errcode) ∨
    pinStrikes s ∨ (∃ v rest, s.bus = .wr offCmd v :: rest ∧ v.setWidth 8 = (0x01 : Byte))

/-- Every step moves the sequencer along the transition table, or leaves it where it is (R275). The table's reset in any phase is the
pin's; when it may strike is notes/assumptions/22.md. -/
def Obligations.SequencerFollowsItsTable : Prop :=
  ∀ s t : State, StatusAgrees s → step s = .next t → t.seq = s.seq ∨ SeqEdge s t

/-- `DONE` and `ERR`, `ERR` and `FAULT`, `ERR` and `ERRCODE` agree after every step if they did before (R23, R25, R275). -/
def Obligations.StepKeepsStatusAgreement : Prop :=
  ∀ s t : State, StatusAgrees s → step s = .next t → StatusAgrees t

/-- The reset state is sound. -/
def Obligations.ResetIsSound : Prop := Sound State.reset

/-- Every step from a sound state ends in a sound state. -/
def Obligations.StepKeepsSoundness : Prop := ∀ s t : State, Sound s → step s = .next t → Sound t

/-- A sound state stops only where the host makes an access between commands: a register write that is no command, a register read
or a frame buffer read. No instruction stops. Which of those accesses stop is notes/assumptions/11.md. -/
def Obligations.SoundStateStopsOnlyOnHostAccesses : Prop :=
  ∀ s : State, Sound s → (∃ t, step s = .next t) ∨
    (yardRests s = true ∧ busy s = false ∧ ∃ a rest, s.bus = a :: rest ∧
      ((∃ off v, a = .wr off v ∧ off ≠ offCmd) ∨ (∃ off, a = .rd off) ∨ (∃ i, a = .fbRd i)))

/-! ### The serializer -/

/-- Each part of the file is written whole when no write fails, and the next phase entered; only `OUT`, the environment's draws, the
serializer's working registers (of which nothing is said: notes/assumptions/9.md), `seq` and, at the end, `DONE` change. The parts are
the bytes of the format: the signature, and the chunks with their tags and payloads written out (R99 to R102, R190, R192, R200, R201,
R204, R205, R207, R275). -/
def Obligations.EachPhaseWritesItsPart : Prop :=
  ∀ s : State,
    let be32 (v : Word) : List Byte := [v.extractLsb' 24 8, v.extractLsb' 16 8, v.extractLsb' 8 8, v.extractLsb' 0 8]
    let chunk (tag payload : List Byte) :=
      some (be32 (BitVec.ofNat 32 payload.length) ++ tag ++ payload ++ be32 (crc32 (tag ++ payload)))
    (∀ (i : Instr) (part : List Byte), encodeInstr i = true → OutReady s → serPart s i = some part →
      ∃ t, exec i s = .next t ∧ t = { s with
        env := { s.env with out := s.env.out ++ part, outFails := s.env.outFails.drop part.length }
        ser := t.ser
        seq := serAfter s i
        status := if i = .pngIend then { s.status with done := true } else s.status }) ∧
    serPart s .pngSig = some [0x89, 0x50, 0x4E, 0x47, 0x0D, 0x0A, 0x1A, 0x0A] ∧
    serPart s .pngIhdr = chunk [0x49, 0x48, 0x44, 0x52]
      [0x00, 0x00, s.width.extractLsb' 8 8, s.width.extractLsb' 0 8, 0x00, 0x00, s.height.extractLsb' 8 8, s.height.extractLsb' 0 8,
        0x08, 0x03, 0x00, 0x00, 0x00] ∧
    (∀ p, pltePayload s 0 s.palN.toNat = some p → serPart s .pngPlte = chunk [0x50, 0x4C, 0x54, 0x45] p) ∧
    (0 ≤ s.trns.toInt →
      serPart s .pngTrns = chunk [0x74, 0x52, 0x4E, 0x53] (List.replicate s.trns.toInt.toNat 0xFF ++ [0x00])) ∧
    (s.trns.toInt < 0 → serPart s .pngTrns = some []) ∧
    (∀ raw, serFilt s = some raw → serPart s .pngIdat = chunk [0x49, 0x44, 0x41, 0x54] (zCompress s.cfg.compressor raw)) ∧
    serPart s .pngIend = some [0x00, 0x00, 0x00, 0x00, 0x49, 0x45, 0x4E, 0x44, 0xAE, 0x42, 0x60, 0x82]

/-- `SER.CHUNK` writes length, tag, payload and the checksum of tag and payload, most significant byte first (R193). -/
def Obligations.ChunkCarriesItsChecksum : Prop :=
  ∀ (s : State) (tag payload : List Byte), OutReady s → ∃ t, serChunk tag payload s = .ok () t ∧
    t.env.out = s.env.out ++ splitBe32 (BitVec.ofNat 32 payload.length) ++ tag ++ payload ++
      splitBe32 (crc32 (tag ++ payload)) ∧
    crcFinal t = crc32 (tag ++ payload)

/-- A write that fails is a fault at that byte: if the writes before byte `j` of the part succeed and that of byte `j` fails, `OUT` gets
the first `j` bytes of the part, and everything but `STATUS`, `ERRCODE`, `seq` and the serializer's working registers (of which nothing
is said: notes/assumptions/9.md) is as it was; and a phase ends in `FAULT` only so (R208, R330). -/
def Obligations.WriteFailureLeavesAProperPrefix : Prop :=
  ∀ (s : State) (i : Instr) (part : List Byte), encodeInstr i = true → serPart s i = some part → s.status.err = false →
    (∀ j, j < part.length → FirstFailure j s → ∃ t, exec i s = .next t ∧ t = { s with
      env := { s.env with out := s.env.out ++ part.take j, outFails := s.env.outFails.drop (j + 1) }
      ser := t.ser
      status := { done := false, err := true }
      errcode := 0x32
      seq := .fault }) ∧
    (∀ t, exec i s = .next t → t.seq = .fault → ∃ j, j < part.length ∧ FirstFailure j s)

/-- The filtered buffer: `H × (W + 1)` bytes; row `r` is a zero byte and then the row's cells of `FB` (R206). -/
def Obligations.FilteredBufferHoldsTheRows : Prop :=
  ∀ (s : State) (raw : List Byte), serFilt s = some raw →
    raw.length = s.height.toNat * (s.width.toNat + 1) ∧
    ∀ r, r < s.height.toNat → raw[r * (s.width.toNat + 1)]? = some 0x00 ∧
      ∀ c, c < s.width.toNat → raw[r * (s.width.toNat + 1) + 1 + c]? = fbCell s (r * s.width.toNat + c)

/-- The palette chunk's payload: `3 × PAL_N` bytes, entry `i` as R, G, B (R103, R201). -/
def Obligations.PalettePayloadHoldsTheTriples : Prop :=
  ∀ (s : State) (p : List Byte), pltePayload s 0 s.palN.toNat = some p → p.length = 3 * s.palN.toNat ∧
    ∀ i e, i < s.palN.toNat → Memory.read s.pal i = some e →
      p[3 * i]? = some (e.extractLsb' 16 8) ∧ p[3 * i + 1]? = some (e.extractLsb' 8 8) ∧
      p[3 * i + 2]? = some (e.extractLsb' 0 8)

/-- `ENCODE` whole: the steps from the written command to `IDLE` append the file to `OUT`, and its bytes are a function of the
frame, the palette, `TRNS` and the compressor, in the number R211 gives (R190, R211). -/
def Obligations.EncodeAppendsTheFile : Prop :=
  ∀ (s : State) (rest : List HostAct) (v : Word) (raw plte : List Byte), blockMoves s = true → s.seq = .idle →
    s.status.err = false → s.bus = .wr offCmd v :: rest → v.setWidth 8 = (0x03 : Byte) → encodeCheck s = none →
    serFilt s = some raw → pltePayload s 0 s.palN.toNat = some plte →
    (zCompress s.cfg.compressor raw).length ≤ chunkMaxLen → OutReady s →
      ∃ k t, Host.Core.run Sys2Proof.core k s = .next t ∧
        t.env = { s.env with
          out := s.env.out ++ pngFile s plte (zCompress s.cfg.compressor raw), outFails := t.env.outFails } ∧
        t = { s with env := t.env, ser := t.ser, bus := rest, status := { done := true, err := false } } ∧
        t.env.out.length = s.env.out.length + (8 + 25 + (12 + 3 * s.palN.toNat) +
          (if 0 ≤ s.trns.toInt then 12 + s.trns.toNat + 1 else 0) +
          (12 + (zCompress s.cfg.compressor raw).length) + 12)

/-! ### Checksums -/

/-- The table form of `CRC.UPDATE` computes the same function (R223). -/
def Obligations.CrcTableFormAgrees : Prop :=
  ∀ (c : BitVec 32) (b : Byte),
    crcByte c b = crcTable ((c ^^^ b.setWidth 32).setWidth 8) ^^^ (c >>> 8)

/-- The streaming forms of both units return the functions' values, and the functions have the published check values (R221, R222,
R225, R226). -/
def Obligations.ChecksumUnitsComputeTheFunctions : Prop :=
  (∀ (s : State) (bs : List Byte),
    crcFinal (bs.foldl (fun t b => crcUpdate b t) (crcInit s)) = crc32 bs ∧ adlerFinal (adlerAll bs s) = adler32 bs) ∧
  crc32 [] = 0x00000000 ∧ crc32 [0x61] = 0xE8B7BE43 ∧
  crc32 [0x31, 0x32, 0x33, 0x34, 0x35, 0x36, 0x37, 0x38, 0x39] = 0xCBF43926 ∧
  crc32 [0x49, 0x45, 0x4E, 0x44] = 0xAE426082 ∧ adler32 [] = 0x00000001 ∧ adler32 [0x61] = 0x00620062 ∧
  adler32 [0x61, 0x62, 0x63] = 0x024D0127 ∧ adler32 [0x00, 0x00, 0x01, 0x00, 0x02, 0x03] = 0x00110007

/-! ### The compressed payload -/

/-- The one law of the compressor: `ZDecompress(ZCompress(b)) = b`, for the reference and for every open compressor (R230, R244). Of an
open compressor it holds by the model's fallback on the reference (notes/assumptions/3.md). -/
def Obligations.DecompressUndoesCompress : Prop :=
  ∀ (c : Compressor) (b : List Byte), zDecompress (zCompress c b) = some b

/-- The yardstick, run header by header, ends with the value of `ZDecompress`, and touches nothing but itself (R234, R235). -/
def Obligations.YardstickComputesZDecompress : Prop :=
  ∀ (s : State) (z : List Byte), s.pin = [] → s.yard = { st := .header, z := z, p := 0, u := [] } →
    ∃ k y, Host.Core.run Sys2Proof.core k s = .next { s with yard := y } ∧ y.st = .result (zDecompress z)

/-- DEFL.STORED: from the next byte boundary `LEN`, `NLEN` and `LEN` bytes, appended unchanged; a wrong `NLEN`, length bytes cut short and
a body cut short are invalid. After the last block the result is the data if nothing is missing or left over and the trailer is their
Adler-32, most significant byte first, and otherwise invalid (R233, R234, R235, R238). -/
def Obligations.StoredBlockIsCopied : Prop :=
  ∀ (s : State) (fin : Bool),
    let d := (s.yard.z.drop 2).drop ((s.yard.p + 7) / 8)
    let invalid := { s with yard := { s.yard with st := .result none } }
    let be32 (v : Word) : List Byte := [v.extractLsb' 24 8, v.extractLsb' 16 8, v.extractLsb' 8 8, v.extractLsb' 0 8]
    (d.length < 4 → exec (.deflStored fin) s = .next invalid) ∧
    (∀ (len nlen : BitVec 16) (body : List Byte), d = splitLe16 len ++ splitLe16 nlen ++ body →
      let k := (s.yard.p + 7) / 8 + 4 + len.toNat
      let u := s.yard.u ++ body.take len.toNat
      let goesOn (st : YardSt) := { s with yard := { s.yard with p := 8 * k, u := u, st := st } }
      (nlen ≠ len ^^^ 0xFFFF → exec (.deflStored fin) s = .next invalid) ∧
      (nlen = len ^^^ 0xFFFF → body.length < len.toNat → exec (.deflStored fin) s = .next invalid) ∧
      (nlen = len ^^^ 0xFFFF → len.toNat ≤ body.length →
        (fin = false → exec (.deflStored fin) s = .next (goesOn .block)) ∧
        (fin = true → body.drop len.toNat = be32 (adler32 u) → exec (.deflStored fin) s = .next (goesOn (.result (some u)))) ∧
        (fin = true → body.drop len.toNat ≠ be32 (adler32 u) → exec (.deflStored fin) s = .next (goesOn (.result none)))))

/-- ZLIB.HDR starts the deflate stream at its first bit; DEFL.FIXED and DEFL.DYN run their block, going on to the next block or, on
the last one, ending the stream: with the data if the bytes after the last block's whole bytes are their Adler-32, most significant
byte first, and nothing else, and otherwise invalid. A block that does not decode makes the stream invalid, as DEFL.RSVD does (R232,
R233, R234, R235, R237, R240, R241). -/
def Obligations.StreamHeadersTakeTheirEffect : Prop :=
  ∀ (s : State) (cmf flg : Byte) (fin : Bool),
    let invalid := { s with yard := { s.yard with st := .result none } }
    let be32 (v : Word) : List Byte := [v.extractLsb' 24 8, v.extractLsb' 16 8, v.extractLsb' 8 8, v.extractLsb' 0 8]
    let after (i : Instr) (p : Nat) (u : List Byte) :=
      let goesOn (st : YardSt) := { s with yard := { s.yard with p := p, u := u, st := st } }
      let left := s.yard.z.drop (2 + (p + 7) / 8)
      (fin = false → exec i s = .next (goesOn .block)) ∧
      (fin = true → left = be32 (adler32 u) → exec i s = .next (goesOn (.result (some u)))) ∧
      (fin = true → left ≠ be32 (adler32 u) → exec i s = .next (goesOn (.result none)))
    (zlibHdrOk cmf flg = true →
      exec (.zlibHdr cmf flg) s = .next { s with yard := { s.yard with st := .block, p := 0, u := [] } }) ∧
    (∀ p u, inflateFixed (s.yard.z.drop 2) s.yard.p s.yard.u = some (p, u) → after (.deflFixed fin) p u) ∧
    (inflateFixed (s.yard.z.drop 2) s.yard.p s.yard.u = none → exec (.deflFixed fin) s = .next invalid) ∧
    (∀ p u, inflateDyn (s.yard.z.drop 2) s.yard.p s.yard.u = some (p, u) → after (.deflDyn fin) p u) ∧
    (inflateDyn (s.yard.z.drop 2) s.yard.p s.yard.u = none → exec (.deflDyn fin) s = .next invalid) ∧
    exec (.deflRsvd fin) s = .next invalid

/-- A symbol is decoded exactly from its canonical code: for any code lengths, with `first L` the first code of length `L` as the
construction of R239 gives it, the symbol read at `p` is `sym` if and only if the next `L` bits, `L` its length and the first bit the
most significant, are `first L` plus the number of earlier symbols of that length (R239). -/
def Obligations.CanonicalCodesAreDecoded : Prop :=
  ∀ (d : List Byte) (lens : List Nat) (p sym q : Nat) (first : Nat → Nat), first 1 = 0 →
    (∀ L, 1 ≤ L → first (L + 1) = 2 * (first L + lens.count L)) →
    (decodeSym d (huffTable lens) p = some (sym, q) ↔
      ∃ L, lens[sym]? = some L ∧ 1 ≤ L ∧ L ≤ 15 ∧ q = p + L ∧ codeAt d p L = some (first L + (lens.take sym).count L))

/-- Coded data, symbol by symbol: a literal byte is appended, 256 ends the block, 257 to 285 append a match, each byte of which is the
byte `distance` places before it; other symbols, missing bits and a distance beyond the data are invalid. A block with fixed tables is
coded data under the fixed lengths (R240, R242). -/
def Obligations.CodedDataIsDecoded : Prop :=
  ∀ (d : List Byte) (lit dst : Huff) (p : Nat) (u : List Byte),
    let coded := inflateCoded d lit dst (bitFuel d)
    let lBase := [3, 4, 5, 6, 7, 8, 9, 10, 11, 13, 15, 17, 19, 23, 27, 31, 35, 43, 51, 59, 67, 83, 99, 115, 131, 163, 195, 227, 258]
    let lExt := [0, 0, 0, 0, 0, 0, 0, 0, 1, 1, 1, 1, 2, 2, 2, 2, 3, 3, 3, 3, 4, 4, 4, 4, 5, 5, 5, 5, 0]
    let dBase := [1, 2, 3, 4, 5, 7, 9, 13, 17, 25, 33, 49, 65, 97, 129, 193, 257, 385, 513, 769, 1025, 1537, 2049, 3073, 4097,
      6145, 8193, 12289, 16385, 24577]
    let dExt := [0, 0, 0, 0, 1, 1, 2, 2, 3, 3, 4, 4, 5, 5, 6, 6, 7, 7, 8, 8, 9, 9, 10, 10, 11, 11, 12, 12, 13, 13]
    (decodeSym d lit p = none → coded p u = none) ∧
    (∀ sym q, decodeSym d lit p = some (sym, q) →
      (sym < 256 → coded p u = coded q (u ++ [BitVec.ofNat 8 sym])) ∧
      (sym = 256 → coded p u = some (q, u)) ∧
      (285 < sym → coded p u = none) ∧
      (∀ lb le, 257 ≤ sym → lBase[sym - 257]? = some lb → lExt[sym - 257]? = some le →
        (bitsAt d q le = none → coded p u = none) ∧
        (∀ x, bitsAt d q le = some x →
          (decodeSym d dst (q + le) = none → coded p u = none) ∧
          (∀ t r, decodeSym d dst (q + le) = some (t, r) →
            (29 < t → coded p u = none) ∧
            (∀ db de, dBase[t]? = some db → dExt[t]? = some de →
              (bitsAt d r de = none → coded p u = none) ∧
              (∀ y, bitsAt d r de = some y →
                (u.length < db + y → coded p u = none) ∧
                (db + y ≤ u.length → ∃ w, coded p u = coded (r + de) (u ++ w) ∧ w.length = lb + x ∧
                  ∀ k, k < w.length → (u ++ w)[u.length + k]? = (u ++ w)[u.length + k - (db + y)]?))))))) ∧
    inflateFixed d p u = inflateCoded d
      (huffTable (List.replicate 144 8 ++ List.replicate 112 9 ++ List.replicate 24 7 ++ List.replicate 8 8))
      (huffTable (List.replicate 32 5)) (bitFuel d) p u

/-- Dynamic tables: the three counts, the lengths of the code-length alphabet in their order, then the lengths symbol by symbol, cut into
the two tables; the block's data follow under them (R241). An over-subscribed or incomplete table is invalid (U33;
notes/assumptions/13.md). -/
def Obligations.DynamicTablesAreRead : Prop :=
  ∀ (d : List Byte) (h : Huff) (need p : Nat) (acc : List Nat) (u : List Byte),
    let read := readLens d h need (bitFuel d)
    (need < acc.length → read p acc = none) ∧
    (acc.length = need → read p acc = some (p, acc)) ∧
    (acc.length < need → decodeSym d h p = none → read p acc = none) ∧
    (∀ sym q, acc.length < need → decodeSym d h p = some (sym, q) →
      (sym ≤ 15 → read p acc = read q (acc ++ [sym])) ∧
      (∀ l v, sym = 16 → acc.getLast? = some l → bitsAt d q 2 = some v →
        read p acc = read (q + 2) (acc ++ List.replicate (3 + v) l)) ∧
      (sym = 16 → acc = [] ∨ bitsAt d q 2 = none → read p acc = none) ∧
      (∀ v, sym = 17 → bitsAt d q 3 = some v → read p acc = read (q + 3) (acc ++ List.replicate (3 + v) 0)) ∧
      (sym = 17 → bitsAt d q 3 = none → read p acc = none) ∧
      (∀ v, sym = 18 → bitsAt d q 7 = some v → read p acc = read (q + 7) (acc ++ List.replicate (11 + v) 0)) ∧
      (sym = 18 → bitsAt d q 7 = none → read p acc = none)) ∧
    (∀ q lit dst, dynTables d p = some (q, lit, dst) ↔ ∃ a b c cl lens,
      bitsAt d p 5 = some a ∧ bitsAt d (p + 5) 5 = some b ∧ bitsAt d (p + 10) 4 = some c ∧ a + 257 ≤ 286 ∧ cl.length = 19 ∧
      (∀ j k, [16, 17, 18, 0, 8, 7, 9, 6, 10, 5, 11, 4, 12, 3, 13, 2, 14, 1, 15][j]? = some k →
        cl[k]? = if j < c + 4 then bitsAt d (p + 14 + 3 * j) 3 else some 0) ∧
      kraftSum cl = 2 ^ 15 ∧
      readLens d (huffTable cl) (a + 257 + (b + 1)) (bitFuel d) (p + 14 + 3 * (c + 4)) [] = some (q, lens) ∧
      lit = lens.take (a + 257) ∧ dst = lens.drop (a + 257)) ∧
    (dynTables d p = none → inflateDyn d p u = none) ∧
    (∀ q lit dst, dynTables d p = some (q, lit, dst) → inflateDyn d p u =
      if kraftSum lit = 2 ^ 15 ∧ kraftSum dst = 2 ^ 15 then inflateCoded d (huffTable lit) (huffTable dst) (bitFuel d) q u
      else none)

/-! ### The container parser and the palette codec -/

/-- The palette codec's round trip: `decode(encode(p)) == p` and `len(encode(p)) == 3 × len(p)` (R285, R286). -/
def Obligations.PaletteCodecRoundTrip : Prop :=
  ∀ p : List Rgb, palDecode (palEncode p) p.length = .ok p ∧ (palEncode p).length = 3 * p.length

/-- Tags and sub-types: the trailer ends the run with success, the introducer leads to the sub-type, an unknown tag or sub-type is
the host's fault, without a byte consumed for the tag (R289, R290, R292, R294). -/
def Obligations.TagsTakeTheirEffect : Prop :=
  ∀ (s : State) (b : Byte),
    (InReady 1 s → exec .gifTrailer s = .next (setPhase .finished (afterIn 1 s))) ∧
    (InReady 1 s → exec .gifExt s = .next (setPhase .ext (afterIn 1 s))) ∧
    exec (.gifBadtag b) s = .next (setPhase (.failed 0x13) s) ∧
    exec (.extBad b) s = .next (setPhase (.failed 0x14) s)

/-- EXT.GCE: the pending transparency index is the block's index if its flag is set and -1 otherwise; the length byte is not
checked; under `consume` the terminator is checked (R295, R296, R298). -/
def Obligations.GraphicsControlSetsThePendingIndex : Prop :=
  ∀ (s : State) (l g0 g1 g2 g3 term : Byte) (rest : List Byte), s.env.inFails = [] →
    s.env.inData.drop s.env.inPos = l :: g0 :: g1 :: g2 :: g3 :: term :: rest →
    let gif' := { s.gif with
      pendInput := g0.getLsbD 1, pendDisp := g0.extractLsb' 2 3, pendDelay := le16 g1 g2,
      pendTrns := if g0.getLsbD 0 then (g3.toNat : Int) else -1 }
    (s.cfg.extTerm = .literal → exec .extGce s = .next (setPhase .tag { afterIn 5 s with gif := gif' })) ∧
    (s.cfg.extTerm = .consume → term = 0x00 →
      exec .extGce s = .next (setPhase .tag { afterIn 6 s with gif := gif' })) ∧
    (s.cfg.extTerm = .consume → term ≠ 0x00 →
      exec .extGce s = .next (setPhase (.failed 0x19) { afterIn 6 s with gif := gif' }))

/-- EXT.COM, EXT.PTE and EXT.APP consume their bytes and nothing else: under `consume` a whole sub-block sequence, under `literal`
one sub-block, behind the fixed block and its length byte (R298, R299, R301, R302). -/
def Obligations.ExtensionsAreSkipped : Prop :=
  ∀ (s : State) (fixed : List Byte) (ps : List (List Byte)) (rest : List Byte), payloadsOk ps = true →
    s.env.inFails = [] → s.env.inData.drop s.env.inPos = fixed ++ subSeq ps ++ rest →
    let taken := fixed.length + (match s.cfg.extTerm with
      | .consume => (subSeq ps).length
      | .literal => 1 + (ps.headD []).length)
    (fixed.length = 0 → exec .extCom s = .next (setPhase .tag (afterIn taken s))) ∧
    (fixed.length = 13 → exec .extPte s = .next (setPhase .tag (afterIn taken s))) ∧
    (fixed.length = 12 → exec .extApp s = .next (setPhase .tag (afterIn taken s)))

/-- GIF.IMG without a local palette: the descriptor's dimensions are written to the block, `cmd DECODE` follows, and the global
palette is bound to the frame; with no global palette either it is the host's fault `NO_PALETTE`, and no command is issued
(R300, R304, R305). -/
def Obligations.ImageWithoutLocalPalette : Prop :=
  ∀ (s : State) (d : List Byte), InReady 10 s → d = (nextIn 10 s).drop 1 → (byteAt d 8).getLsbD 7 = false →
    let read := { afterIn 10 s with gif := { s.gif with
      imgLeft := le16 (byteAt d 0) (byteAt d 1), imgTop := le16 (byteAt d 2) (byteAt d 3), imgFlags := byteAt d 8 } }
    (∀ g, s.gif.gPal = some g → exec .gifImg s = .next (setPhase (.decoding g) { read with
      bus := [.wr offWidth ((le16 (byteAt d 4) (byteAt d 5)).setWidth 32),
        .wr offHeight ((le16 (byteAt d 6) (byteAt d 7)).setWidth 32), .wr offCmd 0x02] ++ s.bus })) ∧
    (s.gif.gPal = none → exec .gifImg s = .next (setPhase (.failed 0x16) read))

/-- GIF.IMG with a local palette: the palette after the descriptor is the one bound to the frame, whatever the global one is; the
descriptor's dimensions are written to the block and `cmd DECODE` follows; the global palette is not changed (R300, R304, R305). -/
def Obligations.LocalPaletteOverridesGlobal : Prop :=
  ∀ (s : State) (d : List Byte) (n : Nat), InReady (10 + 3 * n) s → d = (nextIn 10 s).drop 1 →
    (byteAt d 8).getLsbD 7 = true → n = 2 ^ ((byteAt d 8).toNat % 8 + 1) →
    exec .gifImg s = .next { afterIn (10 + 3 * n) s with
      gif := { s.gif with
        phase := .decoding (rgbTriples ((nextIn (10 + 3 * n) s).drop 10))
        imgLeft := le16 (byteAt d 0) (byteAt d 1), imgTop := le16 (byteAt d 2) (byteAt d 3), imgFlags := byteAt d 8 }
      bus := [.wr offWidth ((le16 (byteAt d 4) (byteAt d 5)).setWidth 32),
        .wr offHeight ((le16 (byteAt d 6) (byteAt d 7)).setWidth 32), .wr offCmd 0x02] ++ s.bus }

/-- A pending start of the container parser opens the input and gives the variables of R281 their start values. After a frame is
decoded and its palette loaded, the host numbers the frame from 1 on, opens a fresh `OUT` under the base name and that number, and
issues `cmd ENCODE`. Either opening may fail, which ends the run with `IOError(OPEN)`, code 0x33 (R281, R289, R305, R309, R321). Nothing
is said of the host's other variables at a start (notes/assumptions/5.md). That a start is taken whatever the parser was doing is
notes/assumptions/21.md, that both openings draw from one list notes/assumptions/7.md, and what becomes of a sink that was not closed
notes/assumptions/16.md. -/
def Obligations.RunStartsAndFrameFileIsOpened : Prop :=
  ∀ (s : State) (base : List Byte) (rest : List HostAct), blockMoves s = true → busy s = false →
    let drawn := { s.env with openFails := s.env.openFails.tail }
    (s.bus = .gifRun base :: rest →
      (s.env.openFails.headD false = true → ∃ g,
        step s = .next { s with bus := rest, env := drawn, gif := g } ∧ g.phase = .failed 0x33) ∧
      (s.env.openFails.headD false = false → ∃ g,
        step s = .next { s with bus := rest, env := drawn, gif := g } ∧ g.phase = .header ∧ g.pendTrns = -1 ∧ g.pendDisp = 0 ∧
          g.pendDelay = 0 ∧ g.pendInput = false ∧ g.frameNo = 0 ∧ g.base = base)) ∧
    (s.bus = [] → s.gif.phase = .opening →
      let numbered (q : GifPhase) := { s.gif with phase := q, frameNo := s.gif.frameNo + 1 }
      (s.env.openFails.headD false = true → step s = .next { s with env := drawn, gif := numbered (.failed 0x33) }) ∧
      (s.env.openFails.headD false = false → step s = .next { s with
        bus := [.wr offCmd 0x03]
        gif := numbered .encoding
        env := { drawn with
          out := []
          outName := some { base := s.gif.base, index := s.gif.frameNo + 1 }
          files := if s.env.out = [] ∧ s.env.outName = none then s.env.files
            else s.env.files ++ [{ name := s.env.outName, bytes := s.env.out }] } }))

/-- After `cmd ENCODE` succeeded the host closes the file, applies the carry policy and reads the image's terminator, which must be
0x00 (R297, R305, R306). That a closed sink joins the list of files is notes/assumptions/16.md. -/
def Obligations.ImageTerminatorIsChecked : Prop :=
  ∀ (s : State) (b : Byte), blockMoves s = true → s.seq = .idle → s.bus = [] → s.gif.phase = .encoding →
    s.status.err = false → InReady 1 s → s.env.inData[s.env.inPos]? = some b →
    ∃ t, step s = .next t ∧
      t.env = { (afterIn 1 s).env with
        files := s.env.files ++ [{ name := s.env.outName, bytes := s.env.out }], out := [], outName := none } ∧
      t.gif = { s.gif with
        pendTrns := match s.cfg.trnsCarry with
          | .carry => s.gif.pendTrns
          | .reset => -1
        phase := if b = 0x00 then .tag else .failed 0x19 } ∧
      t = { s with env := t.env, gif := t.gif }

/-- The header: `GIF` in any mix of cases, then `87a` or `89a` exactly, the signature tested first; then the screen descriptor,
and the global palette if its flag is set; no palette byte is read if it is not (R283, R284). -/
def Obligations.HeaderIsCheckedAndRead : Prop :=
  ∀ s : State, blockMoves s = true → busy s = false → s.bus = [] → s.gif.phase = .header → InReady 6 s →
    let signature := ((nextIn 6 s).take 3).map upperByte = [0x47, 0x49, 0x46]
    let version := (nextIn 6 s).drop 3 = [0x38, 0x37, 0x61] ∨ (nextIn 6 s).drop 3 = [0x38, 0x39, 0x61]
    let d := (nextIn 13 s).drop 6
    let n := 2 ^ ((byteAt d 4).toNat % 8 + 1)
    let screen (palette : Option (List Rgb)) := { s.gif with
      phase := .tag, gPresent := palette.isSome, gPal := palette, flags := byteAt d 4, bg := byteAt d 5, aspect := byteAt d 6,
      screenW := le16 (byteAt d 0) (byteAt d 1), screenH := le16 (byteAt d 2) (byteAt d 3) }
    (¬ signature → step s = .next (setPhase (.failed 0x11) (afterIn 6 s))) ∧
    (signature → ¬ version → step s = .next (setPhase (.failed 0x12) (afterIn 6 s))) ∧
    (signature → version → InReady 13 s → (byteAt d 4).getLsbD 7 = false →
      step s = .next { afterIn 13 s with gif := screen none }) ∧
    (signature → version → InReady (13 + 3 * n) s → (byteAt d 4).getLsbD 7 = true →
      step s = .next { afterIn (13 + 3 * n) s with
        gif := screen (some (rgbTriples ((nextIn (13 + 3 * n) s).drop 13))) })

/-- After `cmd DECODE` the host ends its run with the block's fault, or loads the frame's palette and its pending index into the
block: `PAL_N`, the cells `PAL[0]` on, `TRNS`, and nothing else (R297, R305). -/
def Obligations.PaletteAndIndexAreLoaded : Prop :=
  ∀ (s : State) (p : List Rgb), blockMoves s = true → busy s = false → s.bus = [] → s.gif.phase = .decoding p →
    p.length ≤ 256 →
    (s.status.err = true → step s = .next (setPhase (.failed s.errcode) s)) ∧
    (s.status.err = false → ∃ k t, Host.Core.run Sys2Proof.core k s = .next t ∧
      t = setPhase .opening { s with
        palN := BitVec.ofNat 9 p.length, trns := BitVec.ofInt 16 s.gif.pendTrns, pal := t.pal } ∧
      (∀ i e, p[i]? = some e → Memory.read t.pal i = some (e.r ++ e.g ++ e.b)) ∧
      (∀ i, p.length ≤ i → Memory.read t.pal i = Memory.read s.pal i))

/-! ### Whole-machine rules -/

/-- No instruction but RESET writes a register or palette cell that belongs to the host, and none changes the configuration
(R26, R27, R29, R30, R42, R351). -/
def Obligations.HostRegistersAreTheHosts : Prop :=
  ∀ (s t : State) (i : Instr), exec i s = .next t → t.cfg = s.cfg ∧
    (i ≠ .cmdReset → t.width = s.width ∧ t.height = s.height ∧ t.trns = s.trns ∧ t.palN = s.palN ∧ t.pal = s.pal)

/-- The container parser's instructions change nothing of the block, and the yardstick's nothing but the yardstick (R234, R280). -/
def Obligations.HostAndYardstickLeaveTheBlockAlone : Prop :=
  ∀ (s t : State) (i : Instr), exec i s = .next t →
    (hostInstr i = true → t = { s with
      env := { s.env with inPos := t.env.inPos, inFails := t.env.inFails }, bus := t.bus, gif := t.gif }) ∧
    (yardInstr i = true → t = { s with yard := t.yard })

/-- `DECODE` writes nothing to `OUT`; `ENCODE` reads nothing from `IN` and writes no cell of `FB` (R71, R41). -/
def Obligations.DecodeAndEncodeKeepApart : Prop :=
  ∀ (s t : State) (i : Instr), exec i s = .next t →
    (decodeInstr i = true → t.env.out = s.env.out ∧ t.env.outFails = s.env.outFails ∧ t.env.outName = s.env.outName ∧
      t.env.files = s.env.files) ∧
    (encodeInstr i = true ∨ i = .cmdEncode →
      t.env.inPos = s.env.inPos ∧ t.env.inFails = s.env.inFails ∧ t.env.outName = s.env.outName ∧ t.env.files = s.env.files ∧
      t.fb = s.fb ∧ t.fbLen = s.fbLen)

/-- The bytes of `IN` never change, the cursor only moves forward and never past the end (R61). -/
def Obligations.CursorMovesForward : Prop :=
  ∀ s t : State, step s = .next t → t.env.inData = s.env.inData ∧ s.env.inPos ≤ t.env.inPos ∧
    (s.env.inPos ≤ s.env.inData.length → t.env.inPos ≤ t.env.inData.length)

/-- The register bank: a write lands in its register, bits above the width ignored, and nowhere else; a read gives zeros above the
width, `TRNS` sign-extended, `CMD` as 0 (R21, R22); a step takes a pending write or read so. The frame buffer's read port gives the cell
below `FB_LEN` (R41). That a write to a read-only register stops, that a read of an unwritten palette cell, or at or above `FB_LEN`, is
refused, and under which names, is notes/assumptions/11.md. -/
def Obligations.RegisterBankAndFrameBufferPort : Prop :=
  ∀ (s : State) (v : Word) (i off : Nat) (b : Byte) (rest : List HostAct),
    (i < 256 →
      busWrite 0x0C v s = .ok { s with width := v.setWidth 16 } ∧
      busWrite 0x10 v s = .ok { s with height := v.setWidth 16 } ∧
      busWrite 0x14 v s = .ok { s with trns := v.setWidth 16 } ∧
      busWrite 0x18 v s = .ok { s with palN := v.setWidth 9 } ∧
      busWrite (0x400 + 4 * i) v s = .ok { s with pal := Memory.write s.pal i (v.setWidth 24) } ∧
      (∀ ro ∈ [0x04, 0x08, 0x1C], busWrite ro v s = .error (.readOnlyRegister ro)) ∧
      busRead 0x00 s = .value 0 ∧
      busRead 0x04 s = .value ((BitVec.ofBool s.status.err ++ BitVec.ofBool s.status.done).setWidth 32) ∧
      busRead 0x08 s = .value (s.errcode.setWidth 32) ∧ busRead 0x0C s = .value (s.width.setWidth 32) ∧
      busRead 0x10 s = .value (s.height.setWidth 32) ∧ busRead 0x14 s = .value (s.trns.signExtend 32) ∧
      busRead 0x18 s = .value (s.palN.setWidth 32) ∧ busRead 0x1C s = .value s.fbLen ∧
      (∀ e, Memory.read s.pal i = some e → busRead (0x400 + 4 * i) s = .value (e.setWidth 32)) ∧
      (Memory.read s.pal i = none → busRead (0x400 + 4 * i) s = .refused (.palNoValue i))) ∧
    (blockMoves s = true → busy s = false → s.bus = .wr off v :: rest → off ≠ offCmd →
      (∀ t, busWrite off v s = .ok t → step s = .next { t with bus := rest }) ∧
      (∀ f, busWrite off v s = .error f → step s = .fault f)) ∧
    (blockMoves s = true → busy s = false → s.bus = .rd off :: rest →
      (∀ w, busRead off s = .value w → step s = .next { s with bus := rest, busRd := some w }) ∧
      (∀ f, busRead off s = .fault f → step s = .fault f) ∧ (∀ r, busRead off s = .refused r → step s = .refused r)) ∧
    (blockMoves s = true → busy s = false → s.bus = .fbRd i :: rest →
      (i < s.fbLen.toNat → Memory.read s.fb i = some b →
        step s = .next { s with bus := rest, busRd := some (b.setWidth 32) }) ∧
      (s.fbLen.toNat ≤ i → step s = .refused .fbNoValue))
end

