-- ==== Sys2Proof/Laws/State.lean ====
section
/-! SUPPORT. What each named update of the state leaves in each field: one lemma per field and update, so that no later proof unfolds
a record. -/

namespace Sys2Proof.Machine

variable (s : State)

/-! `raiseExc` -/

@[simp] theorem raiseExc_status (c : Cause) : (raiseExc c s).status = { done := false, err := true } := rfl
@[simp] theorem raiseExc_errcode (c : Cause) : (raiseExc c s).errcode = if s.status.err then s.errcode else causeCode c := rfl
@[simp] theorem raiseExc_width (c : Cause) : (raiseExc c s).width = s.width := rfl
@[simp] theorem raiseExc_height (c : Cause) : (raiseExc c s).height = s.height := rfl
@[simp] theorem raiseExc_trns (c : Cause) : (raiseExc c s).trns = s.trns := rfl
@[simp] theorem raiseExc_palN (c : Cause) : (raiseExc c s).palN = s.palN := rfl
@[simp] theorem raiseExc_fbLen (c : Cause) : (raiseExc c s).fbLen = s.fbLen := rfl
@[simp] theorem raiseExc_seq (c : Cause) : (raiseExc c s).seq = .fault := rfl
@[simp] theorem raiseExc_dfr (c : Cause) : (raiseExc c s).dfr = s.dfr := rfl
@[simp] theorem raiseExc_lzd (c : Cause) : (raiseExc c s).lzd = s.lzd := rfl
@[simp] theorem raiseExc_ser (c : Cause) : (raiseExc c s).ser = s.ser := rfl
@[simp] theorem raiseExc_fb (c : Cause) : (raiseExc c s).fb = s.fb := rfl
@[simp] theorem raiseExc_pal (c : Cause) : (raiseExc c s).pal = s.pal := rfl
@[simp] theorem raiseExc_dict (c : Cause) : (raiseExc c s).dict = s.dict := rfl
@[simp] theorem raiseExc_dfrbuf (c : Cause) : (raiseExc c s).dfrbuf = s.dfrbuf := rfl
@[simp] theorem raiseExc_env (c : Cause) : (raiseExc c s).env = s.env := rfl
@[simp] theorem raiseExc_bus (c : Cause) : (raiseExc c s).bus = s.bus := rfl
@[simp] theorem raiseExc_busRd (c : Cause) : (raiseExc c s).busRd = s.busRd := rfl
@[simp] theorem raiseExc_pin (c : Cause) : (raiseExc c s).pin = s.pin := rfl
@[simp] theorem raiseExc_gif (c : Cause) : (raiseExc c s).gif = s.gif := rfl
@[simp] theorem raiseExc_yard (c : Cause) : (raiseExc c s).yard = s.yard := rfl
@[simp] theorem raiseExc_cfg (c : Cause) : (raiseExc c s).cfg = s.cfg := rfl

/-! `clearDone` -/

@[simp] theorem clearDone_status : (clearDone s).status = { s.status with done := false } := rfl
@[simp] theorem clearDone_errcode : (clearDone s).errcode = s.errcode := rfl
@[simp] theorem clearDone_width : (clearDone s).width = s.width := rfl
@[simp] theorem clearDone_height : (clearDone s).height = s.height := rfl
@[simp] theorem clearDone_trns : (clearDone s).trns = s.trns := rfl
@[simp] theorem clearDone_palN : (clearDone s).palN = s.palN := rfl
@[simp] theorem clearDone_fbLen : (clearDone s).fbLen = s.fbLen := rfl
@[simp] theorem clearDone_seq : (clearDone s).seq = s.seq := rfl
@[simp] theorem clearDone_dfr : (clearDone s).dfr = s.dfr := rfl
@[simp] theorem clearDone_lzd : (clearDone s).lzd = s.lzd := rfl
@[simp] theorem clearDone_ser : (clearDone s).ser = s.ser := rfl
@[simp] theorem clearDone_fb : (clearDone s).fb = s.fb := rfl
@[simp] theorem clearDone_pal : (clearDone s).pal = s.pal := rfl
@[simp] theorem clearDone_dict : (clearDone s).dict = s.dict := rfl
@[simp] theorem clearDone_dfrbuf : (clearDone s).dfrbuf = s.dfrbuf := rfl
@[simp] theorem clearDone_env : (clearDone s).env = s.env := rfl
@[simp] theorem clearDone_bus : (clearDone s).bus = s.bus := rfl
@[simp] theorem clearDone_busRd : (clearDone s).busRd = s.busRd := rfl
@[simp] theorem clearDone_pin : (clearDone s).pin = s.pin := rfl
@[simp] theorem clearDone_gif : (clearDone s).gif = s.gif := rfl
@[simp] theorem clearDone_yard : (clearDone s).yard = s.yard := rfl
@[simp] theorem clearDone_cfg : (clearDone s).cfg = s.cfg := rfl

/-! `succeed` -/

@[simp] theorem succeed_status : (succeed s).status = { s.status with done := true } := rfl
@[simp] theorem succeed_errcode : (succeed s).errcode = s.errcode := rfl
@[simp] theorem succeed_width : (succeed s).width = s.width := rfl
@[simp] theorem succeed_height : (succeed s).height = s.height := rfl
@[simp] theorem succeed_trns : (succeed s).trns = s.trns := rfl
@[simp] theorem succeed_palN : (succeed s).palN = s.palN := rfl
@[simp] theorem succeed_fbLen : (succeed s).fbLen = s.fbLen := rfl
@[simp] theorem succeed_seq : (succeed s).seq = .idle := rfl
@[simp] theorem succeed_dfr : (succeed s).dfr = s.dfr := rfl
@[simp] theorem succeed_lzd : (succeed s).lzd = s.lzd := rfl
@[simp] theorem succeed_ser : (succeed s).ser = s.ser := rfl
@[simp] theorem succeed_fb : (succeed s).fb = s.fb := rfl
@[simp] theorem succeed_pal : (succeed s).pal = s.pal := rfl
@[simp] theorem succeed_dict : (succeed s).dict = s.dict := rfl
@[simp] theorem succeed_dfrbuf : (succeed s).dfrbuf = s.dfrbuf := rfl
@[simp] theorem succeed_env : (succeed s).env = s.env := rfl
@[simp] theorem succeed_bus : (succeed s).bus = s.bus := rfl
@[simp] theorem succeed_busRd : (succeed s).busRd = s.busRd := rfl
@[simp] theorem succeed_pin : (succeed s).pin = s.pin := rfl
@[simp] theorem succeed_gif : (succeed s).gif = s.gif := rfl
@[simp] theorem succeed_yard : (succeed s).yard = s.yard := rfl
@[simp] theorem succeed_cfg : (succeed s).cfg = s.cfg := rfl

/-! `inDraw` -/

@[simp] theorem inDraw_status : (inDraw s).status = s.status := rfl
@[simp] theorem inDraw_errcode : (inDraw s).errcode = s.errcode := rfl
@[simp] theorem inDraw_width : (inDraw s).width = s.width := rfl
@[simp] theorem inDraw_height : (inDraw s).height = s.height := rfl
@[simp] theorem inDraw_trns : (inDraw s).trns = s.trns := rfl
@[simp] theorem inDraw_palN : (inDraw s).palN = s.palN := rfl
@[simp] theorem inDraw_fbLen : (inDraw s).fbLen = s.fbLen := rfl
@[simp] theorem inDraw_seq : (inDraw s).seq = s.seq := rfl
@[simp] theorem inDraw_dfr : (inDraw s).dfr = s.dfr := rfl
@[simp] theorem inDraw_lzd : (inDraw s).lzd = s.lzd := rfl
@[simp] theorem inDraw_ser : (inDraw s).ser = s.ser := rfl
@[simp] theorem inDraw_fb : (inDraw s).fb = s.fb := rfl
@[simp] theorem inDraw_pal : (inDraw s).pal = s.pal := rfl
@[simp] theorem inDraw_dict : (inDraw s).dict = s.dict := rfl
@[simp] theorem inDraw_dfrbuf : (inDraw s).dfrbuf = s.dfrbuf := rfl
@[simp] theorem inDraw_env : (inDraw s).env = { s.env with inFails := s.env.inFails.tail } := rfl
@[simp] theorem inDraw_bus : (inDraw s).bus = s.bus := rfl
@[simp] theorem inDraw_busRd : (inDraw s).busRd = s.busRd := rfl
@[simp] theorem inDraw_pin : (inDraw s).pin = s.pin := rfl
@[simp] theorem inDraw_gif : (inDraw s).gif = s.gif := rfl
@[simp] theorem inDraw_yard : (inDraw s).yard = s.yard := rfl
@[simp] theorem inDraw_cfg : (inDraw s).cfg = s.cfg := rfl

/-! `afterIn` -/

@[simp] theorem afterIn_status (n : Nat) : (afterIn n s).status = s.status := rfl
@[simp] theorem afterIn_errcode (n : Nat) : (afterIn n s).errcode = s.errcode := rfl
@[simp] theorem afterIn_width (n : Nat) : (afterIn n s).width = s.width := rfl
@[simp] theorem afterIn_height (n : Nat) : (afterIn n s).height = s.height := rfl
@[simp] theorem afterIn_trns (n : Nat) : (afterIn n s).trns = s.trns := rfl
@[simp] theorem afterIn_palN (n : Nat) : (afterIn n s).palN = s.palN := rfl
@[simp] theorem afterIn_fbLen (n : Nat) : (afterIn n s).fbLen = s.fbLen := rfl
@[simp] theorem afterIn_seq (n : Nat) : (afterIn n s).seq = s.seq := rfl
@[simp] theorem afterIn_dfr (n : Nat) : (afterIn n s).dfr = s.dfr := rfl
@[simp] theorem afterIn_lzd (n : Nat) : (afterIn n s).lzd = s.lzd := rfl
@[simp] theorem afterIn_ser (n : Nat) : (afterIn n s).ser = s.ser := rfl
@[simp] theorem afterIn_fb (n : Nat) : (afterIn n s).fb = s.fb := rfl
@[simp] theorem afterIn_pal (n : Nat) : (afterIn n s).pal = s.pal := rfl
@[simp] theorem afterIn_dict (n : Nat) : (afterIn n s).dict = s.dict := rfl
@[simp] theorem afterIn_dfrbuf (n : Nat) : (afterIn n s).dfrbuf = s.dfrbuf := rfl
@[simp] theorem afterIn_env (n : Nat) : (afterIn n s).env =
    { s.env with inPos := s.env.inPos + n, inFails := s.env.inFails.drop n } := rfl
@[simp] theorem afterIn_bus (n : Nat) : (afterIn n s).bus = s.bus := rfl
@[simp] theorem afterIn_busRd (n : Nat) : (afterIn n s).busRd = s.busRd := rfl
@[simp] theorem afterIn_pin (n : Nat) : (afterIn n s).pin = s.pin := rfl
@[simp] theorem afterIn_gif (n : Nat) : (afterIn n s).gif = s.gif := rfl
@[simp] theorem afterIn_yard (n : Nat) : (afterIn n s).yard = s.yard := rfl
@[simp] theorem afterIn_cfg (n : Nat) : (afterIn n s).cfg = s.cfg := rfl

/-! `dfrOpen` -/

@[simp] theorem dfrOpen_status : (dfrOpen s).status = s.status := rfl
@[simp] theorem dfrOpen_errcode : (dfrOpen s).errcode = s.errcode := rfl
@[simp] theorem dfrOpen_width : (dfrOpen s).width = s.width := rfl
@[simp] theorem dfrOpen_height : (dfrOpen s).height = s.height := rfl
@[simp] theorem dfrOpen_trns : (dfrOpen s).trns = s.trns := rfl
@[simp] theorem dfrOpen_palN : (dfrOpen s).palN = s.palN := rfl
@[simp] theorem dfrOpen_fbLen : (dfrOpen s).fbLen = s.fbLen := rfl
@[simp] theorem dfrOpen_seq : (dfrOpen s).seq = s.seq := rfl
@[simp] theorem dfrOpen_dfr : (dfrOpen s).dfr = { len := 0, pos := 0, st := .active } := rfl
@[simp] theorem dfrOpen_lzd : (dfrOpen s).lzd = s.lzd := rfl
@[simp] theorem dfrOpen_ser : (dfrOpen s).ser = s.ser := rfl
@[simp] theorem dfrOpen_fb : (dfrOpen s).fb = s.fb := rfl
@[simp] theorem dfrOpen_pal : (dfrOpen s).pal = s.pal := rfl
@[simp] theorem dfrOpen_dict : (dfrOpen s).dict = s.dict := rfl
@[simp] theorem dfrOpen_dfrbuf : (dfrOpen s).dfrbuf = s.dfrbuf := rfl
@[simp] theorem dfrOpen_env : (dfrOpen s).env = s.env := rfl
@[simp] theorem dfrOpen_bus : (dfrOpen s).bus = s.bus := rfl
@[simp] theorem dfrOpen_busRd : (dfrOpen s).busRd = s.busRd := rfl
@[simp] theorem dfrOpen_pin : (dfrOpen s).pin = s.pin := rfl
@[simp] theorem dfrOpen_gif : (dfrOpen s).gif = s.gif := rfl
@[simp] theorem dfrOpen_yard : (dfrOpen s).yard = s.yard := rfl
@[simp] theorem dfrOpen_cfg : (dfrOpen s).cfg = s.cfg := rfl

/-! `dfrTerm` -/

@[simp] theorem dfrTerm_status : (dfrTerm s).status = s.status := rfl
@[simp] theorem dfrTerm_errcode : (dfrTerm s).errcode = s.errcode := rfl
@[simp] theorem dfrTerm_width : (dfrTerm s).width = s.width := rfl
@[simp] theorem dfrTerm_height : (dfrTerm s).height = s.height := rfl
@[simp] theorem dfrTerm_trns : (dfrTerm s).trns = s.trns := rfl
@[simp] theorem dfrTerm_palN : (dfrTerm s).palN = s.palN := rfl
@[simp] theorem dfrTerm_fbLen : (dfrTerm s).fbLen = s.fbLen := rfl
@[simp] theorem dfrTerm_seq : (dfrTerm s).seq = s.seq := rfl
@[simp] theorem dfrTerm_dfr : (dfrTerm s).dfr = { len := 0, pos := 0, st := .eof } := rfl
@[simp] theorem dfrTerm_lzd : (dfrTerm s).lzd = s.lzd := rfl
@[simp] theorem dfrTerm_ser : (dfrTerm s).ser = s.ser := rfl
@[simp] theorem dfrTerm_fb : (dfrTerm s).fb = s.fb := rfl
@[simp] theorem dfrTerm_pal : (dfrTerm s).pal = s.pal := rfl
@[simp] theorem dfrTerm_dict : (dfrTerm s).dict = s.dict := rfl
@[simp] theorem dfrTerm_dfrbuf : (dfrTerm s).dfrbuf = s.dfrbuf := rfl
@[simp] theorem dfrTerm_env : (dfrTerm s).env = s.env := rfl
@[simp] theorem dfrTerm_bus : (dfrTerm s).bus = s.bus := rfl
@[simp] theorem dfrTerm_busRd : (dfrTerm s).busRd = s.busRd := rfl
@[simp] theorem dfrTerm_pin : (dfrTerm s).pin = s.pin := rfl
@[simp] theorem dfrTerm_gif : (dfrTerm s).gif = s.gif := rfl
@[simp] theorem dfrTerm_yard : (dfrTerm s).yard = s.yard := rfl
@[simp] theorem dfrTerm_cfg : (dfrTerm s).cfg = s.cfg := rfl

/-! `dfrTrunc` -/

@[simp] theorem dfrTrunc_status (c : Cause) : (dfrTrunc c s).status = s.status := rfl
@[simp] theorem dfrTrunc_errcode (c : Cause) : (dfrTrunc c s).errcode = s.errcode := rfl
@[simp] theorem dfrTrunc_width (c : Cause) : (dfrTrunc c s).width = s.width := rfl
@[simp] theorem dfrTrunc_height (c : Cause) : (dfrTrunc c s).height = s.height := rfl
@[simp] theorem dfrTrunc_trns (c : Cause) : (dfrTrunc c s).trns = s.trns := rfl
@[simp] theorem dfrTrunc_palN (c : Cause) : (dfrTrunc c s).palN = s.palN := rfl
@[simp] theorem dfrTrunc_fbLen (c : Cause) : (dfrTrunc c s).fbLen = s.fbLen := rfl
@[simp] theorem dfrTrunc_seq (c : Cause) : (dfrTrunc c s).seq = s.seq := rfl
@[simp] theorem dfrTrunc_dfr (c : Cause) : (dfrTrunc c s).dfr = { s.dfr with st := .trunc c } := rfl
@[simp] theorem dfrTrunc_lzd (c : Cause) : (dfrTrunc c s).lzd = s.lzd := rfl
@[simp] theorem dfrTrunc_ser (c : Cause) : (dfrTrunc c s).ser = s.ser := rfl
@[simp] theorem dfrTrunc_fb (c : Cause) : (dfrTrunc c s).fb = s.fb := rfl
@[simp] theorem dfrTrunc_pal (c : Cause) : (dfrTrunc c s).pal = s.pal := rfl
@[simp] theorem dfrTrunc_dict (c : Cause) : (dfrTrunc c s).dict = s.dict := rfl
@[simp] theorem dfrTrunc_dfrbuf (c : Cause) : (dfrTrunc c s).dfrbuf = s.dfrbuf := rfl
@[simp] theorem dfrTrunc_env (c : Cause) : (dfrTrunc c s).env = s.env := rfl
@[simp] theorem dfrTrunc_bus (c : Cause) : (dfrTrunc c s).bus = s.bus := rfl
@[simp] theorem dfrTrunc_busRd (c : Cause) : (dfrTrunc c s).busRd = s.busRd := rfl
@[simp] theorem dfrTrunc_pin (c : Cause) : (dfrTrunc c s).pin = s.pin := rfl
@[simp] theorem dfrTrunc_gif (c : Cause) : (dfrTrunc c s).gif = s.gif := rfl
@[simp] theorem dfrTrunc_yard (c : Cause) : (dfrTrunc c s).yard = s.yard := rfl
@[simp] theorem dfrTrunc_cfg (c : Cause) : (dfrTrunc c s).cfg = s.cfg := rfl

/-! `dfrTruncPayload` -/

@[simp] theorem dfrTruncPayload_status : (dfrTruncPayload s).status = s.status := rfl
@[simp] theorem dfrTruncPayload_errcode : (dfrTruncPayload s).errcode = s.errcode := rfl
@[simp] theorem dfrTruncPayload_width : (dfrTruncPayload s).width = s.width := rfl
@[simp] theorem dfrTruncPayload_height : (dfrTruncPayload s).height = s.height := rfl
@[simp] theorem dfrTruncPayload_trns : (dfrTruncPayload s).trns = s.trns := rfl
@[simp] theorem dfrTruncPayload_palN : (dfrTruncPayload s).palN = s.palN := rfl
@[simp] theorem dfrTruncPayload_fbLen : (dfrTruncPayload s).fbLen = s.fbLen := rfl
@[simp] theorem dfrTruncPayload_seq : (dfrTruncPayload s).seq = s.seq := rfl
@[simp] theorem dfrTruncPayload_dfr : (dfrTruncPayload s).dfr = { len := 0, pos := 0, st := .trunc .sbPayload } := rfl
@[simp] theorem dfrTruncPayload_lzd : (dfrTruncPayload s).lzd = s.lzd := rfl
@[simp] theorem dfrTruncPayload_ser : (dfrTruncPayload s).ser = s.ser := rfl
@[simp] theorem dfrTruncPayload_fb : (dfrTruncPayload s).fb = s.fb := rfl
@[simp] theorem dfrTruncPayload_pal : (dfrTruncPayload s).pal = s.pal := rfl
@[simp] theorem dfrTruncPayload_dict : (dfrTruncPayload s).dict = s.dict := rfl
@[simp] theorem dfrTruncPayload_dfrbuf : (dfrTruncPayload s).dfrbuf = s.dfrbuf := rfl
@[simp] theorem dfrTruncPayload_env : (dfrTruncPayload s).env = s.env := rfl
@[simp] theorem dfrTruncPayload_bus : (dfrTruncPayload s).bus = s.bus := rfl
@[simp] theorem dfrTruncPayload_busRd : (dfrTruncPayload s).busRd = s.busRd := rfl
@[simp] theorem dfrTruncPayload_pin : (dfrTruncPayload s).pin = s.pin := rfl
@[simp] theorem dfrTruncPayload_gif : (dfrTruncPayload s).gif = s.gif := rfl
@[simp] theorem dfrTruncPayload_yard : (dfrTruncPayload s).yard = s.yard := rfl
@[simp] theorem dfrTruncPayload_cfg : (dfrTruncPayload s).cfg = s.cfg := rfl

/-! `lzdEmit` -/

@[simp] theorem lzdEmit_status (str : List Byte) : (lzdEmit str s).status = s.status := rfl
@[simp] theorem lzdEmit_errcode (str : List Byte) : (lzdEmit str s).errcode = s.errcode := rfl
@[simp] theorem lzdEmit_width (str : List Byte) : (lzdEmit str s).width = s.width := rfl
@[simp] theorem lzdEmit_height (str : List Byte) : (lzdEmit str s).height = s.height := rfl
@[simp] theorem lzdEmit_trns (str : List Byte) : (lzdEmit str s).trns = s.trns := rfl
@[simp] theorem lzdEmit_palN (str : List Byte) : (lzdEmit str s).palN = s.palN := rfl
@[simp] theorem lzdEmit_fbLen (str : List Byte) : (lzdEmit str s).fbLen = s.fbLen := rfl
@[simp] theorem lzdEmit_seq (str : List Byte) : (lzdEmit str s).seq = s.seq := rfl
@[simp] theorem lzdEmit_dfr (str : List Byte) : (lzdEmit str s).dfr = s.dfr := rfl
@[simp] theorem lzdEmit_lzd (str : List Byte) : (lzdEmit str s).lzd =
    { s.lzd with outcnt := s.lzd.outcnt + emitCount str s } := rfl
@[simp] theorem lzdEmit_ser (str : List Byte) : (lzdEmit str s).ser = s.ser := rfl
@[simp] theorem lzdEmit_fb (str : List Byte) : (lzdEmit str s).fb =
    Memory.writeList s.fb s.lzd.outcnt (str.take (emitCount str s)) := rfl
@[simp] theorem lzdEmit_pal (str : List Byte) : (lzdEmit str s).pal = s.pal := rfl
@[simp] theorem lzdEmit_dict (str : List Byte) : (lzdEmit str s).dict = s.dict := rfl
@[simp] theorem lzdEmit_dfrbuf (str : List Byte) : (lzdEmit str s).dfrbuf = s.dfrbuf := rfl
@[simp] theorem lzdEmit_env (str : List Byte) : (lzdEmit str s).env = s.env := rfl
@[simp] theorem lzdEmit_bus (str : List Byte) : (lzdEmit str s).bus = s.bus := rfl
@[simp] theorem lzdEmit_busRd (str : List Byte) : (lzdEmit str s).busRd = s.busRd := rfl
@[simp] theorem lzdEmit_pin (str : List Byte) : (lzdEmit str s).pin = s.pin := rfl
@[simp] theorem lzdEmit_gif (str : List Byte) : (lzdEmit str s).gif = s.gif := rfl
@[simp] theorem lzdEmit_yard (str : List Byte) : (lzdEmit str s).yard = s.yard := rfl
@[simp] theorem lzdEmit_cfg (str : List Byte) : (lzdEmit str s).cfg = s.cfg := rfl

/-! `setPrev` -/

@[simp] theorem setPrev_status (c : Code) : (setPrev c s).status = s.status := rfl
@[simp] theorem setPrev_errcode (c : Code) : (setPrev c s).errcode = s.errcode := rfl
@[simp] theorem setPrev_width (c : Code) : (setPrev c s).width = s.width := rfl
@[simp] theorem setPrev_height (c : Code) : (setPrev c s).height = s.height := rfl
@[simp] theorem setPrev_trns (c : Code) : (setPrev c s).trns = s.trns := rfl
@[simp] theorem setPrev_palN (c : Code) : (setPrev c s).palN = s.palN := rfl
@[simp] theorem setPrev_fbLen (c : Code) : (setPrev c s).fbLen = s.fbLen := rfl
@[simp] theorem setPrev_seq (c : Code) : (setPrev c s).seq = s.seq := rfl
@[simp] theorem setPrev_dfr (c : Code) : (setPrev c s).dfr = s.dfr := rfl
@[simp] theorem setPrev_lzd (c : Code) : (setPrev c s).lzd = { s.lzd with prev := some c } := rfl
@[simp] theorem setPrev_ser (c : Code) : (setPrev c s).ser = s.ser := rfl
@[simp] theorem setPrev_fb (c : Code) : (setPrev c s).fb = s.fb := rfl
@[simp] theorem setPrev_pal (c : Code) : (setPrev c s).pal = s.pal := rfl
@[simp] theorem setPrev_dict (c : Code) : (setPrev c s).dict = s.dict := rfl
@[simp] theorem setPrev_dfrbuf (c : Code) : (setPrev c s).dfrbuf = s.dfrbuf := rfl
@[simp] theorem setPrev_env (c : Code) : (setPrev c s).env = s.env := rfl
@[simp] theorem setPrev_bus (c : Code) : (setPrev c s).bus = s.bus := rfl
@[simp] theorem setPrev_busRd (c : Code) : (setPrev c s).busRd = s.busRd := rfl
@[simp] theorem setPrev_pin (c : Code) : (setPrev c s).pin = s.pin := rfl
@[simp] theorem setPrev_gif (c : Code) : (setPrev c s).gif = s.gif := rfl
@[simp] theorem setPrev_yard (c : Code) : (setPrev c s).yard = s.yard := rfl
@[simp] theorem setPrev_cfg (c : Code) : (setPrev c s).cfg = s.cfg := rfl

/-! `pushByte` -/

@[simp] theorem pushByte_status (b : Byte) : (pushByte b s).status = s.status := rfl
@[simp] theorem pushByte_errcode (b : Byte) : (pushByte b s).errcode = s.errcode := rfl
@[simp] theorem pushByte_width (b : Byte) : (pushByte b s).width = s.width := rfl
@[simp] theorem pushByte_height (b : Byte) : (pushByte b s).height = s.height := rfl
@[simp] theorem pushByte_trns (b : Byte) : (pushByte b s).trns = s.trns := rfl
@[simp] theorem pushByte_palN (b : Byte) : (pushByte b s).palN = s.palN := rfl
@[simp] theorem pushByte_fbLen (b : Byte) : (pushByte b s).fbLen = s.fbLen := rfl
@[simp] theorem pushByte_seq (b : Byte) : (pushByte b s).seq = s.seq := rfl
@[simp] theorem pushByte_dfr (b : Byte) : (pushByte b s).dfr = s.dfr := rfl
@[simp] theorem pushByte_lzd (b : Byte) : (pushByte b s).lzd =
    { s.lzd with bitbuf := s.lzd.bitbuf ||| (b.toNat <<< s.lzd.bitcnt), bitcnt := s.lzd.bitcnt + 8 } := rfl
@[simp] theorem pushByte_ser (b : Byte) : (pushByte b s).ser = s.ser := rfl
@[simp] theorem pushByte_fb (b : Byte) : (pushByte b s).fb = s.fb := rfl
@[simp] theorem pushByte_pal (b : Byte) : (pushByte b s).pal = s.pal := rfl
@[simp] theorem pushByte_dict (b : Byte) : (pushByte b s).dict = s.dict := rfl
@[simp] theorem pushByte_dfrbuf (b : Byte) : (pushByte b s).dfrbuf = s.dfrbuf := rfl
@[simp] theorem pushByte_env (b : Byte) : (pushByte b s).env = s.env := rfl
@[simp] theorem pushByte_bus (b : Byte) : (pushByte b s).bus = s.bus := rfl
@[simp] theorem pushByte_busRd (b : Byte) : (pushByte b s).busRd = s.busRd := rfl
@[simp] theorem pushByte_pin (b : Byte) : (pushByte b s).pin = s.pin := rfl
@[simp] theorem pushByte_gif (b : Byte) : (pushByte b s).gif = s.gif := rfl
@[simp] theorem pushByte_yard (b : Byte) : (pushByte b s).yard = s.yard := rfl
@[simp] theorem pushByte_cfg (b : Byte) : (pushByte b s).cfg = s.cfg := rfl

/-! `dropCode` -/

@[simp] theorem dropCode_status : (dropCode s).status = s.status := rfl
@[simp] theorem dropCode_errcode : (dropCode s).errcode = s.errcode := rfl
@[simp] theorem dropCode_width : (dropCode s).width = s.width := rfl
@[simp] theorem dropCode_height : (dropCode s).height = s.height := rfl
@[simp] theorem dropCode_trns : (dropCode s).trns = s.trns := rfl
@[simp] theorem dropCode_palN : (dropCode s).palN = s.palN := rfl
@[simp] theorem dropCode_fbLen : (dropCode s).fbLen = s.fbLen := rfl
@[simp] theorem dropCode_seq : (dropCode s).seq = s.seq := rfl
@[simp] theorem dropCode_dfr : (dropCode s).dfr = s.dfr := rfl
@[simp] theorem dropCode_lzd : (dropCode s).lzd =
    { s.lzd with bitbuf := s.lzd.bitbuf >>> s.lzd.cw, bitcnt := s.lzd.bitcnt - s.lzd.cw } := rfl
@[simp] theorem dropCode_ser : (dropCode s).ser = s.ser := rfl
@[simp] theorem dropCode_fb : (dropCode s).fb = s.fb := rfl
@[simp] theorem dropCode_pal : (dropCode s).pal = s.pal := rfl
@[simp] theorem dropCode_dict : (dropCode s).dict = s.dict := rfl
@[simp] theorem dropCode_dfrbuf : (dropCode s).dfrbuf = s.dfrbuf := rfl
@[simp] theorem dropCode_env : (dropCode s).env = s.env := rfl
@[simp] theorem dropCode_bus : (dropCode s).bus = s.bus := rfl
@[simp] theorem dropCode_busRd : (dropCode s).busRd = s.busRd := rfl
@[simp] theorem dropCode_pin : (dropCode s).pin = s.pin := rfl
@[simp] theorem dropCode_gif : (dropCode s).gif = s.gif := rfl
@[simp] theorem dropCode_yard : (dropCode s).yard = s.yard := rfl
@[simp] theorem dropCode_cfg : (dropCode s).cfg = s.cfg := rfl

/-! `lzdStart` -/

@[simp] theorem lzdStart_status (b : Byte) : (lzdStart b s).status = s.status := rfl
@[simp] theorem lzdStart_errcode (b : Byte) : (lzdStart b s).errcode = s.errcode := rfl
@[simp] theorem lzdStart_width (b : Byte) : (lzdStart b s).width = s.width := rfl
@[simp] theorem lzdStart_height (b : Byte) : (lzdStart b s).height = s.height := rfl
@[simp] theorem lzdStart_trns (b : Byte) : (lzdStart b s).trns = s.trns := rfl
@[simp] theorem lzdStart_palN (b : Byte) : (lzdStart b s).palN = s.palN := rfl
@[simp] theorem lzdStart_fbLen (b : Byte) : (lzdStart b s).fbLen = 0 := rfl
@[simp] theorem lzdStart_seq (b : Byte) : (lzdStart b s).seq = .lzdRun := rfl
@[simp] theorem lzdStart_dfr (b : Byte) : (lzdStart b s).dfr = { len := 0, pos := 0, st := .active } := rfl
@[simp] theorem lzdStart_lzd (b : Byte) : (lzdStart b s).lzd =
    { n := b.toNat, clear := 2 ^ b.toNat, eoi := 2 ^ b.toNat + 1, cw := b.toNat + 1, next := 2 ^ b.toNat + 2, prev := none, bitbuf := 0, bitcnt := 0, outcnt := 0, target := frameSize s } := rfl
@[simp] theorem lzdStart_ser (b : Byte) : (lzdStart b s).ser = s.ser := rfl
@[simp] theorem lzdStart_fb (b : Byte) : (lzdStart b s).fb = s.fb := rfl
@[simp] theorem lzdStart_pal (b : Byte) : (lzdStart b s).pal = s.pal := rfl
@[simp] theorem lzdStart_dict (b : Byte) : (lzdStart b s).dict = s.dict := rfl
@[simp] theorem lzdStart_dfrbuf (b : Byte) : (lzdStart b s).dfrbuf = s.dfrbuf := rfl
@[simp] theorem lzdStart_env (b : Byte) : (lzdStart b s).env = s.env := rfl
@[simp] theorem lzdStart_bus (b : Byte) : (lzdStart b s).bus = s.bus := rfl
@[simp] theorem lzdStart_busRd (b : Byte) : (lzdStart b s).busRd = s.busRd := rfl
@[simp] theorem lzdStart_pin (b : Byte) : (lzdStart b s).pin = s.pin := rfl
@[simp] theorem lzdStart_gif (b : Byte) : (lzdStart b s).gif = s.gif := rfl
@[simp] theorem lzdStart_yard (b : Byte) : (lzdStart b s).yard = s.yard := rfl
@[simp] theorem lzdStart_cfg (b : Byte) : (lzdStart b s).cfg = s.cfg := rfl

/-! `lzdFinish` -/

@[simp] theorem lzdFinish_status : (lzdFinish s).status = { s.status with done := true } := rfl
@[simp] theorem lzdFinish_errcode : (lzdFinish s).errcode = s.errcode := rfl
@[simp] theorem lzdFinish_width : (lzdFinish s).width = s.width := rfl
@[simp] theorem lzdFinish_height : (lzdFinish s).height = s.height := rfl
@[simp] theorem lzdFinish_trns : (lzdFinish s).trns = s.trns := rfl
@[simp] theorem lzdFinish_palN : (lzdFinish s).palN = s.palN := rfl
@[simp] theorem lzdFinish_fbLen : (lzdFinish s).fbLen = BitVec.ofNat 32 s.lzd.target := rfl
@[simp] theorem lzdFinish_seq : (lzdFinish s).seq = .idle := rfl
@[simp] theorem lzdFinish_dfr : (lzdFinish s).dfr = s.dfr := rfl
@[simp] theorem lzdFinish_lzd : (lzdFinish s).lzd = s.lzd := rfl
@[simp] theorem lzdFinish_ser : (lzdFinish s).ser = s.ser := rfl
@[simp] theorem lzdFinish_fb : (lzdFinish s).fb = s.fb := rfl
@[simp] theorem lzdFinish_pal : (lzdFinish s).pal = s.pal := rfl
@[simp] theorem lzdFinish_dict : (lzdFinish s).dict = s.dict := rfl
@[simp] theorem lzdFinish_dfrbuf : (lzdFinish s).dfrbuf = s.dfrbuf := rfl
@[simp] theorem lzdFinish_env : (lzdFinish s).env = s.env := rfl
@[simp] theorem lzdFinish_bus : (lzdFinish s).bus = s.bus := rfl
@[simp] theorem lzdFinish_busRd : (lzdFinish s).busRd = s.busRd := rfl
@[simp] theorem lzdFinish_pin : (lzdFinish s).pin = s.pin := rfl
@[simp] theorem lzdFinish_gif : (lzdFinish s).gif = s.gif := rfl
@[simp] theorem lzdFinish_yard : (lzdFinish s).yard = s.yard := rfl
@[simp] theorem lzdFinish_cfg : (lzdFinish s).cfg = s.cfg := rfl

/-! `crcInit` -/

@[simp] theorem crcInit_status : (crcInit s).status = s.status := rfl
@[simp] theorem crcInit_errcode : (crcInit s).errcode = s.errcode := rfl
@[simp] theorem crcInit_width : (crcInit s).width = s.width := rfl
@[simp] theorem crcInit_height : (crcInit s).height = s.height := rfl
@[simp] theorem crcInit_trns : (crcInit s).trns = s.trns := rfl
@[simp] theorem crcInit_palN : (crcInit s).palN = s.palN := rfl
@[simp] theorem crcInit_fbLen : (crcInit s).fbLen = s.fbLen := rfl
@[simp] theorem crcInit_seq : (crcInit s).seq = s.seq := rfl
@[simp] theorem crcInit_dfr : (crcInit s).dfr = s.dfr := rfl
@[simp] theorem crcInit_lzd : (crcInit s).lzd = s.lzd := rfl
@[simp] theorem crcInit_ser : (crcInit s).ser = { s.ser with crc := 0xFFFFFFFF } := rfl
@[simp] theorem crcInit_fb : (crcInit s).fb = s.fb := rfl
@[simp] theorem crcInit_pal : (crcInit s).pal = s.pal := rfl
@[simp] theorem crcInit_dict : (crcInit s).dict = s.dict := rfl
@[simp] theorem crcInit_dfrbuf : (crcInit s).dfrbuf = s.dfrbuf := rfl
@[simp] theorem crcInit_env : (crcInit s).env = s.env := rfl
@[simp] theorem crcInit_bus : (crcInit s).bus = s.bus := rfl
@[simp] theorem crcInit_busRd : (crcInit s).busRd = s.busRd := rfl
@[simp] theorem crcInit_pin : (crcInit s).pin = s.pin := rfl
@[simp] theorem crcInit_gif : (crcInit s).gif = s.gif := rfl
@[simp] theorem crcInit_yard : (crcInit s).yard = s.yard := rfl
@[simp] theorem crcInit_cfg : (crcInit s).cfg = s.cfg := rfl

/-! `crcUpdate` -/

@[simp] theorem crcUpdate_status (b : Byte) : (crcUpdate b s).status = s.status := rfl
@[simp] theorem crcUpdate_errcode (b : Byte) : (crcUpdate b s).errcode = s.errcode := rfl
@[simp] theorem crcUpdate_width (b : Byte) : (crcUpdate b s).width = s.width := rfl
@[simp] theorem crcUpdate_height (b : Byte) : (crcUpdate b s).height = s.height := rfl
@[simp] theorem crcUpdate_trns (b : Byte) : (crcUpdate b s).trns = s.trns := rfl
@[simp] theorem crcUpdate_palN (b : Byte) : (crcUpdate b s).palN = s.palN := rfl
@[simp] theorem crcUpdate_fbLen (b : Byte) : (crcUpdate b s).fbLen = s.fbLen := rfl
@[simp] theorem crcUpdate_seq (b : Byte) : (crcUpdate b s).seq = s.seq := rfl
@[simp] theorem crcUpdate_dfr (b : Byte) : (crcUpdate b s).dfr = s.dfr := rfl
@[simp] theorem crcUpdate_lzd (b : Byte) : (crcUpdate b s).lzd = s.lzd := rfl
@[simp] theorem crcUpdate_ser (b : Byte) : (crcUpdate b s).ser = { s.ser with crc := crcByte s.ser.crc b } := rfl
@[simp] theorem crcUpdate_fb (b : Byte) : (crcUpdate b s).fb = s.fb := rfl
@[simp] theorem crcUpdate_pal (b : Byte) : (crcUpdate b s).pal = s.pal := rfl
@[simp] theorem crcUpdate_dict (b : Byte) : (crcUpdate b s).dict = s.dict := rfl
@[simp] theorem crcUpdate_dfrbuf (b : Byte) : (crcUpdate b s).dfrbuf = s.dfrbuf := rfl
@[simp] theorem crcUpdate_env (b : Byte) : (crcUpdate b s).env = s.env := rfl
@[simp] theorem crcUpdate_bus (b : Byte) : (crcUpdate b s).bus = s.bus := rfl
@[simp] theorem crcUpdate_busRd (b : Byte) : (crcUpdate b s).busRd = s.busRd := rfl
@[simp] theorem crcUpdate_pin (b : Byte) : (crcUpdate b s).pin = s.pin := rfl
@[simp] theorem crcUpdate_gif (b : Byte) : (crcUpdate b s).gif = s.gif := rfl
@[simp] theorem crcUpdate_yard (b : Byte) : (crcUpdate b s).yard = s.yard := rfl
@[simp] theorem crcUpdate_cfg (b : Byte) : (crcUpdate b s).cfg = s.cfg := rfl

/-! `setPhase` -/

@[simp] theorem setPhase_status (q : GifPhase) : (setPhase q s).status = s.status := rfl
@[simp] theorem setPhase_errcode (q : GifPhase) : (setPhase q s).errcode = s.errcode := rfl
@[simp] theorem setPhase_width (q : GifPhase) : (setPhase q s).width = s.width := rfl
@[simp] theorem setPhase_height (q : GifPhase) : (setPhase q s).height = s.height := rfl
@[simp] theorem setPhase_trns (q : GifPhase) : (setPhase q s).trns = s.trns := rfl
@[simp] theorem setPhase_palN (q : GifPhase) : (setPhase q s).palN = s.palN := rfl
@[simp] theorem setPhase_fbLen (q : GifPhase) : (setPhase q s).fbLen = s.fbLen := rfl
@[simp] theorem setPhase_seq (q : GifPhase) : (setPhase q s).seq = s.seq := rfl
@[simp] theorem setPhase_dfr (q : GifPhase) : (setPhase q s).dfr = s.dfr := rfl
@[simp] theorem setPhase_lzd (q : GifPhase) : (setPhase q s).lzd = s.lzd := rfl
@[simp] theorem setPhase_ser (q : GifPhase) : (setPhase q s).ser = s.ser := rfl
@[simp] theorem setPhase_fb (q : GifPhase) : (setPhase q s).fb = s.fb := rfl
@[simp] theorem setPhase_pal (q : GifPhase) : (setPhase q s).pal = s.pal := rfl
@[simp] theorem setPhase_dict (q : GifPhase) : (setPhase q s).dict = s.dict := rfl
@[simp] theorem setPhase_dfrbuf (q : GifPhase) : (setPhase q s).dfrbuf = s.dfrbuf := rfl
@[simp] theorem setPhase_env (q : GifPhase) : (setPhase q s).env = s.env := rfl
@[simp] theorem setPhase_bus (q : GifPhase) : (setPhase q s).bus = s.bus := rfl
@[simp] theorem setPhase_busRd (q : GifPhase) : (setPhase q s).busRd = s.busRd := rfl
@[simp] theorem setPhase_pin (q : GifPhase) : (setPhase q s).pin = s.pin := rfl
@[simp] theorem setPhase_gif (q : GifPhase) : (setPhase q s).gif = { s.gif with phase := q } := rfl
@[simp] theorem setPhase_yard (q : GifPhase) : (setPhase q s).yard = s.yard := rfl
@[simp] theorem setPhase_cfg (q : GifPhase) : (setPhase q s).cfg = s.cfg := rfl

/-! `hostFail` -/

@[simp] theorem hostFail_status (code : BitVec 8) : (hostFail code s).status = s.status := rfl
@[simp] theorem hostFail_errcode (code : BitVec 8) : (hostFail code s).errcode = s.errcode := rfl
@[simp] theorem hostFail_width (code : BitVec 8) : (hostFail code s).width = s.width := rfl
@[simp] theorem hostFail_height (code : BitVec 8) : (hostFail code s).height = s.height := rfl
@[simp] theorem hostFail_trns (code : BitVec 8) : (hostFail code s).trns = s.trns := rfl
@[simp] theorem hostFail_palN (code : BitVec 8) : (hostFail code s).palN = s.palN := rfl
@[simp] theorem hostFail_fbLen (code : BitVec 8) : (hostFail code s).fbLen = s.fbLen := rfl
@[simp] theorem hostFail_seq (code : BitVec 8) : (hostFail code s).seq = s.seq := rfl
@[simp] theorem hostFail_dfr (code : BitVec 8) : (hostFail code s).dfr = s.dfr := rfl
@[simp] theorem hostFail_lzd (code : BitVec 8) : (hostFail code s).lzd = s.lzd := rfl
@[simp] theorem hostFail_ser (code : BitVec 8) : (hostFail code s).ser = s.ser := rfl
@[simp] theorem hostFail_fb (code : BitVec 8) : (hostFail code s).fb = s.fb := rfl
@[simp] theorem hostFail_pal (code : BitVec 8) : (hostFail code s).pal = s.pal := rfl
@[simp] theorem hostFail_dict (code : BitVec 8) : (hostFail code s).dict = s.dict := rfl
@[simp] theorem hostFail_dfrbuf (code : BitVec 8) : (hostFail code s).dfrbuf = s.dfrbuf := rfl
@[simp] theorem hostFail_env (code : BitVec 8) : (hostFail code s).env = s.env := rfl
@[simp] theorem hostFail_bus (code : BitVec 8) : (hostFail code s).bus = s.bus := rfl
@[simp] theorem hostFail_busRd (code : BitVec 8) : (hostFail code s).busRd = s.busRd := rfl
@[simp] theorem hostFail_pin (code : BitVec 8) : (hostFail code s).pin = s.pin := rfl
@[simp] theorem hostFail_gif (code : BitVec 8) : (hostFail code s).gif = { s.gif with phase := .failed code } := rfl
@[simp] theorem hostFail_yard (code : BitVec 8) : (hostFail code s).yard = s.yard := rfl
@[simp] theorem hostFail_cfg (code : BitVec 8) : (hostFail code s).cfg = s.cfg := rfl

/-! `hostRaise` -/

@[simp] theorem hostRaise_status (c : Cause) : (hostRaise c s).status = s.status := rfl
@[simp] theorem hostRaise_errcode (c : Cause) : (hostRaise c s).errcode = s.errcode := rfl
@[simp] theorem hostRaise_width (c : Cause) : (hostRaise c s).width = s.width := rfl
@[simp] theorem hostRaise_height (c : Cause) : (hostRaise c s).height = s.height := rfl
@[simp] theorem hostRaise_trns (c : Cause) : (hostRaise c s).trns = s.trns := rfl
@[simp] theorem hostRaise_palN (c : Cause) : (hostRaise c s).palN = s.palN := rfl
@[simp] theorem hostRaise_fbLen (c : Cause) : (hostRaise c s).fbLen = s.fbLen := rfl
@[simp] theorem hostRaise_seq (c : Cause) : (hostRaise c s).seq = s.seq := rfl
@[simp] theorem hostRaise_dfr (c : Cause) : (hostRaise c s).dfr = s.dfr := rfl
@[simp] theorem hostRaise_lzd (c : Cause) : (hostRaise c s).lzd = s.lzd := rfl
@[simp] theorem hostRaise_ser (c : Cause) : (hostRaise c s).ser = s.ser := rfl
@[simp] theorem hostRaise_fb (c : Cause) : (hostRaise c s).fb = s.fb := rfl
@[simp] theorem hostRaise_pal (c : Cause) : (hostRaise c s).pal = s.pal := rfl
@[simp] theorem hostRaise_dict (c : Cause) : (hostRaise c s).dict = s.dict := rfl
@[simp] theorem hostRaise_dfrbuf (c : Cause) : (hostRaise c s).dfrbuf = s.dfrbuf := rfl
@[simp] theorem hostRaise_env (c : Cause) : (hostRaise c s).env = s.env := rfl
@[simp] theorem hostRaise_bus (c : Cause) : (hostRaise c s).bus = s.bus := rfl
@[simp] theorem hostRaise_busRd (c : Cause) : (hostRaise c s).busRd = s.busRd := rfl
@[simp] theorem hostRaise_pin (c : Cause) : (hostRaise c s).pin = s.pin := rfl
@[simp] theorem hostRaise_gif (c : Cause) : (hostRaise c s).gif = { s.gif with phase := .failed (causeCode c) } := rfl
@[simp] theorem hostRaise_yard (c : Cause) : (hostRaise c s).yard = s.yard := rfl
@[simp] theorem hostRaise_cfg (c : Cause) : (hostRaise c s).cfg = s.cfg := rfl

/-! `openOut` -/

@[simp] theorem openOut_status (name : Option FileName) : (openOut name s).status = s.status := rfl
@[simp] theorem openOut_errcode (name : Option FileName) : (openOut name s).errcode = s.errcode := rfl
@[simp] theorem openOut_width (name : Option FileName) : (openOut name s).width = s.width := rfl
@[simp] theorem openOut_height (name : Option FileName) : (openOut name s).height = s.height := rfl
@[simp] theorem openOut_trns (name : Option FileName) : (openOut name s).trns = s.trns := rfl
@[simp] theorem openOut_palN (name : Option FileName) : (openOut name s).palN = s.palN := rfl
@[simp] theorem openOut_fbLen (name : Option FileName) : (openOut name s).fbLen = s.fbLen := rfl
@[simp] theorem openOut_seq (name : Option FileName) : (openOut name s).seq = s.seq := rfl
@[simp] theorem openOut_dfr (name : Option FileName) : (openOut name s).dfr = s.dfr := rfl
@[simp] theorem openOut_lzd (name : Option FileName) : (openOut name s).lzd = s.lzd := rfl
@[simp] theorem openOut_ser (name : Option FileName) : (openOut name s).ser = s.ser := rfl
@[simp] theorem openOut_fb (name : Option FileName) : (openOut name s).fb = s.fb := rfl
@[simp] theorem openOut_pal (name : Option FileName) : (openOut name s).pal = s.pal := rfl
@[simp] theorem openOut_dict (name : Option FileName) : (openOut name s).dict = s.dict := rfl
@[simp] theorem openOut_dfrbuf (name : Option FileName) : (openOut name s).dfrbuf = s.dfrbuf := rfl
@[simp] theorem openOut_env (name : Option FileName) : (openOut name s).env =
    { s.env with files := if s.env.out = [] ∧ s.env.outName = none then s.env.files else s.env.files ++ [{ name := s.env.outName, bytes := s.env.out }], out := [], outName := name } := rfl
@[simp] theorem openOut_bus (name : Option FileName) : (openOut name s).bus = s.bus := rfl
@[simp] theorem openOut_busRd (name : Option FileName) : (openOut name s).busRd = s.busRd := rfl
@[simp] theorem openOut_pin (name : Option FileName) : (openOut name s).pin = s.pin := rfl
@[simp] theorem openOut_gif (name : Option FileName) : (openOut name s).gif = s.gif := rfl
@[simp] theorem openOut_yard (name : Option FileName) : (openOut name s).yard = s.yard := rfl
@[simp] theorem openOut_cfg (name : Option FileName) : (openOut name s).cfg = s.cfg := rfl

/-! `closeOut` -/

@[simp] theorem closeOut_status : (closeOut s).status = s.status := rfl
@[simp] theorem closeOut_errcode : (closeOut s).errcode = s.errcode := rfl
@[simp] theorem closeOut_width : (closeOut s).width = s.width := rfl
@[simp] theorem closeOut_height : (closeOut s).height = s.height := rfl
@[simp] theorem closeOut_trns : (closeOut s).trns = s.trns := rfl
@[simp] theorem closeOut_palN : (closeOut s).palN = s.palN := rfl
@[simp] theorem closeOut_fbLen : (closeOut s).fbLen = s.fbLen := rfl
@[simp] theorem closeOut_seq : (closeOut s).seq = s.seq := rfl
@[simp] theorem closeOut_dfr : (closeOut s).dfr = s.dfr := rfl
@[simp] theorem closeOut_lzd : (closeOut s).lzd = s.lzd := rfl
@[simp] theorem closeOut_ser : (closeOut s).ser = s.ser := rfl
@[simp] theorem closeOut_fb : (closeOut s).fb = s.fb := rfl
@[simp] theorem closeOut_pal : (closeOut s).pal = s.pal := rfl
@[simp] theorem closeOut_dict : (closeOut s).dict = s.dict := rfl
@[simp] theorem closeOut_dfrbuf : (closeOut s).dfrbuf = s.dfrbuf := rfl
@[simp] theorem closeOut_env : (closeOut s).env =
    { s.env with files := s.env.files ++ [{ name := s.env.outName, bytes := s.env.out }], out := [], outName := none } := rfl
@[simp] theorem closeOut_bus : (closeOut s).bus = s.bus := rfl
@[simp] theorem closeOut_busRd : (closeOut s).busRd = s.busRd := rfl
@[simp] theorem closeOut_pin : (closeOut s).pin = s.pin := rfl
@[simp] theorem closeOut_gif : (closeOut s).gif = s.gif := rfl
@[simp] theorem closeOut_yard : (closeOut s).yard = s.yard := rfl
@[simp] theorem closeOut_cfg : (closeOut s).cfg = s.cfg := rfl

/-! `yardDone` -/

@[simp] theorem yardDone_status (r : Option (List Byte)) : (yardDone r s).status = s.status := rfl
@[simp] theorem yardDone_errcode (r : Option (List Byte)) : (yardDone r s).errcode = s.errcode := rfl
@[simp] theorem yardDone_width (r : Option (List Byte)) : (yardDone r s).width = s.width := rfl
@[simp] theorem yardDone_height (r : Option (List Byte)) : (yardDone r s).height = s.height := rfl
@[simp] theorem yardDone_trns (r : Option (List Byte)) : (yardDone r s).trns = s.trns := rfl
@[simp] theorem yardDone_palN (r : Option (List Byte)) : (yardDone r s).palN = s.palN := rfl
@[simp] theorem yardDone_fbLen (r : Option (List Byte)) : (yardDone r s).fbLen = s.fbLen := rfl
@[simp] theorem yardDone_seq (r : Option (List Byte)) : (yardDone r s).seq = s.seq := rfl
@[simp] theorem yardDone_dfr (r : Option (List Byte)) : (yardDone r s).dfr = s.dfr := rfl
@[simp] theorem yardDone_lzd (r : Option (List Byte)) : (yardDone r s).lzd = s.lzd := rfl
@[simp] theorem yardDone_ser (r : Option (List Byte)) : (yardDone r s).ser = s.ser := rfl
@[simp] theorem yardDone_fb (r : Option (List Byte)) : (yardDone r s).fb = s.fb := rfl
@[simp] theorem yardDone_pal (r : Option (List Byte)) : (yardDone r s).pal = s.pal := rfl
@[simp] theorem yardDone_dict (r : Option (List Byte)) : (yardDone r s).dict = s.dict := rfl
@[simp] theorem yardDone_dfrbuf (r : Option (List Byte)) : (yardDone r s).dfrbuf = s.dfrbuf := rfl
@[simp] theorem yardDone_env (r : Option (List Byte)) : (yardDone r s).env = s.env := rfl
@[simp] theorem yardDone_bus (r : Option (List Byte)) : (yardDone r s).bus = s.bus := rfl
@[simp] theorem yardDone_busRd (r : Option (List Byte)) : (yardDone r s).busRd = s.busRd := rfl
@[simp] theorem yardDone_pin (r : Option (List Byte)) : (yardDone r s).pin = s.pin := rfl
@[simp] theorem yardDone_gif (r : Option (List Byte)) : (yardDone r s).gif = s.gif := rfl
@[simp] theorem yardDone_yard (r : Option (List Byte)) : (yardDone r s).yard = { s.yard with st := .result r } := rfl
@[simp] theorem yardDone_cfg (r : Option (List Byte)) : (yardDone r s).cfg = s.cfg := rfl

/-! `blockReset` -/

@[simp] theorem blockReset_status : (blockReset s).status = State.reset.status := rfl
@[simp] theorem blockReset_errcode : (blockReset s).errcode = State.reset.errcode := rfl
@[simp] theorem blockReset_width : (blockReset s).width = State.reset.width := rfl
@[simp] theorem blockReset_height : (blockReset s).height = State.reset.height := rfl
@[simp] theorem blockReset_trns : (blockReset s).trns = State.reset.trns := rfl
@[simp] theorem blockReset_palN : (blockReset s).palN = State.reset.palN := rfl
@[simp] theorem blockReset_fbLen : (blockReset s).fbLen = State.reset.fbLen := rfl
@[simp] theorem blockReset_seq : (blockReset s).seq = State.reset.seq := rfl
@[simp] theorem blockReset_dfr : (blockReset s).dfr = State.reset.dfr := rfl
@[simp] theorem blockReset_lzd : (blockReset s).lzd = State.reset.lzd := rfl
@[simp] theorem blockReset_ser : (blockReset s).ser = State.reset.ser := rfl
@[simp] theorem blockReset_fb : (blockReset s).fb = State.reset.fb := rfl
@[simp] theorem blockReset_pal : (blockReset s).pal = State.reset.pal := rfl
@[simp] theorem blockReset_dict : (blockReset s).dict = State.reset.dict := rfl
@[simp] theorem blockReset_dfrbuf : (blockReset s).dfrbuf = State.reset.dfrbuf := rfl
@[simp] theorem blockReset_env : (blockReset s).env = s.env := rfl
@[simp] theorem blockReset_bus : (blockReset s).bus = s.bus := rfl
@[simp] theorem blockReset_busRd : (blockReset s).busRd = s.busRd := rfl
@[simp] theorem blockReset_pin : (blockReset s).pin = s.pin := rfl
@[simp] theorem blockReset_gif : (blockReset s).gif = s.gif := rfl
@[simp] theorem blockReset_yard : (blockReset s).yard = s.yard := rfl
@[simp] theorem blockReset_cfg : (blockReset s).cfg = s.cfg := rfl
/-! The code table (R321). -/

@[simp] theorem causeCode_badSignature : causeCode .badSignature = 0x11 := rfl
@[simp] theorem causeCode_badVersion : causeCode .badVersion = 0x12 := rfl
@[simp] theorem causeCode_badTag : causeCode .badTag = 0x13 := rfl
@[simp] theorem causeCode_badExt : causeCode .badExt = 0x14 := rfl
@[simp] theorem causeCode_paletteLength : causeCode .paletteLength = 0x15 := rfl
@[simp] theorem causeCode_noPalette : causeCode .noPalette = 0x16 := rfl
@[simp] theorem causeCode_lzwCodeSize : causeCode .lzwCodeSize = 0x17 := rfl
@[simp] theorem causeCode_lzwCode : causeCode .lzwCode = 0x18 := rfl
@[simp] theorem causeCode_badTerminator : causeCode .badTerminator = 0x19 := rfl
@[simp] theorem causeCode_sbLength : causeCode .sbLength = 0x21 := rfl
@[simp] theorem causeCode_sbPayload : causeCode .sbPayload = 0x22 := rfl
@[simp] theorem causeCode_fixedField : causeCode .fixedField = 0x23 := rfl
@[simp] theorem causeCode_inRead : causeCode .inRead = 0x31 := rfl
@[simp] theorem causeCode_outWrite : causeCode .outWrite = 0x32 := rfl
@[simp] theorem causeCode_openFile : causeCode .openFile = 0x33 := rfl
@[simp] theorem causeCode_sbTerminator : causeCode .sbTerminator = 0x41 := rfl
@[simp] theorem causeCode_lzwEoi : causeCode .lzwEoi = 0x42 := rfl
@[simp] theorem causeCode_badCmd : causeCode .badCmd = 0x51 := rfl
@[simp] theorem causeCode_errSticky : causeCode .errSticky = 0x52 := rfl
@[simp] theorem causeCode_fbCap : causeCode .fbCap = 0x53 := rfl
@[simp] theorem causeCode_badPalN : causeCode .badPalN = 0x54 := rfl
@[simp] theorem causeCode_palUnwritten : causeCode .palUnwritten = 0x55 := rfl
@[simp] theorem causeCode_badTrns : causeCode .badTrns = 0x56 := rfl
@[simp] theorem causeCode_badFbLen : causeCode .badFbLen = 0x57 := rfl
@[simp] theorem causeCode_chunkTooLong : causeCode .chunkTooLong = 0x58 := rfl

@[simp] theorem refuseCmd_eq (c : Cause) : refuseCmd c s = raiseExc c s := rfl

end Sys2Proof.Machine
end

