-- ==== Sys2Proof/Laws/Streams.lean ====
section
/-! SUPPORT. What the stream operations can do, said once: `InRead` and the host's reads, `OutWrite` and the serializer's writes. -/

namespace Sys2Proof.Machine

/-! ### Answers that may be a fault -/

@[simp] theorem Res.bind_ok {α β : Type} (a : α) (s : State) (f : α → State → Res β) : Res.bind (.ok a s) f = f a s := rfl

@[simp] theorem Res.bind_raised {α β : Type} (c : Cause) (s : State) (f : α → State → Res β) :
    Res.bind (.raised c s) f = .raised c s := rfl

@[simp] theorem settle_ok (s : State) : settle (.ok () s) = s := rfl
@[simp] theorem settle_raised (c : Cause) (s : State) : settle (.raised c s) = raiseExc c s := rfl
@[simp] theorem settleAt_ok (q : Seq) (s : State) : settleAt q (.ok () s) = { s with seq := q } := rfl
@[simp] theorem settleAt_raised (q : Seq) (c : Cause) (s : State) : settleAt q (.raised c s) = raiseExc c s := rfl

@[simp] theorem Res.state_ok {α : Type} (a : α) (s : State) : (Res.ok a s).state = s := rfl
@[simp] theorem Res.state_raised {α : Type} (c : Cause) (s : State) : (Res.raised c s : Res α).state = s := rfl

/-- An operation followed by another ends in the first one's fault, or where the second ends. -/
theorem Res.bind_cases {α β : Type} (r : Res α) (f : α → State → Res β) :
    (∃ c s, r = .raised c s ∧ Res.bind r f = .raised c s) ∨ (∃ a s, r = .ok a s ∧ Res.bind r f = f a s) := by
  cases r with
  | ok a s => exact .inr ⟨a, s, rfl, rfl⟩
  | raised c s => exact .inl ⟨c, s, rfl, rfl⟩

/-! ### The cursor -/

/-- From `s` to `t` only the cursor of `IN` and the answers still to come changed; the cursor moved forward and not past
the end. -/
structure CursorOnly (s t : State) : Prop where
  eq : t = { s with env := { s.env with inPos := t.env.inPos, inFails := t.env.inFails } }
  le : s.env.inPos ≤ t.env.inPos
  bound : s.env.inPos ≤ s.env.inData.length → t.env.inPos ≤ s.env.inData.length

theorem CursorOnly.refl (s : State) : CursorOnly s s := ⟨rfl, Nat.le_refl _, id⟩

theorem CursorOnly.inData {s t : State} (h : CursorOnly s t) : t.env.inData = s.env.inData := by rw [h.eq]

theorem CursorOnly.trans {s t u : State} (h : CursorOnly s t) (k : CursorOnly t u) : CursorOnly s u := by
  refine ⟨?_, Nat.le_trans h.le k.le, fun hb => ?_⟩
  · conv_lhs => rw [k.eq]
    conv_lhs => rw [h.eq]
  · have := k.bound (by rw [h.inData]; exact h.bound hb)
    rwa [h.inData] at this

theorem CursorOnly.inDraw (s : State) : CursorOnly s (inDraw s) := ⟨rfl, Nat.le_refl _, id⟩

/-- `InRead` in each of its three outcomes (R62). -/
theorem inRead_cases (s : State) :
    (s.env.inFails.headD false = true ∧ inRead s = (.fail, inDraw s)) ∨
    (s.env.inFails.headD false = false ∧ s.env.inData.length ≤ s.env.inPos ∧ inRead s = (.eos, inDraw s)) ∨
    (∃ b, s.env.inFails.headD false = false ∧ s.env.inData[s.env.inPos]? = some b ∧
      inRead s = (.byte b, afterIn 1 s)) := by
  unfold inRead
  cases h : s.env.inFails.headD false with
  | true => exact .inl ⟨rfl, by simp⟩
  | false =>
    right
    cases hb : s.env.inData[s.env.inPos]? with
    | none => exact .inl ⟨rfl, List.getElem?_eq_none_iff.1 hb, by simp⟩
    | some b => exact .inr ⟨b, rfl, rfl, by simp [inDraw, afterIn]⟩

theorem CursorOnly.afterIn_one {s : State} {b : Byte} (h : s.env.inData[s.env.inPos]? = some b) :
    CursorOnly s (afterIn 1 s) := by
  have hl : s.env.inPos < s.env.inData.length := (List.getElem?_eq_some_iff.1 h).1
  exact ⟨rfl, by simp, fun _ => hl⟩

theorem inRead_cursorOnly (s : State) : CursorOnly s (inRead s).2 := by
  rcases inRead_cases s with ⟨-, h⟩ | ⟨-, -, h⟩ | ⟨b, -, hb, h⟩ <;> rw [h]
  · exact .inDraw s
  · exact .inDraw s
  · exact .afterIn_one hb

/-! ### Reads that find their bytes -/

@[simp] theorem afterIn_zero (s : State) : afterIn 0 s = s := rfl

theorem afterIn_add (m n : Nat) (s : State) : afterIn n (afterIn m s) = afterIn (m + n) s := by
  simp [afterIn, Nat.add_assoc, List.drop_drop]

theorem inReady_zero {s : State} (h : s.env.inPos ≤ s.env.inData.length) : InReady 0 s := ⟨by simp, h⟩

theorem inReady_succ {n : Nat} {s : State} : InReady (n + 1) s ↔ InReady 1 s ∧ InReady n (afterIn 1 s) := by
  unfold InReady
  cases hf : s.env.inFails with
  | nil => simp [hf]; omega
  | cons f fs => 
    simp [hf, and_assoc]
    exact fun _ => ⟨fun ⟨a, b⟩ => ⟨by omega, a, by omega⟩, fun ⟨_, a, b⟩ => ⟨a, by omega⟩⟩

theorem inReady_add {m n : Nat} {s : State} (h : InReady (m + n) s) : InReady m s ∧ InReady n (afterIn m s) := by
  induction m generalizing s with
  | zero => exact ⟨inReady_zero (Nat.le_trans (Nat.le_add_right _ _) h.2), by simpa using h⟩
  | succ m ih =>
    rw [Nat.add_right_comm, inReady_succ] at h
    obtain ⟨h1, h2⟩ := ih h.2
    exact ⟨inReady_succ.2 ⟨h.1, h1⟩, by rwa [afterIn_add, Nat.add_comm 1 m] at h2⟩

theorem InReady.headD {n : Nat} {s : State} (h : InReady (n + 1) s) : s.env.inFails.headD false = false := by
  obtain ⟨h, -⟩ := h
  cases hf : s.env.inFails with
  | nil => rfl
  | cons f fs => simp [hf] at h; simp [h.1]

theorem InReady.byte {n : Nat} {s : State} (h : InReady (n + 1) s) : ∃ b, s.env.inData[s.env.inPos]? = some b :=
  ⟨_, List.getElem?_eq_getElem (by have := h.2; omega)⟩

/-- With the draws exhausted, only the bytes have to be there. -/
theorem inReady_of_drop {s : State} {bs rest : List Byte} (hf : s.env.inFails = [])
    (h : s.env.inData.drop s.env.inPos = bs ++ rest) (hb : bs ≠ []) : InReady bs.length s := by
  refine ⟨by simp [hf], ?_⟩
  have := congrArg List.length h
  have h1 : 0 < bs.length := List.length_pos_iff.2 hb
  simp at this; omega

theorem nextIn_of_drop {s : State} {bs rest : List Byte} (h : s.env.inData.drop s.env.inPos = bs ++ rest) :
    nextIn bs.length s = bs := by simp [nextIn, h]

theorem afterIn_drop {s : State} {bs rest : List Byte} (h : s.env.inData.drop s.env.inPos = bs ++ rest) :
    (afterIn bs.length s).env.inData.drop (afterIn bs.length s).env.inPos = rest := by
  have := congrArg (List.drop bs.length) h
  simpa [List.drop_drop] using this

theorem inRead_ready {s : State} {b : Byte} (hf : s.env.inFails.headD false = false)
    (hb : s.env.inData[s.env.inPos]? = some b) : inRead s = (.byte b, afterIn 1 s) := by
  rcases inRead_cases s with ⟨h, -⟩ | ⟨-, h, -⟩ | ⟨c, -, hc, h⟩
  · simp only [h] at hf; simp at hf
  · exact absurd hb (by simp [List.getElem?_eq_none_iff.2 h])
  · rw [hb] at hc; cases hc; exact h

theorem nextIn_succ {n : Nat} {s : State} {b : Byte} (hb : s.env.inData[s.env.inPos]? = some b) :
    nextIn (n + 1) s = b :: nextIn n (afterIn 1 s) := by
  obtain ⟨h, rfl⟩ := List.getElem?_eq_some_iff.1 hb
  simp only [nextIn, afterIn_env]
  rw [List.drop_eq_getElem_cons h, List.take_succ_cons]

theorem nextIn_length {n : Nat} {s : State} (h : InReady n s) : (nextIn n s).length = n := by
  have := h.2
  simp [nextIn]; omega

theorem nextIn_getElem? {n k : Nat} {s : State} (h : k < n) : (nextIn n s)[k]? = s.env.inData[s.env.inPos + k]? := by
  simp [nextIn, h]

/-- `HRead(n)` with its bytes there (R282). -/
theorem hRead_ready {n : Nat} {s : State} (h : InReady n s) : hRead n s = .ok (nextIn n s) (afterIn n s) := by
  induction n generalizing s with
  | zero => simp [hRead, nextIn]
  | succ n ih =>
    obtain ⟨b, hb⟩ := h.byte
    simp only [hRead, inRead_ready h.headD hb, ih (inReady_succ.1 h).2, Res.bind_ok, afterIn_add, nextIn_succ hb,
      Nat.add_comm 1 n]

/-- Whatever `HRead` answers, only the cursor moved. -/
theorem hRead_cursorOnly (n : Nat) (s : State) : CursorOnly s (hRead n s).state := by
  induction n generalizing s with
  | zero => exact .refl s
  | succ n ih =>
    simp only [hRead]
    rcases inRead_cases s with ⟨-, h⟩ | ⟨-, -, h⟩ | ⟨b, -, hb, h⟩ <;> rw [h]
    · exact .inDraw s
    · exact .inDraw s
    · have hr := ih (afterIn 1 s)
      cases hh : hRead n (afterIn 1 s) <;> rw [hh] at hr <;> simp only [hh, Res.bind_ok, Res.bind_raised] <;>
        exact (CursorOnly.afterIn_one hb).trans hr

/-! ### Writes -/

/-- `OutWrite` appends its byte, or fails and appends nothing (R63). -/
theorem outWrite_cases (b : Byte) (s : State) :
    (s.env.outFails.headD false = true ∧
      outWrite b s = (false, { s with env := { s.env with outFails := s.env.outFails.tail } })) ∨
    (s.env.outFails.headD false = false ∧
      outWrite b s = (true, { s with env := { s.env with outFails := s.env.outFails.tail, out := s.env.out ++ [b] } })) := by
  unfold outWrite
  cases h : s.env.outFails.headD false
  · exact .inr ⟨rfl, by simp⟩
  · exact .inl ⟨rfl, by simp⟩

theorem OutReady.headD {s : State} (h : OutReady s) : s.env.outFails.headD false = false := by
  unfold OutReady at h
  cases hf : s.env.outFails with
  | nil => rfl
  | cons f fs => simp [hf] at h; simp [h.1]

theorem outReady_drop {s t : State} {n : Nat} (h : OutReady s) (ht : t.env.outFails = s.env.outFails.drop n) : OutReady t := by
  unfold OutReady at *
  rw [ht]
  exact List.all_eq_true.2 (fun x hx => List.all_eq_true.1 h x (List.mem_of_mem_drop hx))

/-- `OUT` has `bs` appended, and `n` of the answers to come are used up. -/
def wrote (bs : List Byte) (n : Nat) (s : State) : State :=
  { s with env := { s.env with out := s.env.out ++ bs, outFails := s.env.outFails.drop n } }

/-- The running checksum has taken `bs` in. -/
def summed (bs : List Byte) (s : State) : State := { s with ser := { s.ser with crc := bs.foldl crcByte s.ser.crc } }

@[simp] theorem wrote_nil (s : State) : wrote [] 0 s = s := by simp [wrote]
@[simp] theorem summed_nil (s : State) : summed [] s = s := rfl

theorem wrote_wrote (as bs : List Byte) (m n : Nat) (s : State) : wrote bs n (wrote as m s) = wrote (as ++ bs) (m + n) s := by
  simp [wrote, List.drop_drop]

theorem summed_summed (as bs : List Byte) (s : State) : summed bs (summed as s) = summed (as ++ bs) s := by
  simp [summed]

/-- The next `n` writes succeed. -/
def WritesOk (n : Nat) (s : State) : Prop := (s.env.outFails.take n).all (fun f => !f) = true

theorem FirstFailure.not_ok {j n : Nat} {s : State} (h : FirstFailure j s) (hj : j < n) : ¬ WritesOk n s := by
  intro hw
  have hm : true ∈ s.env.outFails.take n := List.mem_of_getElem? (by rw [List.getElem?_take_of_lt hj]; exact h.2)
  exact absurd (List.all_eq_true.1 hw true hm) (by decide)

theorem OutReady.writesOk {s : State} (h : OutReady s) (n : Nat) : WritesOk n s :=
  List.all_eq_true.2 (fun x hx => List.all_eq_true.1 h x (List.mem_of_mem_take hx))

theorem FirstFailure.not_ready {j : Nat} {s : State} (h : FirstFailure j s) : ¬ OutReady s :=
  fun hr => h.not_ok (Nat.lt_succ_self j) (hr.writesOk _)

/-- The first failure comes at one place only. -/
theorem FirstFailure.unique {i j : Nat} {s : State} (hi : FirstFailure i s) (hj : FirstFailure j s) : i = j := by
  rcases Nat.lt_trichotomy i j with h | h | h
  · exact absurd hj.1 (hi.not_ok h)
  · exact h
  · exact absurd hi.1 (hj.not_ok h)

theorem WritesOk.add {m n : Nat} {s : State} {x : List Byte} (h : WritesOk m s) (k : WritesOk n (wrote x m s)) :
    WritesOk (m + n) s := by
  unfold WritesOk at *
  rw [List.take_add, List.all_append, h]
  exact k

theorem WritesOk.failure {m j : Nat} {s : State} {x : List Byte} (h : WritesOk m s) (k : FirstFailure j (wrote x m s)) :
    FirstFailure (m + j) s :=
  ⟨WritesOk.add h k.1, by have := k.2; simp only [wrote, List.getElem?_drop] at this; exact this⟩

theorem writesOk_one {s : State} (hf : s.env.outFails.headD false = false) : WritesOk 1 s := by
  unfold WritesOk
  cases h : s.env.outFails with
  | nil => rfl
  | cons f fs => rw [h] at hf; simp at hf; simp [hf]

theorem firstFailure_zero {s : State} (hf : s.env.outFails.headD false = true) : FirstFailure 0 s := by
  refine ⟨rfl, ?_⟩
  cases h : s.env.outFails with
  | nil => rw [h] at hf; cases hf
  | cons f fs => rw [h] at hf; simp at hf; simp [hf]

/-- `OutWriteAll`: everything is written, or the bytes before the first write that fails, and the fault (R9, R208). -/
theorem outWriteAll_cases (bs : List Byte) (s : State) :
    (WritesOk bs.length s ∧ outWriteAll bs s = .ok () (wrote bs bs.length s)) ∨
    ∃ j, j < bs.length ∧ FirstFailure j s ∧ outWriteAll bs s = .raised .outWrite (wrote (bs.take j) (j + 1) s) := by
  induction bs generalizing s with
  | nil => exact .inl ⟨rfl, by simp [outWriteAll]⟩
  | cons b bs ih =>
    simp only [outWriteAll]
    rcases outWrite_cases b s with ⟨hf, h⟩ | ⟨hf, h⟩ <;> rw [h]
    · exact .inr ⟨0, by simp, firstFailure_zero hf, by simp [wrote]⟩
    · have e : ({ s with env := { s.env with outFails := s.env.outFails.tail, out := s.env.out ++ [b] } } : State) =
          wrote [b] 1 s := by simp [wrote]
      rw [e]
      rcases ih (wrote [b] 1 s) with ⟨h1, h2⟩ | ⟨j, h1, h2, h3⟩
      · refine .inl ⟨?_, by simp only [h2, wrote_wrote, List.singleton_append, List.length_cons, Nat.add_comm 1]⟩
        rw [List.length_cons, Nat.add_comm]
        exact (writesOk_one hf).add h1
      · refine .inr ⟨1 + j, by simp; omega, (writesOk_one hf).failure h2, ?_⟩
        simp only [h3, wrote_wrote, List.singleton_append, Nat.add_assoc, Nat.add_comm 1 j, List.take_succ_cons, Nat.add_left_comm]

/-- Bytes into `OUT` and the checksum: all of them, or the bytes before the first write that fails, and the fault. -/
theorem emitCrc_cases (bs : List Byte) (s : State) :
    (WritesOk bs.length s ∧ emitCrc bs s = .ok () (summed bs (wrote bs bs.length s))) ∨
    ∃ j, j < bs.length ∧ FirstFailure j s ∧
      emitCrc bs s = .raised .outWrite (summed (bs.take j) (wrote (bs.take j) (j + 1) s)) := by
  induction bs generalizing s with
  | nil => exact .inl ⟨rfl, by simp [emitCrc]⟩
  | cons b bs ih =>
    simp only [emitCrc]
    rcases outWrite_cases b s with ⟨hf, h⟩ | ⟨hf, h⟩ <;> rw [h]
    · exact .inr ⟨0, by simp, firstFailure_zero hf, by simp [wrote]⟩
    · have e : crcUpdate b ({ s with env := { s.env with outFails := s.env.outFails.tail, out := s.env.out ++ [b] } } : State) =
          summed [b] (wrote [b] 1 s) := by simp [wrote, summed, crcUpdate]
      simp only [e]
      rcases ih (summed [b] (wrote [b] 1 s)) with ⟨h1, h2⟩ | ⟨j, h1, h2, h3⟩
      · refine .inl ⟨?_, ?_⟩
        · rw [List.length_cons, Nat.add_comm]
          exact (writesOk_one hf).add (x := [b]) h1
        · rw [h2]
          simp [wrote, summed]
      · refine .inr ⟨1 + j, by simp; omega, (writesOk_one hf).failure (x := [b]) h2, ?_⟩
        rw [h3, Nat.add_comm 1 j, List.take_succ_cons]
        simp [wrote, summed]

end Sys2Proof.Machine
end

