-- ==== Sys2Proof/Laws/Gif.lean ====
section
/-! SUPPORT. What the container parser's operations can do: they move the cursor, and change the host's own variables, its pending
actions and the files; nothing of the block. -/

namespace Sys2Proof.Machine

/-! ### The readers move the cursor only (R282) -/

theorem CursorOnly.bind {α β : Type} {s : State} {r : Res α} {f : α → State → Res β} (h : CursorOnly s r.state)
    (hf : ∀ a u, r = .ok a u → CursorOnly u (f a u).state) : CursorOnly s (Res.bind r f).state := by
  cases r with
  | ok a u => exact h.trans (hf a u rfl)
  | raised c u => exact h

theorem hSkipPayload_cursorOnly (n : Nat) (s : State) : CursorOnly s (hSkipPayload n s).state := by
  induction n generalizing s with
  | zero => exact .refl s
  | succ n ih =>
    rw [hSkipPayload]
    have h := inRead_cursorOnly s
    rcases hr : inRead s with ⟨b | _ | _, u⟩ <;> rw [hr] at h
    · exact h.trans (ih u)
    · exact h
    · exact h

theorem hSkipSub_cursorOnly (s : State) : CursorOnly s (hSkipSub s).state := by
  rw [hSkipSub]
  have h := inRead_cursorOnly s
  rcases hr : inRead s with ⟨b | _ | _, u⟩ <;> rw [hr] at h
  · exact h.trans (.bind (hSkipPayload_cursorOnly b.toNat u) (fun _ v _ => .refl v))
  · exact h
  · exact h

theorem hSkipSeq_cursorOnly (k : Nat) (s : State) : CursorOnly s (hSkipSeq k s).state := by
  induction k generalizing s with
  | zero => exact .refl s
  | succ k ih =>
    rw [hSkipSeq]
    refine .bind (hSkipSub_cursorOnly s) (fun len u _ => ?_)
    split
    · exact .refl u
    · exact ih u

theorem hSkipVar_cursorOnly (s : State) : CursorOnly s (hSkipVar s).state := by
  unfold hSkipVar
  cases s.cfg.extTerm with
  | literal => exact .bind (hSkipSub_cursorOnly s) (fun _ u _ => .refl u)
  | consume => exact hSkipSeq_cursorOnly _ s

theorem hTerm_cursorOnly (s : State) : CursorOnly s (hTerm s).state := by
  refine .bind (hRead_cursorOnly 1 s) (fun bs u _ => ?_)
  split <;> exact .refl u

theorem readPalette_cursorOnly (n : Nat) (s : State) : CursorOnly s (readPalette n s).state := by
  refine .bind (hRead_cursorOnly _ s) (fun bs u _ => ?_)
  split <;> exact .refl u

theorem skipFixed_cursorOnly (n : Nat) (s : State) : CursorOnly s (skipFixed n s).state :=
  .bind (hRead_cursorOnly 1 s) (fun _ u _ => .bind (hRead_cursorOnly n u) (fun _ v _ => hSkipVar_cursorOnly v))

/-! ### The host's own changes -/

/-- From `s` to `t` only the cursor, the draws of `IN`, the host's pending actions and the host's variables changed. -/
structure HostOnly (s t : State) : Prop where
  eq : t = { s with
    env := { s.env with inPos := t.env.inPos, inFails := t.env.inFails }, bus := t.bus, gif := t.gif }
  le : s.env.inPos ≤ t.env.inPos
  bound : s.env.inPos ≤ s.env.inData.length → t.env.inPos ≤ s.env.inData.length

theorem HostOnly.refl (s : State) : HostOnly s s := ⟨rfl, Nat.le_refl _, id⟩

theorem HostOnly.inData {s t : State} (h : HostOnly s t) : t.env.inData = s.env.inData := by rw [h.eq]

theorem HostOnly.trans {s t u : State} (h : HostOnly s t) (k : HostOnly t u) : HostOnly s u := by
  refine ⟨?_, Nat.le_trans h.le k.le, fun hb => ?_⟩
  · conv_lhs => rw [k.eq]
    conv_lhs => rw [h.eq]
  · have := k.bound (by rw [h.inData]; exact h.bound hb)
    rwa [h.inData] at this

theorem CursorOnly.hostOnly {s t : State} (h : CursorOnly s t) : HostOnly s t :=
  ⟨by conv_lhs => rw [h.eq]
      rw [show t.bus = s.bus by rw [h.eq], show t.gif = s.gif by rw [h.eq]], h.le, h.bound⟩

/-- A change of the host's variables alone. -/
theorem HostOnly.of_gif (s : State) (g : GifHost) : HostOnly s { s with gif := g } := ⟨rfl, Nat.le_refl _, id⟩

theorem HostOnly.bind {α β : Type} {s : State} {r : Res α} {f : α → State → Res β} (h : HostOnly s r.state)
    (hf : ∀ a u, r = .ok a u → HostOnly u (f a u).state) : HostOnly s (Res.bind r f).state := by
  cases r with
  | ok a u => exact h.trans (hf a u rfl)
  | raised c u => exact h

theorem hostAt_hostOnly {s : State} (q : GifPhase) {r : Res Unit} (h : HostOnly s r.state) : HostOnly s (hostAt q r) := by
  cases r with
  | ok _ u => exact h.trans (.of_gif u _)
  | raised c u => exact h.trans (.of_gif u _)

theorem hostEnd_hostOnly {s : State} {r : Res Unit} (h : HostOnly s r.state) : HostOnly s (hostEnd r) := by
  cases r with
  | ok _ u => exact h
  | raised c u => exact h.trans (.of_gif u _)

theorem gifScreen_hostOnly (s : State) : HostOnly s (gifScreen s).state := by
  refine .bind (hRead_cursorOnly 7 s).hostOnly (fun d u _ => ?_)
  split
  · exact (HostOnly.of_gif u _).trans (.bind (readPalette_cursorOnly _ (setScreen d u)).hostOnly (fun p v _ => .of_gif v _))
  · exact .of_gif u _

theorem gifHeader_hostOnly (s : State) : HostOnly s (gifHeader s).state := by
  refine .bind (hRead_cursorOnly 6 s).hostOnly (fun h u _ => ?_)
  split
  · exact .refl u
  · exact gifScreen_hostOnly u

theorem localPalette_cursorOnly (flags : Byte) (s : State) : CursorOnly s (localPalette flags s).state := by
  unfold localPalette
  split
  · exact .bind (readPalette_cursorOnly _ s) (fun _ u _ => .refl u)
  · exact .refl s

theorem gifImage_hostOnly (s : State) : HostOnly s (gifImage s).state := by
  refine .bind (hRead_cursorOnly 1 s).hostOnly (fun _ u _ => .bind (hRead_cursorOnly 9 u).hostOnly (fun d v _ => ?_))
  refine (HostOnly.of_gif v _).trans (.bind (localPalette_cursorOnly _ (setDescriptor d v)).hostOnly (fun loc w _ => ?_))
  split
  · exact .refl w
  · exact ⟨rfl, Nat.le_refl _, id⟩

theorem extGce_hostOnly (s : State) : HostOnly s (Res.bind (hRead 1 s) (fun _ s1 =>
    Res.bind (hRead 4 s1) (fun g s2 =>
      match s2.cfg.extTerm with
      | .consume => hTerm (setControl g s2)
      | .literal => .ok () (setControl g s2)))).state := by
  refine .bind (hRead_cursorOnly 1 s).hostOnly (fun _ u _ => .bind (hRead_cursorOnly 4 u).hostOnly (fun g v _ => ?_))
  have h : HostOnly v (setControl g v) := .of_gif v _
  split
  · exact h.trans (hTerm_cursorOnly _).hostOnly
  · exact h

/-! ### The moves between the tokens -/

/-- From `s` to `t` only `IN`'s cursor, the environment's draws, the sinks, the host's pending actions and variables changed. -/
structure FilesOnly (s t : State) : Prop where
  eq : t = { s with
    env := { t.env with inData := s.env.inData, outFails := s.env.outFails }, bus := t.bus, gif := t.gif }
  le : s.env.inPos ≤ t.env.inPos
  bound : s.env.inPos ≤ s.env.inData.length → t.env.inPos ≤ s.env.inData.length

theorem FilesOnly.inData {s t : State} (h : FilesOnly s t) : t.env.inData = s.env.inData := by rw [h.eq]

theorem FilesOnly.trans {s t u : State} (h : FilesOnly s t) (k : FilesOnly t u) : FilesOnly s u := by
  refine ⟨?_, Nat.le_trans h.le k.le, fun hb => ?_⟩
  · have e := k.eq
    rw [h.eq] at e
    exact e
  · have := k.bound (by rw [h.inData]; exact h.bound hb)
    rwa [h.inData] at this

theorem HostOnly.filesOnly {s t : State} (h : HostOnly s t) : FilesOnly s t := by
  refine ⟨?_, h.le, h.bound⟩
  have h1 : t.env = { t.env with inData := s.env.inData, outFails := s.env.outFails } := by
    rw [h.eq]
  rw [← h1]
  conv_lhs => rw [h.eq]
  have h2 : t.env = { s.env with inPos := t.env.inPos, inFails := t.env.inFails } := by rw [h.eq]
  rw [← h2]

/-- An opening uses up one answer of the environment, and fails or does not (R309). -/
theorem openDraw_cases (s : State) :
    (s.env.openFails.headD false = true ∧
      openDraw s = (false, { s with env := { s.env with openFails := s.env.openFails.tail } })) ∨
    (s.env.openFails.headD false = false ∧
      openDraw s = (true, { s with env := { s.env with openFails := s.env.openFails.tail } })) := by
  unfold openDraw
  cases s.env.openFails.headD false
  · exact .inr ⟨rfl, rfl⟩
  · exact .inl ⟨rfl, rfl⟩

theorem gifStart_filesOnly (base : List Byte) (s : State) : FilesOnly s (gifStart base s) := by
  unfold gifStart openDraw
  cases s.env.openFails.headD false <;> exact ⟨rfl, Nat.le_refl _, id⟩

theorem gifAfterDecode_filesOnly (p : List Rgb) (s : State) : FilesOnly s (gifAfterDecode p s) := by
  unfold gifAfterDecode
  split <;> exact ⟨rfl, Nat.le_refl _, id⟩

theorem gifOpen_filesOnly (s : State) : FilesOnly s (gifOpen s) := by
  unfold gifOpen openDraw
  cases s.env.openFails.headD false <;> exact ⟨rfl, Nat.le_refl _, id⟩

theorem gifAfterEncode_filesOnly (s : State) : FilesOnly s (gifAfterEncode s) := by
  unfold gifAfterEncode
  split
  · exact ⟨rfl, Nat.le_refl _, id⟩
  · have h1 : FilesOnly s (carryTrns (closeOut s)) := by
      unfold carryTrns
      split <;> exact ⟨rfl, Nat.le_refl _, id⟩
    exact h1.trans (hostAt_hostOnly .tag (hTerm_cursorOnly (carryTrns (closeOut s))).hostOnly).filesOnly

end Sys2Proof.Machine
end

