-- ==== Sys2Proof/Laws/Memory.lean ====
section
/-! SUPPORT. The laws of the memory operations: a read after a write, the canonical form, and that the form is canonical. -/

namespace Sys2Proof.Machine

variable {α : Type}

/-! ### One cell -/

@[simp] theorem Memory.read_nil (a : Nat) : Memory.read ([] : Memory α) a = none := rfl

theorem Memory.read_write (m : Memory α) (a b : Nat) (v : α) :
    Memory.read (Memory.write m a v) b = if b = a then some v else Memory.read m b := by
  induction m with
  | nil => simp [Memory.write, Memory.read]
  | cons c m ih =>
    obtain ⟨k, w⟩ := c
    simp only [Memory.write]
    split_ifs with h1 h2 h3 h4 h5 <;> simp_all [Memory.read]

@[simp] theorem Memory.read_write_same (m : Memory α) (a : Nat) (v : α) :
    Memory.read (Memory.write m a v) a = some v := by simp [Memory.read_write]

theorem Memory.read_write_other (m : Memory α) {a b : Nat} (v : α) (h : b ≠ a) :
    Memory.read (Memory.write m a v) b = Memory.read m b := by simp [Memory.read_write, h]

/-! ### Consecutive cells -/

theorem Memory.read_writeList (vs : List α) (m : Memory α) (a b : Nat) :
    Memory.read (Memory.writeList m a vs) b =
      if a ≤ b ∧ b < a + vs.length then vs[b - a]? else Memory.read m b := by
  induction vs generalizing m a with
  | nil => simp [Memory.writeList]
  | cons v vs ih =>
    simp only [Memory.writeList, ih, Memory.read_write, List.length_cons]
    by_cases hb : b = a
    · subst hb; simp
    · by_cases h : a + 1 ≤ b ∧ b < a + 1 + vs.length
      · rw [if_pos h, if_pos (by omega), show b - a = (b - (a + 1)) + 1 by omega]; simp
      · rw [if_neg h, if_neg hb, if_neg (by omega)]

theorem Memory.readList_spec {m : Memory α} {n a : Nat} {vs : List α} (h : Memory.readList m a n = some vs) :
    vs.length = n ∧ ∀ k, k < n → Memory.read m (a + k) = vs[k]? := by
  induction n generalizing a vs with
  | zero => simp [Memory.readList] at h; simp [← h]
  | succ n ih =>
    simp only [Memory.readList] at h
    split at h
    · rename_i v ws hv hws
      obtain ⟨hl, hr⟩ := ih hws
      cases h
      refine ⟨by simp [hl], fun k hk => ?_⟩
      cases k with
      | zero => simpa using hv
      | succ k => simpa [Nat.add_assoc, Nat.add_comm 1 k] using hr k (by omega)
    · cases h

theorem Memory.readList_isSome {m : Memory α} {n a : Nat} (h : ∀ k, k < n → (Memory.read m (a + k)).isSome = true) :
    ∃ vs, Memory.readList m a n = some vs := by
  induction n generalizing a with
  | zero => exact ⟨[], rfl⟩
  | succ n ih =>
    obtain ⟨v, hv⟩ := Option.isSome_iff_exists.1 (h 0 (by omega))
    obtain ⟨vs, hvs⟩ := ih (a := a + 1) (fun k hk => by simpa [Nat.add_assoc, Nat.add_comm 1 k] using h (k + 1) (by omega))
    exact ⟨v :: vs, by simp only [Nat.add_zero] at hv; simp [Memory.readList, hv, hvs]⟩

/-! ### The canonical form -/

theorem Memory.wf_cons {a : Nat} {v : α} {m : Memory α} :
    Memory.wf ((a, v) :: m) = true ↔ (∀ c ∈ m, a < c.1) ∧ Memory.wf m = true := by
  induction m generalizing a v with
  | nil => simp [Memory.wf]
  | cons c m ih =>
    obtain ⟨b, w⟩ := c
    simp only [Memory.wf, Bool.and_eq_true, decide_eq_true_eq, ih, List.mem_cons, forall_eq_or_imp]
    constructor
    · rintro ⟨h1, h2, h3⟩; exact ⟨⟨h1, fun c hc => Nat.lt_trans h1 (h2 c hc)⟩, h2, h3⟩
    · rintro ⟨⟨h1, -⟩, h2, h3⟩; exact ⟨h1, h2, h3⟩

theorem Memory.mem_write {m : Memory α} {a : Nat} {v : α} {c : Nat × α} (h : c ∈ Memory.write m a v) :
    c = (a, v) ∨ c ∈ m := by
  induction m with
  | nil => simpa [Memory.write] using h
  | cons d m ih =>
    obtain ⟨b, w⟩ := d
    simp only [Memory.write] at h
    split_ifs at h
    · simpa using h
    · rcases List.mem_cons.1 h with h | h
      · exact .inl h
      · exact .inr (List.mem_cons_of_mem _ h)
    · rcases List.mem_cons.1 h with h | h
      · exact .inr (by simp [h])
      · exact (ih h).imp id (List.mem_cons_of_mem _)

/-- A write keeps the canonical form. -/
theorem Memory.wf_write {m : Memory α} (a : Nat) (v : α) (h : Memory.wf m = true) :
    Memory.wf (Memory.write m a v) = true := by
  induction m with
  | nil => rfl
  | cons d m ih =>
    obtain ⟨b, w⟩ := d
    have hd := Memory.wf_cons.1 h
    simp only [Memory.write]
    split_ifs with h1 h2
    · refine Memory.wf_cons.2 ⟨fun c hc => ?_, h⟩
      rcases List.mem_cons.1 hc with rfl | hc
      · exact h1
      · exact Nat.lt_trans h1 (hd.1 c hc)
    · subst h2; exact Memory.wf_cons.2 hd
    · refine Memory.wf_cons.2 ⟨fun c hc => ?_, ih hd.2⟩
      rcases Memory.mem_write hc with rfl | hc
      · show b < a; omega
      · exact hd.1 c hc

theorem Memory.wf_writeList {m : Memory α} (a : Nat) (vs : List α) (h : Memory.wf m = true) :
    Memory.wf (Memory.writeList m a vs) = true := by
  induction vs generalizing m a with
  | nil => exact h
  | cons v vs ih => exact ih _ (Memory.wf_write a v h)

theorem Memory.below_write {m : Memory α} {n a : Nat} (v : α) (h : Memory.below n m = true) (ha : a < n) :
    Memory.below n (Memory.write m a v) = true := by
  simp only [Memory.below, List.all_eq_true, decide_eq_true_eq] at h ⊢
  intro c hc
  rcases Memory.mem_write hc with rfl | hc
  · exact ha
  · exact h c hc

theorem Memory.below_writeList {m : Memory α} {n a : Nat} (vs : List α) (h : Memory.below n m = true)
    (ha : a + vs.length ≤ n) : Memory.below n (Memory.writeList m a vs) = true := by
  induction vs generalizing m a with
  | nil => exact h
  | cons v vs ih =>
    simp only [List.length_cons] at ha
    exact ih (Memory.below_write v h (by omega)) (by omega)

theorem Memory.read_isSome_mem {m : Memory α} {a : Nat} {v : α} (h : Memory.read m a = some v) : (a, v) ∈ m := by
  induction m with
  | nil => simp at h
  | cons d m ih =>
    obtain ⟨b, w⟩ := d
    simp only [Memory.read] at h
    split_ifs at h with h1
    · cases h; simp [h1]
    · exact List.mem_cons_of_mem _ (ih h)

/-- Two memories in canonical form that read alike are the same list. -/
theorem Memory.ext {m n : Memory α} (hm : Memory.wf m = true) (hn : Memory.wf n = true)
    (h : ∀ a, Memory.read m a = Memory.read n a) : m = n := by
  induction m generalizing n with
  | nil =>
    cases n with
    | nil => rfl
    | cons d n => obtain ⟨b, w⟩ := d; have := h b; simp [Memory.read] at this
  | cons c m ih =>
    obtain ⟨a, v⟩ := c
    cases n with
    | nil => have := h a; simp [Memory.read] at this
    | cons d n =>
      obtain ⟨b, w⟩ := d
      obtain ⟨hm1, hm2⟩ := Memory.wf_cons.1 hm
      obtain ⟨hn1, hn2⟩ := Memory.wf_cons.1 hn
      have hab : a = b := by
        have ha := h a
        have hb := h b
        simp only [Memory.read, if_true] at ha hb
        by_contra hne
        rw [if_neg hne] at ha
        rw [if_neg (Ne.symm hne)] at hb
        have h1 := hn1 _ (Memory.read_isSome_mem ha.symm)
        have h2 := hm1 _ (Memory.read_isSome_mem hb)
        simp at h1 h2; omega
      subst hab
      have hv := h a
      simp only [Memory.read, if_true, Option.some.injEq] at hv
      subst hv
      rw [ih hm2 hn2 (fun x => ?_)]
      have hx := h x
      simp only [Memory.read] at hx
      by_cases hxa : x = a
      · have e1 : Memory.read m x = none := by
          rw [Option.eq_none_iff_forall_not_mem]
          intro w hw; have := hm1 _ (Memory.read_isSome_mem hw); simp at this; omega
        have e2 : Memory.read n x = none := by
          rw [Option.eq_none_iff_forall_not_mem]
          intro w hw; have := hn1 _ (Memory.read_isSome_mem hw); simp at this; omega
        rw [e1, e2]
      · rwa [if_neg hxa, if_neg hxa] at hx

/-- After reset no memory lists a cell. -/
theorem reset_memories_canonical :
    Memory.wf State.reset.fb = true ∧ Memory.wf State.reset.pal = true ∧ Memory.wf State.reset.dict = true ∧
      Memory.wf State.reset.dfrbuf = true := ⟨rfl, rfl, rfl, rfl⟩

end Sys2Proof.Machine
end

