-- ==== Sys2Proof/Laws/Dfr.lean ====
section
/-! SUPPORT. What the deframer's operations can do, said once. -/

namespace Sys2Proof.Machine

/-- `DFR.FILL`'s first line, in its three outcomes (R133). -/
theorem dfrLength_cases (s : State) :
    (s.env.inFails.headD false = true ∧ dfrLength s = .raised .inRead (dfrTrunc .inRead (inDraw s))) ∨
    (s.env.inFails.headD false = false ∧ s.env.inData.length ≤ s.env.inPos ∧
      dfrLength s = .raised .sbLength (dfrTrunc .sbLength (inDraw s))) ∨
    (∃ b, s.env.inFails.headD false = false ∧ s.env.inData[s.env.inPos]? = some b ∧ dfrLength s = .ok b (afterIn 1 s)) := by
  unfold dfrLength
  rcases inRead_cases s with ⟨h, e⟩ | ⟨h, h', e⟩ | ⟨b, h, h', e⟩ <;> rw [e]
  · exact .inl ⟨h, rfl⟩
  · exact .inr (.inl ⟨h, h', rfl⟩)
  · exact .inr (.inr ⟨b, h, h', rfl⟩)

/-- `k` bytes of a payload have been stored from cell `i` on. -/
def stored (i : Nat) (vs : List Byte) (s : State) : State :=
  { afterIn vs.length s with dfrbuf := Memory.writeList s.dfrbuf i vs }

/-- The payload loop of `DFR.FILL` in its three outcomes: all `n` bytes stored, or fewer and a fault (R133). -/
theorem dfrPayload_cases (n i : Nat) (s : State) :
    (∃ vs, vs.length = n ∧ CursorOnly s (afterIn n s) ∧ dfrPayload n i s = .ok () (stored i vs s)) ∨
    (∃ vs, vs.length < n ∧ CursorOnly s (afterIn vs.length s) ∧
      dfrPayload n i s = .raised .inRead (dfrTrunc .inRead (inDraw (stored i vs s)))) ∨
    (∃ vs, vs.length < n ∧ CursorOnly s (afterIn vs.length s) ∧
      dfrPayload n i s = .raised .sbPayload (dfrTruncPayload (inDraw (stored i vs s)))) := by
  induction n generalizing i s with
  | zero => exact .inl ⟨[], rfl, .refl s, rfl⟩
  | succ n ih =>
    simp only [dfrPayload]
    rcases inRead_cases s with ⟨h, e⟩ | ⟨h, h', e⟩ | ⟨b, h, h', e⟩ <;> rw [e]
    · exact .inr (.inl ⟨[], by simp, .refl s, rfl⟩)
    · exact .inr (.inr ⟨[], by simp, .refl s, rfl⟩)
    · have hc := CursorOnly.afterIn_one h'
      let s' : State := { afterIn 1 s with dfrbuf := Memory.write s.dfrbuf i b }
      have hst : ∀ vs, stored (i + 1) vs s' = stored i (b :: vs) s := fun vs => by
        simp [s', stored, afterIn, Memory.writeList, Nat.add_assoc, Nat.add_comm 1]
      have hcc : ∀ k, CursorOnly s' (afterIn k s') → CursorOnly s (afterIn (k + 1) s) := fun k hk => by
        have e1 : afterIn k (afterIn 1 s) = afterIn (k + 1) s := by rw [afterIn_add, Nat.add_comm]
        rw [← e1]
        exact hc.trans ⟨rfl, hk.le, hk.bound⟩
      rcases ih (i + 1) s' with ⟨vs, hl, hk, hr⟩ | ⟨vs, hl, hk, hr⟩ | ⟨vs, hl, hk, hr⟩ <;> rw [hst] at hr
      · exact .inl ⟨b :: vs, by simp [hl], hcc _ hk, hr⟩
      · exact .inr (.inl ⟨b :: vs, by simpa using hl, hcc _ hk, hr⟩)
      · exact .inr (.inr ⟨b :: vs, by simpa using hl, hcc _ hk, hr⟩)

/-- The payload loop with its bytes there. -/
theorem dfrPayload_ready {n i : Nat} {s : State} (h : InReady n s) : dfrPayload n i s = .ok () (stored i (nextIn n s) s) := by
  induction n generalizing i s with
  | zero => rfl
  | succ n ih =>
    obtain ⟨b, hb⟩ := h.byte
    have h2 := (inReady_succ.1 h).2
    simp only [dfrPayload, inRead_ready h.headD hb, nextIn_succ hb]
    refine (ih (i := i + 1) (s := { afterIn 1 s with dfrbuf := Memory.write s.dfrbuf i b }) h2).trans ?_
    have hn : nextIn n ({ afterIn 1 s with dfrbuf := Memory.write s.dfrbuf i b } : State) = nextIn n (afterIn 1 s) := rfl
    rw [hn]
    simp [stored, afterIn, Memory.writeList, Nat.add_assoc, Nat.add_comm 1]

/-- The payload loop after its first `k` bytes, which are there (R133). -/
theorem dfrPayload_prefix {n i k : Nat} {s : State} (hk : k < n) (h : InReady k s) :
    dfrPayload n i s = dfrPayload (n - k) (i + k) (stored i (nextIn k s) s) := by
  induction n generalizing i k s with
  | zero => omega
  | succ n ih =>
    cases k with
    | zero => rfl
    | succ k =>
      obtain ⟨b, hb⟩ := h.byte
      have h2 := (inReady_succ.1 h).2
      simp only [dfrPayload, inRead_ready h.headD hb, nextIn_succ hb]
      refine (ih (i := i + 1) (s := { afterIn 1 s with dfrbuf := Memory.write s.dfrbuf i b }) (by omega) h2).trans ?_
      have hn : nextIn k ({ afterIn 1 s with dfrbuf := Memory.write s.dfrbuf i b } : State) = nextIn k (afterIn 1 s) := rfl
      rw [hn, show n + 1 - (k + 1) = n - k by omega, show i + 1 + k = i + (k + 1) by omega]
      simp [stored, afterIn, Memory.writeList, Nat.add_assoc, Nat.add_comm 1]

/-- A cell of the buffer after a payload has been stored. -/
theorem read_stored (i a : Nat) (vs : List Byte) (s : State) :
    Memory.read (stored i vs s).dfrbuf a = if i ≤ a ∧ a < i + vs.length then vs[a - i]? else Memory.read s.dfrbuf a :=
  Memory.read_writeList vs s.dfrbuf i a

/-- The buffer and its registers in the shape every run keeps (R31, R44, R139). -/
structure DfrSound (s : State) : Prop where
  bounded : DfrBounded s
  filled : DfrFilled s
  wf : Memory.wf s.dfrbuf = true
  below : Memory.below 255 s.dfrbuf = true

/-- From `s` to `t` only the cursor, the deframer's registers and its buffer changed. -/
structure DfrOnly (s t : State) : Prop where
  eq : t = { s with
    env := { s.env with inPos := t.env.inPos, inFails := t.env.inFails }, dfr := t.dfr, dfrbuf := t.dfrbuf }
  le : s.env.inPos ≤ t.env.inPos
  bound : s.env.inPos ≤ s.env.inData.length → t.env.inPos ≤ s.env.inData.length

theorem DfrOnly.refl (s : State) : DfrOnly s s := ⟨rfl, Nat.le_refl _, id⟩

theorem DfrOnly.inData {s t : State} (h : DfrOnly s t) : t.env.inData = s.env.inData := by rw [h.eq]

theorem DfrOnly.trans {s t u : State} (h : DfrOnly s t) (k : DfrOnly t u) : DfrOnly s u := by
  refine ⟨?_, Nat.le_trans h.le k.le, fun hb => ?_⟩
  · conv_lhs => rw [k.eq]
    conv_lhs => rw [h.eq]
  · have := k.bound (by rw [h.inData]; exact h.bound hb)
    rwa [h.inData] at this

theorem CursorOnly.dfrOnly {s t : State} (h : CursorOnly s t) : DfrOnly s t :=
  ⟨by conv_lhs => rw [h.eq]
      rw [show t.dfr = s.dfr by rw [h.eq], show t.dfrbuf = s.dfrbuf by rw [h.eq]], h.le, h.bound⟩

/-- The two halves of `DFR.FILL` change the deframer and the cursor only. -/
theorem dfrLength_dfrOnly (s : State) : DfrOnly s (dfrLength s).state := by
  rcases dfrLength_cases s with ⟨-, e⟩ | ⟨-, -, e⟩ | ⟨b, -, hb, e⟩ <;> rw [e]
  · exact ⟨rfl, Nat.le_refl _, id⟩
  · exact ⟨rfl, Nat.le_refl _, id⟩
  · exact (CursorOnly.afterIn_one hb).dfrOnly

theorem dfrLoad_cases (len : Byte) (s : State) :
    (∃ vs, vs.length = len.toNat ∧ CursorOnly s (afterIn len.toNat s) ∧
      dfrLoad len s = .ok () { stored 0 vs s with dfr := { s.dfr with len := len.toNat, pos := 0 } }) ∨
    (∃ vs, vs.length < len.toNat ∧ CursorOnly s (afterIn vs.length s) ∧
      dfrLoad len s = .raised .inRead (dfrTrunc .inRead (inDraw (stored 0 vs s)))) ∨
    (∃ vs, vs.length < len.toNat ∧ CursorOnly s (afterIn vs.length s) ∧
      dfrLoad len s = .raised .sbPayload (dfrTruncPayload (inDraw (stored 0 vs s)))) := by
  unfold dfrLoad
  rcases dfrPayload_cases len.toNat 0 s with ⟨vs, h1, h2, e⟩ | ⟨vs, h1, h2, e⟩ | ⟨vs, h1, h2, e⟩ <;> rw [e]
  · exact .inl ⟨vs, h1, h2, rfl⟩
  · exact .inr (.inl ⟨vs, h1, h2, rfl⟩)
  · exact .inr (.inr ⟨vs, h1, h2, rfl⟩)

theorem dfrLoad_dfrOnly (len : Byte) (s : State) : DfrOnly s (dfrLoad len s).state := by
  rcases dfrLoad_cases len s with ⟨vs, h1, h2, e⟩ | ⟨vs, h1, h2, e⟩ | ⟨vs, h1, h2, e⟩ <;> rw [e]
  · rw [← h1] at h2; exact ⟨rfl, h2.le, h2.bound⟩
  · exact ⟨rfl, h2.le, h2.bound⟩
  · exact ⟨rfl, h2.le, h2.bound⟩

theorem dfrFill_dfrOnly (s : State) : DfrOnly s (dfrFill s).state := by
  unfold dfrFill
  have h := dfrLength_dfrOnly s
  cases hl : dfrLength s with
  | raised c u => rw [hl] at h; exact h
  | ok len u =>
    rw [hl] at h
    simp only [Res.bind_ok]
    split
    · exact h.trans ⟨rfl, Nat.le_refl _, id⟩
    · have h' := dfrLoad_dfrOnly len u
      cases hd : dfrLoad len u <;> rw [hd] at h' <;> exact h.trans h'

theorem dfrTake_dfrOnly (n : Nat) (s : State) : DfrOnly s (dfrTake n s).state := by
  unfold dfrTake
  split <;> exact ⟨rfl, Nat.le_refl _, id⟩

/-- A read request changes the deframer and the cursor only (R132). -/
theorem dfrRead_dfrOnly (n : Nat) (s : State) : DfrOnly s (dfrRead n s).state := by
  unfold dfrRead
  split
  · exact .refl s
  · exact .refl s
  · split_ifs
    · exact .refl s
    · have h := dfrFill_dfrOnly s
      cases hl : dfrFill s with
      | raised c u => rw [hl] at h; exact h
      | ok got u =>
        rw [hl] at h
        simp only [Res.bind_ok]
        split
        · exact h.trans (dfrTake_dfrOnly n u)
        · exact h
    · exact dfrTake_dfrOnly n s

/-- A request gives at most the bytes it asks for (R139). -/
theorem dfrTake_length {n : Nat} {s t : State} {bs : List Byte} (h : dfrTake n s = .ok (.data bs) t) : bs.length ≤ n := by
  unfold dfrTake at h
  split at h
  · rename_i x hx
    cases h
    unfold dfrSlice at hx
    split_ifs at hx
    have := (Memory.readList_spec hx).1
    omega
  · cases h

theorem dfrRead_length {n : Nat} {s t : State} {bs : List Byte} (h : dfrRead n s = .ok (.data bs) t) : bs.length ≤ n := by
  unfold dfrRead at h
  split at h
  · cases h
  · cases h
  · split_ifs at h
    · cases h; exact Nat.zero_le _
    · cases hf : dfrFill s with
      | raised c u => rw [hf] at h; cases h
      | ok got u =>
        rw [hf] at h
        cases got with
        | false => cases h
        | true => exact dfrTake_length h
    · exact dfrTake_length h

/-! ### The deframer neither reads nor writes the decompressor's registers -/

/-- The same answer, with other registers in LZD. -/
def Res.withLzd {α : Type} (l : Lzd) : Res α → Res α
  | .ok a s => .ok a { s with lzd := l }
  | .raised c s => .raised c { s with lzd := l }

theorem inRead_withLzd (l : Lzd) (s : State) :
    inRead { s with lzd := l } = ((inRead s).1, { (inRead s).2 with lzd := l }) := by
  simp only [inRead]
  split_ifs
  · rfl
  · cases s.env.inData[s.env.inPos]? <;> rfl

theorem dfrPayload_withLzd (l : Lzd) (n i : Nat) (s : State) :
    dfrPayload n i { s with lzd := l } = (dfrPayload n i s).withLzd l := by
  induction n generalizing i s with
  | zero => rfl
  | succ n ih =>
    rw [dfrPayload, dfrPayload, inRead_withLzd]
    rcases inRead s with ⟨a | _ | _, u⟩
    · exact ih (i + 1) { u with dfrbuf := Memory.write u.dfrbuf i a }
    · rfl
    · rfl

theorem dfrFill_withLzd (l : Lzd) (s : State) : dfrFill { s with lzd := l } = (dfrFill s).withLzd l := by
  rw [dfrFill, dfrFill, dfrLength, dfrLength, inRead_withLzd]
  rcases inRead s with ⟨a | _ | _, u⟩
  · simp only [Res.bind_ok]
    split_ifs
    · rfl
    · rw [dfrLoad, dfrLoad, dfrPayload_withLzd]
      cases dfrPayload a.toNat 0 u <;> rfl
  · rfl
  · rfl

theorem dfrTake_withLzd (l : Lzd) (n : Nat) (s : State) : dfrTake n { s with lzd := l } = (dfrTake n s).withLzd l := by
  simp only [dfrTake, dfrSlice]
  split_ifs
  · cases Memory.readList s.dfrbuf s.dfr.pos (min n (s.dfr.len - s.dfr.pos)) <;> rfl
  · rfl

theorem dfrRead_withLzd (l : Lzd) (n : Nat) (s : State) : dfrRead n { s with lzd := l } = (dfrRead n s).withLzd l := by
  simp only [dfrRead]
  cases s.dfr.st with
  | eof => rfl
  | trunc c => rfl
  | active =>
    simp only
    split_ifs
    · rfl
    · rw [dfrFill_withLzd]
      cases dfrFill s with
      | raised c u => rfl
      | ok got u =>
        cases got with
        | false => rfl
        | true => exact dfrTake_withLzd l n u
    · exact dfrTake_withLzd l n s

theorem dfrReads_withLzd (l : Lzd) (ns : List Nat) (s : State) :
    dfrReads ns { s with lzd := l } = (dfrReads ns s).withLzd l := by
  induction ns generalizing s with
  | nil => rfl
  | cons n ns ih =>
    simp only [dfrReads, dfrRead_withLzd]
    cases dfrRead n s with
    | raised c u => rfl
    | ok a u =>
      cases a with
      | eof => rfl
      | noValue => rfl
      | data bs =>
        simp only [Res.withLzd, ih]
        cases dfrReads ns u <;> rfl

/-! ### The deframer stays sound -/

theorem DfrSound.of_eq {s t : State} (h : DfrSound s) (h1 : t.dfr = s.dfr) (h2 : t.dfrbuf = s.dfrbuf) : DfrSound t :=
  ⟨by unfold DfrBounded; rw [h1]; exact h.bounded, by unfold DfrFilled; rw [h1, h2]; exact h.filled,
    by rw [h2]; exact h.wf, by rw [h2]; exact h.below⟩

/-- An empty buffer is sound whatever the cells hold. -/
theorem DfrSound.of_empty {s t : State} (h : DfrSound s) (h1 : t.dfr.len = 0) (h2 : t.dfr.pos = 0)
    (h3 : t.dfrbuf = s.dfrbuf) : DfrSound t :=
  ⟨⟨by omega, by omega⟩, fun _ i hi => by omega, by rw [h3]; exact h.wf, by rw [h3]; exact h.below⟩

theorem DfrSound.trunc {s : State} (c : Cause) (h : DfrSound s) : DfrSound (dfrTrunc c s) :=
  ⟨h.bounded, fun ha => by simp at ha, h.wf, h.below⟩

theorem DfrSound.stored_memory {s : State} (h : DfrSound s) {vs : List Byte} (hl : vs.length ≤ 255) :
    Memory.wf (stored 0 vs s).dfrbuf = true ∧ Memory.below 255 (stored 0 vs s).dfrbuf = true :=
  ⟨Memory.wf_writeList _ _ h.wf, Memory.below_writeList _ h.below (by omega)⟩

theorem dfrLoad_sound {len : Byte} {s : State} (h : DfrSound s) : DfrSound (dfrLoad len s).state := by
  have hlen : len.toNat ≤ 255 := by have := len.isLt; omega
  rcases dfrLoad_cases len s with ⟨vs, h1, -, e⟩ | ⟨vs, h1, -, e⟩ | ⟨vs, h1, -, e⟩ <;> rw [e]
  · obtain ⟨g1, g2⟩ := h.stored_memory (vs := vs) (by omega)
    refine ⟨⟨Nat.zero_le _, hlen⟩, fun _ i hi => ?_, g1, g2⟩
    show (Memory.read (stored 0 vs s).dfrbuf i).isSome = true
    have hi' : i < vs.length := by rw [h1]; exact hi
    rw [read_stored, if_pos ⟨Nat.zero_le _, by omega⟩, Nat.sub_zero, List.getElem?_eq_getElem hi']
    rfl
  · obtain ⟨g1, g2⟩ := h.stored_memory (vs := vs) (by omega)
    exact ⟨h.bounded, fun ha => by simp at ha, g1, g2⟩
  · obtain ⟨g1, g2⟩ := h.stored_memory (vs := vs) (by omega)
    exact ⟨⟨Nat.le_refl _, Nat.zero_le _⟩, fun ha => by simp at ha, g1, g2⟩

/-- A request on a sound buffer gives the buffered bytes from `dfr.pos` on (R132, R139). -/
theorem dfrTake_sound {n : Nat} {s : State} (h : DfrSound s) (ha : s.dfr.st = .active) :
    ∃ bs, dfrTake n s = .ok (.data bs) { s with dfr := { s.dfr with pos := s.dfr.pos + min n (s.dfr.len - s.dfr.pos) } } ∧
      bs.length = min n (s.dfr.len - s.dfr.pos) ∧ ∀ k, k < bs.length → Memory.read s.dfrbuf (s.dfr.pos + k) = bs[k]? := by
  have hb := h.bounded
  unfold DfrBounded at hb
  obtain ⟨bs, hbs⟩ := Memory.readList_isSome (m := s.dfrbuf) (n := min n (s.dfr.len - s.dfr.pos)) (a := s.dfr.pos)
    (fun k hk => h.filled ha _ (by omega))
  obtain ⟨hl, hr⟩ := Memory.readList_spec hbs
  refine ⟨bs, ?_, hl, fun k hk => hr k (by omega)⟩
  simp only [dfrTake, dfrSlice]
  rw [if_pos (by omega), hbs]

end Sys2Proof.Machine
end

