-- ==== Sys2Proof/Laws/Lzd.lean ====
section
/-! SUPPORT. What the decompressor's operations can do, said once: emitting, adding, forming a string, and the bit buffer. -/

namespace Sys2Proof.Machine

/-! ### Emitting and adding (R164, R165) -/

theorem lzdEmit_emitted (str : List Byte) (s : State) : Emitted str s (lzdEmit str s) := by
  have hl : (str.take (emitCount str s)).length = emitCount str s := by
    rw [List.length_take, emitCount]; omega
  refine ⟨rfl, fun k hk => ?_, fun a ha => ?_⟩
  · rw [lzdEmit_fb, Memory.read_writeList, hl, if_pos (by omega), Nat.add_sub_cancel_left, List.getElem?_take_of_lt hk]
  · rw [lzdEmit_fb, Memory.read_writeList, hl, if_neg (by omega)]

/-- `LZD.ADD` in its two outcomes: an entry, or nothing at all. -/
theorem lzdAdd_cases (k : Byte) (s : State) :
    (∃ p, s.lzd.prev = some p ∧ s.lzd.next < 4096 ∧ lzdAdd k s = { s with
      dict := Memory.write s.dict s.lzd.next { pre := p, suf := k }
      lzd := { s.lzd with
        next := s.lzd.next + 1
        cw := if s.lzd.next + 1 = 2 ^ s.lzd.cw ∧ s.lzd.cw < 12 then s.lzd.cw + 1 else s.lzd.cw } }) ∨
    ((s.lzd.prev = none ∨ 4096 ≤ s.lzd.next) ∧ lzdAdd k s = s) := by
  unfold lzdAdd
  cases hp : s.lzd.prev with
  | none => exact .inr ⟨.inl rfl, rfl⟩
  | some p =>
    by_cases hn : s.lzd.next < 4096
    · exact .inl ⟨p, rfl, hn, by simp [hn]⟩
    · exact .inr ⟨.inr (by omega), by simp [hn]⟩

theorem lzdAdd_extended (k : Byte) (s : State) : Extended k s (lzdAdd k s) := by
  unfold Extended
  rcases lzdAdd_cases k s with ⟨p, hp, hn, e⟩ | ⟨hp, e⟩ <;> rw [e]
  · rw [hp]
    simp only [hn, if_true]
    refine ⟨Memory.read_write_same _ _ _, fun a ha => Memory.read_write_other _ _ ha, ?_⟩; simp
  · split
    · exact ⟨rfl, rfl, rfl⟩
    · rename_i hq
      rcases hp with hp | hp
      · rw [hp] at hq; cases hq
      · rw [if_neg (by omega)]; exact ⟨rfl, rfl, rfl⟩

/-- `LZD.ADD` touches `DICT`, `next` and `cw` only. -/
theorem lzdAdd_frame (k : Byte) (s : State) : lzdAdd k s = { s with
    dict := (lzdAdd k s).dict, lzd := { s.lzd with next := (lzdAdd k s).lzd.next, cw := (lzdAdd k s).lzd.cw } } := by
  rcases lzdAdd_cases k s with ⟨p, hp, hn, e⟩ | ⟨hp, e⟩ <;> rw [e]

/-- What the three data classes leave: the string in `FB`, the entry in `DICT`, the code in `prev`, and nothing else. -/
theorem lzdPut_spec (str : List Byte) (first : Byte) (code : Code) (s : State) :
    Emitted str s (lzdPut str first code s) ∧ Extended first s (lzdPut str first code s) ∧
      DataFrame code s (lzdPut str first code s) := by
  have ha : lzdPut str first code s = setPrev code { lzdEmit str s with
      dict := (lzdAdd first (lzdEmit str s)).dict
      lzd := { (lzdEmit str s).lzd with
        next := (lzdAdd first (lzdEmit str s)).lzd.next, cw := (lzdAdd first (lzdEmit str s)).lzd.cw } } := by
    rw [lzdPut]
    conv_lhs => rw [lzdAdd_frame]
  have he := lzdEmit_emitted str s
  have hx : Extended first s (lzdAdd first (lzdEmit str s)) := lzdAdd_extended first (lzdEmit str s)
  refine ⟨?_, ?_, ?_⟩
  · rw [ha]; exact he
  · rw [ha]; exact hx
  · unfold DataFrame; rw [ha]; rfl

/-! ### Strings (R158) -/

/-- More fuel gives the same string. -/
theorem strAux_succ {s : State} {k : Nat} {c : Code} {bs : List Byte} (h : strAux s k c = some bs) :
    strAux s (k + 1) c = some bs := by
  induction k generalizing c bs with
  | zero => cases h
  | succ k ih =>
    rw [strAux] at h ⊢
    split_ifs at h ⊢ with hc
    · exact h
    · cases hd : dictCell s c.toNat with
      | none => rw [hd] at h; cases h
      | some e =>
        rw [hd] at h
        simp only [Option.map_eq_some_iff] at h ⊢
        obtain ⟨p, hp, hb⟩ := h
        exact ⟨p, ih hp, hb⟩

theorem strAux_mono {s : State} {k m : Nat} {c : Code} {bs : List Byte} (h : strAux s k c = some bs) (hm : k ≤ m) :
    strAux s m c = some bs := by
  induction m with
  | zero => rwa [Nat.le_zero.1 hm] at h
  | succ m ih =>
    rcases Nat.lt_or_ge m k with hk | hk
    · rwa [show m + 1 = k by omega]
    · exact strAux_succ (ih hk)

/-- The string of a code depends on `clear` and on the cells the code's chain goes through. -/
theorem strAux_congr {s t : State} (hc : t.lzd.clear = s.lzd.clear) {k : Nat} {c : Code} {bs : List Byte}
    (hd : ∀ a e, dictCell s a = some e → dictCell t a = some e) (h : strAux s k c = some bs) : strAux t k c = some bs := by
  induction k generalizing c bs with
  | zero => cases h
  | succ k ih =>
    rw [strAux] at h ⊢
    rw [hc]
    split_ifs at h ⊢ with hl
    · exact h
    · cases hd' : dictCell s c.toNat with
      | none => rw [hd'] at h; cases h
      | some e =>
        rw [hd'] at h
        simp only [hd _ _ hd', Option.map_eq_some_iff] at h ⊢
        obtain ⟨p, hp, hb⟩ := h
        exact ⟨p, ih hp, hb⟩

/-! ### The bit buffer (R156) -/

theorem or_shiftLeft_eq (a b n : Nat) (h : a < 2 ^ n) : a ||| (b <<< n) = a + 2 ^ n * b := by
  rw [Nat.or_comm, ← Nat.shiftLeft_add_eq_or_of_lt h, Nat.shiftLeft_eq]; ring

/-- A byte pushed above the bits held: the buffer's value and bound. -/
theorem pushByte_bitbuf {b : Byte} {s : State} (h : s.lzd.bitbuf < 2 ^ s.lzd.bitcnt) :
    (pushByte b s).lzd.bitbuf = s.lzd.bitbuf + 2 ^ s.lzd.bitcnt * b.toNat ∧
      (pushByte b s).lzd.bitbuf < 2 ^ (pushByte b s).lzd.bitcnt := by
  have e : (pushByte b s).lzd.bitbuf = s.lzd.bitbuf + 2 ^ s.lzd.bitcnt * b.toNat := by
    rw [pushByte_lzd]; exact or_shiftLeft_eq _ _ _ h
  refine ⟨e, ?_⟩
  rw [e, pushByte_lzd]
  show s.lzd.bitbuf + 2 ^ s.lzd.bitcnt * b.toNat < 2 ^ (s.lzd.bitcnt + 8)
  rw [Nat.pow_add]
  have hb : b.toNat < 256 := b.isLt
  have h1 : 2 ^ s.lzd.bitcnt * b.toNat + 2 ^ s.lzd.bitcnt ≤ 2 ^ s.lzd.bitcnt * 2 ^ 8 := by
    rw [← Nat.mul_succ]; exact Nat.mul_le_mul_left _ (by omega)
  omega

/-- A code taken off the buffer: the code below, the rest above. -/
theorem dropCode_bitbuf {s : State} (hc : s.lzd.cw ≤ 12) (hn : s.lzd.cw ≤ s.lzd.bitcnt)
    (h : s.lzd.bitbuf < 2 ^ s.lzd.bitcnt) :
    s.lzd.bitbuf = (codeInBuf s).toNat + 2 ^ s.lzd.cw * (dropCode s).lzd.bitbuf ∧
      (dropCode s).lzd.bitbuf < 2 ^ (dropCode s).lzd.bitcnt ∧ (codeInBuf s).toNat < 2 ^ s.lzd.cw := by
  have hp : 2 ^ s.lzd.cw ≤ 2 ^ 12 := Nat.pow_le_pow_right (by omega) hc
  have hm : s.lzd.bitbuf % 2 ^ s.lzd.cw < 2 ^ s.lzd.cw := Nat.mod_lt _ (Nat.two_pow_pos _)
  have e : (codeInBuf s).toNat = s.lzd.bitbuf % 2 ^ s.lzd.cw := by
    rw [codeInBuf, BitVec.toNat_ofNat, Nat.mod_eq_of_lt (by omega)]
  rw [e, dropCode_lzd]
  simp only [Nat.shiftRight_eq_div_pow]
  refine ⟨(Nat.mod_add_div _ _).symm, ?_, hm⟩
  rw [Nat.div_lt_iff_lt_mul (Nat.two_pow_pos _), ← Nat.pow_add, Nat.sub_add_cancel hn]
  exact h

end Sys2Proof.Machine
end

