-- ==== Sys2Proof/Laws/Ser.lean ====
section
/-! SUPPORT. What the serializer's operations can do: framing a chunk, the payloads, the filtered buffer; and the checksum units. -/

namespace Sys2Proof.Machine

/-! ### The checksum units -/

theorem foldl_crcUpdate (bs : List Byte) (s : State) : bs.foldl (fun t b => crcUpdate b t) s = summed bs s := by
  induction bs generalizing s with
  | nil => rfl
  | cons b bs ih => simp only [List.foldl_cons, ih]; rfl

theorem crcFinal_summed (bs : List Byte) (s : State) : crcFinal (summed bs (crcInit s)) = crc32 bs := rfl

theorem adlerStep_lt (a b : Nat) (x : Byte) : (adlerStep (a, b) x).1 < 65521 ∧ (adlerStep (a, b) x).2 < 65521 :=
  ⟨Nat.mod_lt _ (by omega), Nat.mod_lt _ (by omega)⟩

/-- The registers follow the sums of R225 step by step. -/
theorem foldl_adlerUpdate (bs : List Byte) (s : State) (h : s.ser.adlA.toNat < 65521 ∧ s.ser.adlB.toNat < 65521) :
    bs.foldl (fun t x => adlerUpdate x t) s = { s with ser := { s.ser with
      adlA := BitVec.ofNat 16 (bs.foldl adlerStep (s.ser.adlA.toNat, s.ser.adlB.toNat)).1
      adlB := BitVec.ofNat 16 (bs.foldl adlerStep (s.ser.adlA.toNat, s.ser.adlB.toNat)).2 } } := by
  induction bs generalizing s with
  | nil => simp
  | cons b bs ih =>
    obtain ⟨h1, h2⟩ := adlerStep_lt s.ser.adlA.toNat s.ser.adlB.toNat b
    have e1 : (BitVec.ofNat 16 (adlerStep (s.ser.adlA.toNat, s.ser.adlB.toNat) b).1).toNat =
        (adlerStep (s.ser.adlA.toNat, s.ser.adlB.toNat) b).1 := by
      rw [BitVec.toNat_ofNat, Nat.mod_eq_of_lt (by omega)]
    have e2 : (BitVec.ofNat 16 (adlerStep (s.ser.adlA.toNat, s.ser.adlB.toNat) b).2).toNat =
        (adlerStep (s.ser.adlA.toNat, s.ser.adlB.toNat) b).2 := by
      rw [BitVec.toNat_ofNat, Nat.mod_eq_of_lt (by omega)]
    rw [List.foldl_cons, ih _ (by simp only [adlerUpdate]; rw [e1, e2]; exact ⟨h1, h2⟩)]
    simp only [adlerUpdate, e1, e2, List.foldl_cons]

theorem foldl_adlerStep_lt (bs : List Byte) (a b : Nat) (ha : a < 65521) (hb : b < 65521) :
    (bs.foldl adlerStep (a, b)).1 < 65521 ∧ (bs.foldl adlerStep (a, b)).2 < 65521 := by
  induction bs generalizing a b with
  | nil => exact ⟨ha, hb⟩
  | cons x bs ih =>
    obtain ⟨h1, h2⟩ := adlerStep_lt a b x
    exact ih _ _ h1 h2

/-- A run of the Adler unit changes its two registers only. -/
theorem adlerAll_eq (bs : List Byte) (s : State) :
    adlerAll bs s = { s with ser := { s.ser with
      adlA := BitVec.ofNat 16 (bs.foldl adlerStep (1, 0)).1, adlB := BitVec.ofNat 16 (bs.foldl adlerStep (1, 0)).2 } } := by
  rw [adlerAll, foldl_adlerUpdate _ _ (by simp [adlerInit])]
  rfl

/-! ### Chunks -/

/-- The running checksum holds `c`. -/
def withCrc (c : BitVec 32) (s : State) : State := { s with ser := { s.ser with crc := c } }

theorem take_add_append {α : Type} (a b : List α) (j : Nat) : (a ++ b).take (a.length + j) = a ++ b.take j := by
  rw [List.take_append, List.take_of_length_le (by omega), Nat.add_sub_cancel_left]

/-- `SER.CHUNK`: the whole chunk, or the bytes of it before the first write that fails, and the fault (R193, R208). -/
theorem serChunk_cases (tag payload : List Byte) (s : State) :
    (WritesOk (chunkBytes tag payload).length s ∧
      serChunk tag payload s = .ok () (withCrc ((tag ++ payload).foldl crcByte 0xFFFFFFFF)
        (wrote (chunkBytes tag payload) (chunkBytes tag payload).length s))) ∨
    ∃ j c, j < (chunkBytes tag payload).length ∧ FirstFailure j s ∧
      serChunk tag payload s = .raised .outWrite (withCrc c (wrote ((chunkBytes tag payload).take j) (j + 1) s)) := by
  unfold serChunk
  rcases outWriteAll_cases (lenBe32 payload.length) s with ⟨k1, h⟩ | ⟨j, h1, h2, h⟩ <;> rw [h]
  swap
  · refine .inr ⟨j, s.ser.crc, by simp only [chunkBytes, List.length_append]; omega, h2, ?_⟩
    rw [chunkBytes, List.append_assoc, List.append_assoc, List.take_append_of_le_length (by omega)]
    rfl
  rw [Res.bind_ok]
  rcases emitCrc_cases tag (crcInit (wrote (lenBe32 payload.length) (lenBe32 payload.length).length s)) with
    ⟨k2, h⟩ | ⟨j, h1, h2, h⟩ <;> rw [h]
  swap
  · refine .inr ⟨(lenBe32 payload.length).length + j, (tag.take j).foldl crcByte 0xFFFFFFFF,
      by simp only [chunkBytes, List.length_append]; omega, k1.failure (x := lenBe32 payload.length) h2, ?_⟩
    rw [chunkBytes, List.append_assoc, List.append_assoc, take_add_append, List.take_append_of_le_length (by omega)]
    simp [withCrc, wrote, summed, crcInit, Nat.add_assoc, List.drop_drop]
  rw [Res.bind_ok]
  have k12 : WritesOk ((lenBe32 payload.length).length + tag.length) s := k1.add (x := lenBe32 payload.length) k2
  have f12 : ∀ {j : Nat} {t : State}, t.env.outFails = s.env.outFails.drop ((lenBe32 payload.length).length + tag.length) →
      FirstFailure j t → FirstFailure ((lenBe32 payload.length).length + tag.length + j) s := by
    intro j t ht hf
    refine k12.failure (x := []) (?_ : FirstFailure j (wrote [] _ s))
    unfold FirstFailure at hf ⊢
    rw [ht] at hf
    exact hf
  rcases emitCrc_cases payload (summed tag (wrote tag tag.length
    (crcInit (wrote (lenBe32 payload.length) (lenBe32 payload.length).length s)))) with ⟨k3, h⟩ | ⟨j, h1, h2, h⟩ <;> rw [h]
  swap
  · refine .inr ⟨(lenBe32 payload.length).length + tag.length + j, (tag ++ payload.take j).foldl crcByte 0xFFFFFFFF,
      by simp only [chunkBytes, List.length_append]; omega,
      f12 (by simp [wrote, summed, crcInit, List.drop_drop]) h2, ?_⟩
    rw [chunkBytes, List.append_assoc, ← List.length_append, take_add_append, List.take_append_of_le_length (by omega)]
    simp [withCrc, wrote, summed, crcInit, Nat.add_assoc, List.drop_drop, List.foldl_append]
  rw [Res.bind_ok]
  have hc : crcFinal (summed payload (wrote payload payload.length (summed tag (wrote tag tag.length
      (crcInit (wrote (lenBe32 payload.length) (lenBe32 payload.length).length s)))))) = crc32 (tag ++ payload) := by
    simp [crcFinal, crc32, summed, wrote, crcInit, List.foldl_append]
  have k123 : WritesOk ((lenBe32 payload.length).length + tag.length + payload.length) s := by
    refine k12.add (x := []) ?_
    unfold WritesOk at k3 ⊢
    simpa [wrote, summed, crcInit, List.drop_drop] using k3
  rw [hc]
  rcases outWriteAll_cases (splitBe32 (crc32 (tag ++ payload))) (summed payload (wrote payload payload.length (summed tag
    (wrote tag tag.length (crcInit (wrote (lenBe32 payload.length) (lenBe32 payload.length).length s)))))) with
    ⟨k4, h⟩ | ⟨j, h1, h2, h⟩ <;> rw [h]
  · refine .inl ⟨?_, ?_⟩
    · simp only [chunkBytes, List.length_append]
      refine k123.add (x := []) ?_
      unfold WritesOk at k4 ⊢
      simpa [wrote, summed, crcInit, List.drop_drop, Nat.add_assoc] using k4
    · simp [withCrc, wrote, summed, crcInit, chunkBytes, Nat.add_assoc, List.drop_drop, List.foldl_append]
  · refine .inr ⟨(lenBe32 payload.length).length + tag.length + payload.length + j, (tag ++ payload).foldl crcByte 0xFFFFFFFF,
      by simp only [chunkBytes, List.length_append]; omega, ?_, ?_⟩
    · refine k123.failure (x := []) ?_
      unfold FirstFailure at h2 ⊢
      simpa [wrote, summed, crcInit, List.drop_drop, Nat.add_assoc] using h2
    · rw [chunkBytes, ← List.length_append, ← List.length_append, take_add_append]
      simp [withCrc, wrote, summed, crcInit, Nat.add_assoc, List.drop_drop, List.foldl_append]

theorem chunkBytes_length (tag payload : List Byte) (h : tag.length = 4) :
    (chunkBytes tag payload).length = 12 + payload.length := by
  simp [chunkBytes, lenBe32, splitBe32, h]; omega

/-! ### Payloads -/

theorem pltePayload_spec {s : State} {n i : Nat} {p : List Byte} (h : pltePayload s i n = some p) :
    p.length = 3 * n ∧ ∀ k, k < n → ∃ e, Memory.read s.pal (i + k) = some e ∧
      p[3 * k]? = some (e.extractLsb' 16 8) ∧ p[3 * k + 1]? = some (e.extractLsb' 8 8) ∧
      p[3 * k + 2]? = some (e.extractLsb' 0 8) := by
  induction n generalizing i p with
  | zero => simp [pltePayload] at h; simp [← h]
  | succ n ih =>
    simp only [pltePayload] at h
    split at h
    · rename_i e bs he hbs
      obtain ⟨hl, hr⟩ := ih hbs
      cases h
      refine ⟨by simp [rgbBytes, hl]; omega, fun k hk => ?_⟩
      cases k with
      | zero => exact ⟨e, he, rfl, rfl, rfl⟩
      | succ k =>
        obtain ⟨e', h1, h2, h3, h4⟩ := hr k (by omega)
        refine ⟨e', by rw [← h1]; congr 1; omega, ?_, ?_, ?_⟩
        · rw [← h2]; rfl
        · rw [← h3]; rfl
        · rw [← h4]; rfl
    · cases h

theorem pltePayload_isSome {s : State} {n i : Nat} (h : ∀ k, k < n → (Memory.read s.pal (i + k)).isSome = true) :
    ∃ p, pltePayload s i n = some p := by
  induction n generalizing i with
  | zero => exact ⟨[], rfl⟩
  | succ n ih =>
    obtain ⟨e, he⟩ := Option.isSome_iff_exists.1 (h 0 (by omega))
    obtain ⟨p, hp⟩ := ih (i := i + 1) (fun k hk => by simpa [Nat.add_assoc, Nat.add_comm 1 k] using h (k + 1) (by omega))
    simp only [Nat.add_zero] at he
    exact ⟨rgbBytes e ++ p, by simp [pltePayload, he, hp]⟩

theorem fbSlice_spec {s : State} {n a : Nat} {bs : List Byte} (h : fbSlice s a n = some bs) :
    bs.length = n ∧ ∀ k, k < n → fbCell s (a + k) = bs[k]? := by
  induction n generalizing a bs with
  | zero => simp [fbSlice] at h; simp [← h]
  | succ n ih =>
    simp only [fbSlice] at h
    split at h
    · rename_i v vs hv hvs
      obtain ⟨hl, hr⟩ := ih hvs
      cases h
      refine ⟨by simp [hl], fun k hk => ?_⟩
      cases k with
      | zero => simpa using hv
      | succ k => simpa [Nat.add_assoc, Nat.add_comm 1 k] using hr k (by omega)
    · cases h

theorem fbSlice_isSome {s : State} {n a : Nat} (h : ∀ k, k < n → (fbCell s (a + k)).isSome = true) :
    ∃ bs, fbSlice s a n = some bs := by
  induction n generalizing a with
  | zero => exact ⟨[], rfl⟩
  | succ n ih =>
    obtain ⟨v, hv⟩ := Option.isSome_iff_exists.1 (h 0 (by omega))
    obtain ⟨vs, hvs⟩ := ih (a := a + 1) (fun k hk => by simpa [Nat.add_assoc, Nat.add_comm 1 k] using h (k + 1) (by omega))
    simp only [Nat.add_zero] at hv
    exact ⟨v :: vs, by simp [fbSlice, hv, hvs]⟩

/-- With every pixel cell holding a value the filtered buffer has one. -/
theorem serFiltFrom_isSome {s : State} {n r : Nat}
    (h : ∀ i, i < (r + n) * s.width.toNat → (fbCell s i).isSome = true) : ∃ raw, serFiltFrom s r n = some raw := by
  induction n generalizing r with
  | zero => exact ⟨[], rfl⟩
  | succ n ih =>
    obtain ⟨row, hrow⟩ := fbSlice_isSome (s := s) (n := s.width.toNat) (a := r * s.width.toNat) (fun k hk => h _ (by
      have e : (r + (n + 1)) * s.width.toNat = r * s.width.toNat + s.width.toNat + n * s.width.toNat := by ring
      omega))
    obtain ⟨bs, hbs⟩ := ih (r := r + 1) (fun i hi => h i (by rwa [show r + (n + 1) = r + 1 + n by omega]))
    exact ⟨(0x00 :: row) ++ bs, by simp only [serFiltFrom, hrow, hbs]⟩

/-- The payloads read `PAL`, `FB`, `FB_LEN` and the dimensions, and nothing else. -/
theorem pltePayload_congr {s t : State} (h : t.pal = s.pal) (i n : Nat) : pltePayload t i n = pltePayload s i n := by
  induction n generalizing i with
  | zero => rfl
  | succ n ih => simp only [pltePayload, ih, h]

theorem fbSlice_congr {s t : State} (h : t.fb = s.fb) (hl : t.fbLen = s.fbLen) (a n : Nat) :
    fbSlice t a n = fbSlice s a n := by
  induction n generalizing a with
  | zero => rfl
  | succ n ih => simp only [fbSlice, fbCell, ih, h, hl]

theorem serFilt_congr {s t : State} (h : t.fb = s.fb) (hl : t.fbLen = s.fbLen) (hw : t.width = s.width)
    (hh : t.height = s.height) : serFilt t = serFilt s := by
  have e : ∀ n r, serFiltFrom t r n = serFiltFrom s r n := by
    intro n
    induction n with
    | zero => intro r; rfl
    | succ n ih => intro r; simp only [serFiltFrom, ih, fbSlice_congr h hl, hw]
  simp only [serFilt, e, hh]

/-- A 16-bit dimension as four bytes, most significant first: two zeros and its two bytes (R200 (a)). -/
theorem splitBe32_dimension (w : BitVec 16) :
    splitBe32 (w.setWidth 32) = [0x00, 0x00, w.extractLsb' 8 8, w.extractLsb' 0 8] := by
  simp only [splitBe32]
  have hw := w.isLt
  have e1 : (w.setWidth 32).extractLsb' 24 8 = 0x00 := by
    apply BitVec.eq_of_toNat_eq; simp [BitVec.extractLsb'_toNat, Nat.shiftRight_eq_div_pow]; omega
  have e2 : (w.setWidth 32).extractLsb' 16 8 = 0x00 := by
    apply BitVec.eq_of_toNat_eq; simp [BitVec.extractLsb'_toNat, Nat.shiftRight_eq_div_pow]; omega
  have e3 : (w.setWidth 32).extractLsb' 8 8 = w.extractLsb' 8 8 := by
    apply BitVec.eq_of_toNat_eq; simp [BitVec.extractLsb'_toNat, Nat.shiftRight_eq_div_pow]; omega
  have e4 : (w.setWidth 32).extractLsb' 0 8 = w.extractLsb' 0 8 := by
    apply BitVec.eq_of_toNat_eq; simp [BitVec.extractLsb'_toNat]
  rw [e1, e2, e3, e4]

end Sys2Proof.Machine
end

