-- ==== Sys2Proof/Laws/Step.lean ====
section
/-! SUPPORT. How a step finds what it runs, and how a run is made of steps. -/

namespace Sys2Proof.Machine

theorem fetch_rests {s : State} (h : yardRests s = true) : fetch s = fetchBlock s := by
  unfold yardRests at h
  unfold fetch
  cases hs : s.yard.st <;> simp [hs] at h ⊢

theorem fetchBlock_notBusy {s : State} (h : busy s = false) : fetchBlock s = fetchIdle s := by
  unfold busy at h
  unfold fetchBlock
  cases hs : s.seq <;> simp [hs] at h ⊢

/-! ### The reset input (R350, R275) -/

/-- With no reset to come the agents move. -/
theorem step_noPin {s : State} (h : s.pin = []) : step s = runFetched (fetch s) := by
  simp only [step, advance, h]

/-- A reset that is due strikes, whatever the block was doing. -/
theorem step_strike {s : State} {rest : List Nat} (h : s.pin = 0 :: rest) :
    step s = .next { blockReset s with pin := rest } := by
  simp only [step, advance, h]

/-- A reset still to come is counted down beside the step the agents make without it. -/
theorem step_count {s : State} {n : Nat} {rest : List Nat} (h : s.pin = (n + 1) :: rest) :
    step s = withPin (n :: rest) (step { s with pin := [] }) := by
  rw [step_noPin (s := { s with pin := [] }) rfl]
  simp only [step, advance, h]

@[simp] theorem withPin_of_next (p : List Nat) (s : State) : withPin p (.next s) = .next { s with pin := p } := rfl
@[simp] theorem withPin_of_fault (p : List Nat) (f : Fault) : withPin p (.fault f) = .fault f := rfl
@[simp] theorem withPin_of_refused (p : List Nat) (r : Refusal) : withPin p (.refused r) = .refused r := rfl

theorem withPin_next {p : List Nat} {o : Host.Outcome State Fault Refusal} {t : State} (h : withPin p o = .next t) :
    ∃ u, o = .next u ∧ t = { u with pin := p } := by
  cases o with
  | next u => cases h; exact ⟨u, rfl, rfl⟩
  | fault f => cases h
  | refused r => cases h

theorem blockMoves_iff {s : State} : blockMoves s = true ↔ s.pin = [] ∧ yardRests s = true := by
  simp [blockMoves]

/-- What a step of the block or its host comes from. -/
theorem step_block {s : State} (h : blockMoves s = true) : step s = runFetched (fetchBlock s) := by
  rw [step_noPin (blockMoves_iff.1 h).1, fetch_rests (blockMoves_iff.1 h).2]

/-- Between commands the oldest host action is taken. -/
theorem step_bus {s : State} {a : HostAct} {rest : List HostAct} (hm : blockMoves s = true) (hb : busy s = false)
    (h : s.bus = a :: rest) : step s = runFetched (fetchBus a { s with bus := rest }) := by
  simp only [step_block hm, fetchBlock_notBusy hb, fetchIdle, h]

/-- A register write neither reads nor writes the pending host actions. -/
theorem busWrite_bus (off : Nat) (v : Word) (rest : List HostAct) (s : State) :
    busWrite off v { s with bus := rest } = (busWrite off v s).map (fun t => { t with bus := rest }) := by
  unfold busWrite
  split_ifs <;> try rfl
  cases palIndex off <;> rfl

/-- With no host action pending the container parser moves. -/
theorem step_gif {s : State} (hm : blockMoves s = true) (hb : busy s = false) (h : s.bus = []) :
    step s = runFetched (fetchGif s) := by
  simp only [step_block hm, fetchBlock_notBusy hb, fetchIdle, h]

theorem step_size {s : State} (hm : blockMoves s = true) (hq : s.seq = .lzdSize) : step s = runFetched (fetchSize s) := by
  simp only [step_block hm, fetchBlock, hq]

theorem step_run {s : State} (hm : blockMoves s = true) (hq : s.seq = .lzdRun) : step s = runFetched (fetchRun s) := by
  simp only [step_block hm, fetchBlock, hq]

/-- In a phase of the serializer the phase's instruction is run. -/
theorem step_ser {s : State} {i : Instr} (hm : blockMoves s = true) (hi : encodeInstr i = true) (hq : s.seq = serPhase i) :
    step s = exec i s := by
  rw [step_block hm]
  cases i <;> first | (simp only [fetchBlock, hq, serPhase]; rfl) | cases hi

/-! ### Runs -/

theorem run_zero (s : State) : Host.Core.run Sys2Proof.core 0 s = .next s := rfl

/-- A run goes on from the next state, or stops where the step stops. -/
theorem run_step (k : Nat) (s : State) : Host.Core.run Sys2Proof.core (k + 1) s =
    Host.Outcome.casesOn (step s) (fun t => Host.Core.run Sys2Proof.core k t) (fun f => .fault f) (fun r => .refused r) := by
  have h : ∀ o : Host.Outcome State Fault Refusal, step s = o → Host.Core.run Sys2Proof.core (k + 1) s =
      Host.Outcome.casesOn o (fun t => Host.Core.run Sys2Proof.core k t) (fun f => .fault f) (fun r => .refused r) := by
    intro o ho
    have ho' : Sys2Proof.core.step s = o := ho
    refine (Host.Core.run.eq_def Sys2Proof.core (k + 1) s).trans ?_
    simp only
    rw [ho']
    cases o <;> rfl
  exact h _ rfl

theorem run_succ {s t : State} (h : step s = .next t) (k : Nat) :
    Host.Core.run Sys2Proof.core (k + 1) s = Host.Core.run Sys2Proof.core k t := by
  rw [run_step, h]

theorem run_one (s : State) : Host.Core.run Sys2Proof.core 1 s = step s := by
  rw [run_step]
  cases step s <;> rfl

/-- Runs compose. -/
theorem run_add {s t : State} {j : Nat} (h : Host.Core.run Sys2Proof.core j s = .next t) (k : Nat) :
    Host.Core.run Sys2Proof.core (j + k) s = Host.Core.run Sys2Proof.core k t := by
  induction j generalizing s with
  | zero =>
    have e : s = t := by injection h
    rw [Nat.zero_add, e]
  | succ j ih =>
    rw [Nat.add_right_comm, run_step]
    rw [run_step] at h
    cases hs : step s with
    | next u => rw [hs] at h; exact ih h
    | fault f => rw [hs] at h; cases h
    | refused r => rw [hs] at h; cases h

end Sys2Proof.Machine
end

