-- ==== Sys2Proof/Laws/Cases.lean ====
section
/-! SUPPORT. What a step can do, said once: which agent moved, and what each kind of step leaves. Whole-machine claims go by cases on
these instead of unfolding `step`. -/

namespace Sys2Proof.Machine

theorem exec_host {i : Instr} {s t : State} (hi : hostInstr i = true) (h : exec i s = .next t) : HostOnly s t := by
  cases i with
  | gifTrailer => cases h; exact hostAt_hostOnly _ (.bind (hRead_cursorOnly 1 s).hostOnly (fun _ u _ => .refl u))
  | gifExt => cases h; exact hostAt_hostOnly _ (.bind (hRead_cursorOnly 1 s).hostOnly (fun _ u _ => .refl u))
  | gifImg => cases h; exact hostEnd_hostOnly (gifImage_hostOnly s)
  | gifBadtag b => cases h; exact .of_gif s _
  | extGce => cases h; exact hostAt_hostOnly _ (extGce_hostOnly s)
  | extPte => cases h; exact hostAt_hostOnly _ (skipFixed_cursorOnly 12 s).hostOnly
  | extApp => cases h; exact hostAt_hostOnly _ (skipFixed_cursorOnly 11 s).hostOnly
  | extCom => cases h; exact hostAt_hostOnly _ (hSkipVar_cursorOnly s).hostOnly
  | extBad b => cases h; exact .of_gif s _
  | _ => cases hi

theorem yardAfter_only (f : Bool) (r) (s : State) : yardAfter f r s = { s with yard := (yardAfter f r s).yard } := by
  unfold yardAfter
  split
  · rfl
  · split <;> rfl

theorem exec_yard {i : Instr} {s t : State} (hi : yardInstr i = true) (h : exec i s = .next t) : t = { s with yard := t.yard } := by
  cases i with
  | zlibHdr a b =>
    simp only [exec, execZlibHdr] at h
    split_ifs at h <;> cases h <;> rfl
  | deflStored b => cases h; exact yardAfter_only _ _ _
  | deflFixed b => cases h; exact yardAfter_only _ _ _
  | deflDyn b => cases h; exact yardAfter_only _ _ _
  | deflRsvd b => cases h; rfl
  | _ => cases hi

theorem tag_host (b : Byte) : hostInstr (decodeTag b) = true := by unfold decodeTag; split_ifs <;> rfl
theorem ext_host (b : Byte) : hostInstr (decodeExt b) = true := by unfold decodeExt; split_ifs <;> rfl
theorem dblk_yard (n : Nat) : yardInstr (decodeDblk n) = true := by unfold decodeDblk; simp only; split <;> rfl

theorem fetchGif_files {s t : State} (h : runFetched (fetchGif s) = .next t) : FilesOnly s t := by
  unfold fetchGif at h
  have rf : FilesOnly s s := (HostOnly.refl s).filesOnly
  split at h
  · cases h; exact rf
  · cases h; exact rf
  · cases h; exact rf
  · cases h; exact (hostAt_hostOnly _ (gifHeader_hostOnly s)).filesOnly
  · unfold fetchTag at h
    split at h
    · cases h; exact ⟨rfl, Nat.le_refl _, id⟩
    · cases h; exact ⟨rfl, Nat.le_refl _, id⟩
    · exact (exec_host (tag_host _) h).filesOnly
  · unfold fetchExt at h
    have hc := hRead_cursorOnly 1 s
    split at h
    · rename_i bs u hr
      rw [hr] at hc
      exact (hc.hostOnly.trans (exec_host (ext_host _) h)).filesOnly
    · rename_i c u hr
      rw [hr] at hc
      cases h
      exact (hc.hostOnly.trans (.of_gif u _)).filesOnly
  · cases h; exact gifAfterDecode_filesOnly _ s
  · cases h; exact gifOpen_filesOnly s
  · cases h; exact gifAfterEncode_filesOnly s

theorem yard_move {s t : State} (hy : yardRests s = false) (h : runFetched (fetch s) = .next t) : t = { s with yard := t.yard } := by
  unfold fetch at h
  unfold yardRests at hy
  split at h
  · unfold fetchZhdr at h
    split_ifs at h
    · cases h; rfl
    · split at h
      · rename_i i hd
        have : yardInstr i = true := by
          unfold decodeZhdr at hd
          split_ifs at hd
          cases hd; rfl
        exact exec_yard this h
      · cases h; rfl
  · unfold fetchDblk at h
    split at h
    · have := exec_yard (dblk_yard _) h
      rw [this]
    · cases h; rfl
  · simp_all
  · simp_all

/-- The agents that can have moved, and what each was doing. -/
inductive MoveCase (s t : State) : Prop
  | yard (h : t = { s with yard := t.yard })
  | bus (a : HostAct) (rest : List HostAct) (hb : busy s = false) (hbus : s.bus = a :: rest) (h : runFetched (fetchBus a { s with bus := rest }) = .next t)
  | gif (hb : busy s = false) (h : FilesOnly s t)
  | size (hq : s.seq = .lzdSize) (h : runFetched (fetchSize s) = .next t)
  | run (hq : s.seq = .lzdRun) (h : runFetched (fetchRun s) = .next t)
  | ser (i : Instr) (hi : encodeInstr i = true) (hq : s.seq = serPhase i) (h : exec i s = .next t)

theorem move_case {s t : State} (h : runFetched (fetch s) = .next t) : MoveCase s t := by
  cases hy : yardRests s with
  | false => exact .yard (yard_move hy h)
  | true =>
    rw [fetch_rests hy] at h
    cases hq : s.seq with
    | idle | fault =>
      have hb : busy s = false := by simp [busy, hq]
      rw [fetchBlock_notBusy hb] at h
      cases hbus : s.bus with
      | nil => simp only [fetchIdle, hbus] at h; exact .gif hb (fetchGif_files h)
      | cons a rest => simp only [fetchIdle, hbus] at h; exact .bus a rest hb hbus h
    | lzdSize => simp only [fetchBlock, hq] at h; exact .size hq h
    | lzdRun => simp only [fetchBlock, hq] at h; exact .run hq h
    | serSig => simp only [fetchBlock, hq] at h; exact .ser .pngSig rfl hq h
    | serIhdr => simp only [fetchBlock, hq] at h; exact .ser .pngIhdr rfl hq h
    | serPlte => simp only [fetchBlock, hq] at h; exact .ser .pngPlte rfl hq h
    | serTrns => simp only [fetchBlock, hq] at h; exact .ser .pngTrns rfl hq h
    | serIdat => simp only [fetchBlock, hq] at h; exact .ser .pngIdat rfl hq h
    | serIend => simp only [fetchBlock, hq] at h; exact .ser .pngIend rfl hq h

/-- What a step can do: a reset of the pin, or a move of the agents, which neither see nor change the pin. -/
inductive StepCase (s t : State) : Prop
  | strike (rest : List Nat) (hp : s.pin = 0 :: rest) (h : t = { blockReset s with pin := rest })
  | move (p : List Nat) (u : State) (hm : MoveCase { s with pin := [] } u) (h : t = { u with pin := p })

theorem step_case {s t : State} (h : step s = .next t) : StepCase s t := by
  cases hp : s.pin with
  | nil =>
    rw [step_noPin hp] at h
    have e : s = { s with pin := [] } := by rw [← hp]
    have hu : t = { t with pin := t.pin } := rfl
    exact .move t.pin t (e ▸ move_case h) hu
  | cons n rest =>
    cases n with
    | zero => rw [step_strike hp] at h; cases h; exact .strike rest hp rfl
    | succ n =>
      rw [step_count hp, step_noPin (s := { s with pin := [] }) rfl] at h
      obtain ⟨u, hu, rfl⟩ := withPin_next h
      exact .move _ u (move_case hu) rfl

/-- What a written command can do: reset, a refusal, or the first phase of `DECODE` or `ENCODE`. -/
inductive CmdCase (s t : State) : Prop
  | reset (h : t = blockReset s)
  | refuse (c : Cause) (h : t = raiseExc c (clearDone s))
  | decode (he : s.status.err = false) (hf : frameSize s ≤ fbCap s) (h : t = { clearDone s with seq := .lzdSize })
  | encode (he : s.status.err = false) (hc : encodeCheck s = none) (r : Ser) (h : t = { clearDone s with seq := .serSig, ser := r })

theorem cmd_case {s t : State} {b : Byte} (h : exec (decodeCmd b) s = .next t) : CmdCase s t ∧ (t.seq ≠ .fault → s.seq = .fault → s.status.err = true → b = 0x01) := by
  unfold decodeCmd at h
  split_ifs at h with h1 h2 h3
  · cases h; exact ⟨.reset rfl, fun _ _ _ => h1⟩
  · simp only [exec, execCmdDecode, refuseCmd_eq] at h
    split_ifs at h with e1 e2 <;> cases h
    · exact ⟨.refuse _ rfl, by simp⟩
    · exact ⟨.refuse _ rfl, by simp⟩
    · exact ⟨.decode (by simpa using e1) (by omega) rfl, fun _ _ h => absurd h e1⟩
  · simp only [exec, execCmdEncode, refuseCmd_eq] at h
    split_ifs at h with e1
    · cases h; exact ⟨.refuse _ rfl, by simp⟩
    · cases hc : encodeCheck s with
      | some c => rw [hc] at h; cases h; exact ⟨.refuse _ rfl, by simp⟩
      | none =>
        rw [hc] at h
        simp only at h
        cases hf : serFilt s with
        | none => rw [hf] at h; cases h
        | some raw =>
          rw [hf] at h
          simp only [adlerAll_eq] at h
          split_ifs at h <;> cases h
          · exact ⟨.refuse _ rfl, by simp⟩
          · exact ⟨.encode (by simpa using e1) hc _ rfl, fun _ _ h => absurd h e1⟩
  · simp only [exec, execCmdRsvd, refuseCmd_eq] at h
    split_ifs at h <;> cases h
    · exact ⟨.refuse _ rfl, by simp⟩
    · exact ⟨.refuse _ rfl, by simp⟩

/-- What a host action can do: a command, a register or palette write, or a change outside the block. -/
inductive BusCase (s t : State) (a : HostAct) : Prop
  | cmd (v : Word) (ha : a = .wr offCmd v) (h : exec (decodeCmd (v.setWidth 8)) s = .next t)
  | regs (w h' tr : BitVec 16) (n : BitVec 9) (p : Memory (BitVec 24)) (hp : p = s.pal ∨ ∃ i v, i < 256 ∧ p = Memory.write s.pal i v) (h : t = { s with width := w, height := h', trns := tr, palN := n, pal := p })
  | other (h : t = { s with env := { t.env with inData := s.env.inData }, busRd := t.busRd, gif := t.gif, yard := t.yard }) (h1 : s.env.inPos ≤ t.env.inPos) (h2 : s.env.inPos ≤ s.env.inData.length → t.env.inPos ≤ s.env.inData.length)

theorem bus_case {s t : State} {a : HostAct} (h : runFetched (fetchBus a s) = .next t) : BusCase s t a := by
  cases a with
  | wr off v =>
    simp only [fetchBus] at h
    split_ifs at h with h0
    · exact .cmd v (by rw [h0]) h
    · unfold busWrite at h
      split_ifs at h
      · cases h; exact .regs _ s.height s.trns s.palN s.pal (.inl rfl) rfl
      · cases h; exact .regs s.width _ s.trns s.palN s.pal (.inl rfl) rfl
      · cases h; exact .regs s.width s.height _ s.palN s.pal (.inl rfl) rfl
      · cases h; exact .regs s.width s.height s.trns _ s.pal (.inl rfl) rfl
      · cases h
      · cases hp : palIndex off with
        | none => rw [hp] at h; cases h
        | some i =>
          rw [hp] at h; cases h
          refine .regs s.width s.height s.trns s.palN _ (.inr ⟨i, _, ?_, rfl⟩) rfl
          unfold palIndex at hp
          split_ifs at hp with hr
          cases hp
          simp [offPal] at hr ⊢; omega
  | rd off =>
    simp only [fetchBus] at h
    split at h <;> cases h
    exact .other rfl (Nat.le_refl _) id
  | fbRd i =>
    simp only [fetchBus] at h
    split at h <;> cases h
    exact .other rfl (Nat.le_refl _) id
  | openOut => cases h; exact .other rfl (Nat.le_refl _) id
  | closeOut => cases h; exact .other rfl (Nat.le_refl _) id
  | inTake =>
    simp only [fetchBus] at h
    have hc := inRead_cursorOnly s
    have hx : ∀ (b : Option Word), BusCase s { (inRead s).2 with busRd := b } .inTake := by
      intro b
      refine .other ?_ hc.le hc.bound
      conv_lhs => rw [hc.eq]
      have : (inRead s).2.env = { s.env with inPos := (inRead s).2.env.inPos, inFails := (inRead s).2.env.inFails } := by rw [hc.eq]
      have h2 : (inRead s).2.gif = s.gif := by rw [hc.eq]
      have h3 : (inRead s).2.yard = s.yard := by rw [hc.eq]
      simp only [h2, h3]
      rw [this]
    rcases hr : inRead s with ⟨b | _ | _, u⟩ <;> rw [hr] at h hx <;> cases h <;> exact hx _
  | gifRun base =>
    cases h
    have := gifStart_filesOnly base s
    refine .other ?_ this.le this.bound
    unfold gifStart openDraw
    cases s.env.openFails.headD false <;> rfl
  | unzip z => cases h; exact .other rfl (Nat.le_refl _) id

theorem chunk_case (q : Seq) (tag payload : List Byte) (s : State) :
    (∃ e r, e = { s.env with out := e.out, outFails := e.outFails } ∧ settleAt q (serChunk tag payload s) = { s with env := e, ser := r, seq := q }) ∨
    (∃ e r, e = { s.env with out := e.out, outFails := e.outFails } ∧ settleAt q (serChunk tag payload s) = raiseExc .outWrite { s with env := e, ser := r }) := by
  rcases serChunk_cases tag payload s with ⟨-, h⟩ | ⟨j, c, -, -, h⟩ <;> rw [h]
  · exact .inl ⟨_, _, rfl, rfl⟩
  · exact .inr ⟨_, _, rfl, rfl⟩

/-- What a phase of the serializer can do: its part written and the next phase, or the fault of a failing write. -/
inductive SerCase (i : Instr) (s t : State) : Prop
  | ok (e : Env) (r : Ser) (he : e = { s.env with out := e.out, outFails := e.outFails })
     (h : t = { s with env := e, ser := r, seq := serAfter s i, status := if i = .pngIend then { s.status with done := true } else s.status })
  | fail (e : Env) (r : Ser) (he : e = { s.env with out := e.out, outFails := e.outFails }) (h : t = raiseExc .outWrite { s with env := e, ser := r })

theorem ser_case {i : Instr} {s t : State} (hi : encodeInstr i = true) (h : exec i s = .next t) : SerCase i s t := by
  cases i with
  | pngSig =>
    cases h
    rcases outWriteAll_cases sigBytes s with ⟨-, h⟩ | ⟨_, -, -, h⟩ <;> rw [h]
    · exact .ok (wrote sigBytes sigBytes.length s).env s.ser rfl rfl
    · exact .fail _ _ rfl rfl
  | pngIhdr =>
    cases h
    rcases chunk_case .serPlte tagIHDR (ihdrPayload s) s with ⟨e, r, he, h⟩ | ⟨e, r, he, h⟩ <;> rw [h]
    · exact .ok e r he rfl
    · exact .fail e r he rfl
  | pngPlte =>
    simp only [exec, execPngPlte] at h
    split at h
    · rename_i p _
      cases h
      rcases chunk_case (afterPlte s) tagPLTE p s with ⟨e, r, he, h⟩ | ⟨e, r, he, h⟩ <;> rw [h]
      · exact .ok e r he rfl
      · exact .fail e r he rfl
    · cases h
  | pngTrns =>
    simp only [exec, execPngTrns] at h
    split_ifs at h <;> cases h
    · rcases chunk_case .serIdat tagTRNS (trnsPayload s.trns.toNat) s with ⟨e, r, he, h⟩ | ⟨e, r, he, h⟩ <;> rw [h]
      · exact .ok e r he rfl
      · exact .fail e r he rfl
    · exact .ok s.env s.ser rfl rfl
  | pngIdat =>
    simp only [exec, execPngIdat] at h
    split at h
    · rename_i p _
      cases h
      rcases chunk_case .serIend tagIDAT (zCompress s.cfg.compressor p) s with ⟨e, r, he, h⟩ | ⟨e, r, he, h⟩ <;> rw [serIdat, h]
      · exact .ok e r he rfl
      · exact .fail e r he rfl
    · cases h
  | pngIend =>
    cases h
    rcases serChunk_cases tagIEND [] s with ⟨-, h⟩ | ⟨j, c, -, -, h⟩ <;> rw [h]
    · exact .ok _ _ rfl (by simp [withCrc, wrote, serAfter, succeed]; exact ⟨rfl, rfl⟩)
    · exact .fail _ _ rfl rfl
  | _ => cases hi

theorem decodeLzwc_cases (c : LzwCtx) (x : Code) :
    (x.toNat = c.clear ∧ decodeLzwc c x = .lzwClr) ∨
    (x.toNat ≠ c.clear ∧ x.toNat = c.eoi ∧ decodeLzwc c x = .lzwEoi) ∨
    (x.toNat ≠ c.clear ∧ x.toNat ≠ c.eoi ∧ x.toNat < c.clear ∧ decodeLzwc c x = .lzwLit x) ∨
    (x.toNat ≠ c.clear ∧ x.toNat ≠ c.eoi ∧ ¬ x.toNat < c.clear ∧ x.toNat < c.next ∧ decodeLzwc c x = .lzwRef x) ∨
    (x.toNat ≠ c.clear ∧ x.toNat ≠ c.eoi ∧ ¬ x.toNat < c.clear ∧ (x.toNat = c.next ∧ c.hasPrev = true ∧ c.next < 4096) ∧
      decodeLzwc c x = .lzwKwk x) ∨
    (x.toNat ≠ c.clear ∧ x.toNat ≠ c.eoi ∧ ¬ x.toNat < c.clear ∧ ¬ x.toNat < c.next ∧ decodeLzwc c x = .lzwIll x) := by
  unfold decodeLzwc
  split_ifs <;> simp_all

theorem encodeInstr_cases {i : Instr} (hi : encodeInstr i = true) :
    i = .pngSig ∨ i = .pngIhdr ∨ i = .pngPlte ∨ i = .pngTrns ∨ i = .pngIdat ∨ i = .pngIend := by
  cases i <;> simp [encodeInstr] at hi ⊢

/-- What a step of `LZD_RUN` can do. -/
inductive RunCase (s t : State) : Prop
  | finish (h0 : s.lzd.target ≤ s.lzd.outcnt) (h : t = lzdFinish s)
  | raise (c : Cause) (u : State) (hd : DfrOnly s u) (hs : DfrSound s → DfrSound u) (h : t = raiseExc c u)
  | dfr (hd : DfrOnly s t) (hs : DfrSound s → DfrSound t)
  | push (b : Byte) (u : State) (hb : s.lzd.bitcnt < s.lzd.cw) (hd : DfrOnly s u) (hs : DfrSound s → DfrSound u) (h : t = pushByte b u)
  | clr (hb : s.lzd.cw ≤ s.lzd.bitcnt) (h : exec .lzwClr (dropCode s) = .next t)
  | bad (c : Cause) (h : t = raiseExc c (dropCode s))
  | put (str : List Byte) (b : Byte) (code : Code) (hb : s.lzd.cw ≤ s.lzd.bitcnt) (ho : s.lzd.outcnt < s.lzd.target)
     (hc : code.toNat < s.lzd.clear ∨ (code.toNat ≠ s.lzd.clear ∧ code.toNat ≠ s.lzd.eoi ∧ s.lzd.clear ≤ code.toNat ∧ (code.toNat < s.lzd.next ∨ (code.toNat = s.lzd.next ∧ s.lzd.next < 4096 ∧ s.lzd.prev.isSome = true))))
     (h : t = lzdPut str b code (dropCode s))

theorem run_case {s t : State} (h : runFetched (fetchRun s) = .next t) : RunCase s t := by
  unfold fetchRun at h
  split_ifs at h with h1 h2 h3
  · cases h; exact .finish h1 rfl
  · simp only [runFetched] at h
    rcases decodeLzwc_cases (lzwCtx s) (codeInBuf s) with ⟨a1, e⟩ | ⟨a1, a2, e⟩ | ⟨a1, a2, a3, e⟩ | ⟨a1, a2, a3, a4, e⟩ | ⟨a1, a2, a3, a5, e⟩ | ⟨a1, a2, a3, a4, e⟩ <;> rw [e] at h <;> simp only [lzwCtx] at *
    · exact .clr h2 h
    · cases h; exact .bad _ rfl
    · cases h; exact .put _ _ _ h2 (by omega) (.inl a3) rfl
    · simp only [exec, execLzwRef] at h
      split at h
      · cases h; exact .put _ _ _ h2 (by omega) (.inr ⟨a1, a2, by omega, .inl a4⟩) rfl
      · cases h
    · simp only [exec, execLzwKwk] at h
      split at h
      · cases h; exact .bad _ rfl
      · split at h
        · cases h; exact .put _ _ _ h2 (by omega) (.inr ⟨a1, a2, by omega, .inr ⟨a5.1, a5.2.2, a5.2.1⟩⟩) rfl
        · cases h
    · cases h; exact .bad _ rfl
  · unfold fetchSub at h
    rcases dfrLength_cases s with ⟨-, e⟩ | ⟨-, -, e⟩ | ⟨b, -, hb, e⟩ <;> rw [e] at h
    · cases h; exact .raise _ (dfrTrunc .inRead (inDraw s)) ⟨rfl, Nat.le_refl _, id⟩ (fun hs => (hs.of_eq rfl rfl : DfrSound (inDraw s)).trunc _) rfl
    · cases h; exact .raise _ (dfrTrunc .sbLength (inDraw s)) ⟨rfl, Nat.le_refl _, id⟩ (fun hs => (hs.of_eq rfl rfl : DfrSound (inDraw s)).trunc _) rfl
    · simp only [runFetched, decodeSb] at h
      have hc := (CursorOnly.afterIn_one hb).dfrOnly
      split_ifs at h with h0
      · cases h
        exact .dfr (hc.trans ⟨rfl, Nat.le_refl _, id⟩) (fun hs => hs.of_empty rfl rfl rfl)
      · cases h
        have h4 := dfrLoad_dfrOnly b (afterIn 1 s)
        have h5 : DfrSound s → DfrSound (dfrLoad b (afterIn 1 s)).state := fun hs => dfrLoad_sound (hs.of_eq rfl rfl)
        cases hl : dfrLoad b (afterIn 1 s) with
        | ok _ u => rw [hl] at h4 h5; exact .dfr (hc.trans h4) h5
        | raised c u => rw [hl] at h4 h5; exact .raise c u (hc.trans h4) h5 rfl
  · unfold takeByte at h
    have h4 := dfrRead_dfrOnly 1 s
    have h5 : DfrSound s → DfrSound (dfrRead 1 s).state := by
      intro hs
      unfold dfrRead
      split
      · exact hs
      · exact hs
      · rename_i hact
        rw [if_neg (by omega), if_neg (by intro he; exact h3 (by simp [needsSub, hact, he]))]
        obtain ⟨bs, e, -⟩ := dfrTake_sound (n := 1) hs hact
        rw [e]
        have hb := hs.bounded
        refine ⟨⟨?_, hb.2⟩, hs.filled, hs.wf, hs.below⟩
        have := hb.1
        simp only [Res.state_ok]; omega
    split at h
    · rename_i b _ u hr
      rw [hr] at h4 h5
      cases h; exact .push b u (by omega) h4 h5 rfl
    · cases h
    · cases h
    · rename_i u hr
      rw [hr] at h4 h5
      cases h; exact .raise _ u h4 h5 rfl
    · rename_i c u hr
      rw [hr] at h4 h5
      cases h; exact .raise _ u h4 h5 rfl

/-- What the step of `LZD_SIZE` can do. -/
inductive SizeCase (s t : State) : Prop
  | raise (c : Cause) (u : State) (hd : CursorOnly { s with fbLen := 0 } u) (h : t = raiseExc c u)
  | start (b : Byte) (u : State) (hd : CursorOnly { s with fbLen := 0 } u) (hb : 2 ≤ b.toNat ∧ b.toNat ≤ 8) (h : t = lzdStart b u)

theorem size_case {s t : State} (h : runFetched (fetchSize s) = .next t) : SizeCase s t := by
  unfold fetchSize at h
  have hc := inRead_cursorOnly { s with fbLen := 0 }
  split at h <;> rename_i hr <;> rw [hr] at hc
  · cases h; exact .raise _ _ hc rfl
  · cases h; exact .raise _ _ hc rfl
  · rename_i u b _
    have hx : ∀ u', CursorOnly { s with fbLen := 0 } u' → u' = { u' with fbLen := 0 } := by
      intro u' hu; rw [hu.eq]
    simp only [runFetched, decodeLzwn] at h
    split_ifs at h with hb
    · have : codeSizeLegal b = true := by simp [codeSizeLegal, hb]
      simp only [exec, execLzwSize, this, if_true] at h
      cases h; exact .start b _ hc hb rfl
    · have : codeSizeLegal b = false := by simp [codeSizeLegal]; omega
      simp only [exec, execLzwSizeIll, this] at h
      cases h
      exact .raise _ _ hc (by simp only [Bool.false_eq_true, if_false]; rw [← hx _ hc])

end Sys2Proof.Machine
end

