-- ==== Sys2Proof/Laws/Inflate.lean ====
section
/-! SUPPORT. The bit reader on bytes; that every reader of the yardstick decompressor moves forward, so that the fuel of its loops makes
no difference; and the code tables (spec/44_zlib_deflate.md R235 to R242). -/

namespace Sys2Proof.Machine

/-! ### The bit reader -/

theorem bitAt_byte {d : List Byte} {q i : Nat} {b : Byte} (h : d[q]? = some b) (hi : i < 8) :
    bitAt d (8 * q + i) = some (b.toNat / 2 ^ i % 2) := by
  unfold bitAt
  rw [show (8 * q + i) / 8 = q by omega, show (8 * q + i) % 8 = i by omega, h]

theorem bitsAt_succ (d : List Byte) (p n : Nat) :
    bitsAt d p (n + 1) = match bitAt d p, bitsAt d (p + 1) n with
      | some b, some v => some (b + 2 * v)
      | _, _ => none := rfl

/-- A whole byte on a byte boundary. -/
theorem bitsAt_byte {d : List Byte} {q : Nat} {b : Byte} (h : d[q]? = some b) : bitsAt d (8 * q) 8 = some b.toNat := by
  have hb : b.toNat < 256 := b.isLt
  have e0 := bitAt_byte h (i := 0) (by omega)
  rw [Nat.add_zero] at e0
  simp only [bitsAt, e0, Nat.add_assoc, Nat.reduceAdd, bitAt_byte h (i := 1) (by omega), bitAt_byte h (i := 2) (by omega),
    bitAt_byte h (i := 3) (by omega), bitAt_byte h (i := 4) (by omega), bitAt_byte h (i := 5) (by omega),
    bitAt_byte h (i := 6) (by omega), bitAt_byte h (i := 7) (by omega), Option.some.injEq]
  omega

/-- Three bits on a byte boundary. -/
theorem bitsAt_three {d : List Byte} {q : Nat} {b : Byte} (h : d[q]? = some b) :
    bitsAt d (8 * q) 3 = some (b.toNat % 8) := by
  have e0 := bitAt_byte h (i := 0) (by omega)
  rw [Nat.add_zero] at e0
  simp only [bitsAt, e0, Nat.add_assoc, Nat.reduceAdd, bitAt_byte h (i := 1) (by omega), bitAt_byte h (i := 2) (by omega),
    Option.some.injEq]
  omega

theorem bitsAt_add (d : List Byte) (p m n : Nat) :
    bitsAt d p (m + n) = match bitsAt d p m, bitsAt d (p + m) n with
      | some a, some b => some (a + 2 ^ m * b)
      | _, _ => none := by
  induction m generalizing p with
  | zero => simp only [bitsAt, Nat.zero_add, Nat.add_zero, pow_zero, Nat.one_mul]; cases bitsAt d p n <;> simp
  | succ m ih =>
    rw [Nat.add_right_comm, bitsAt_succ, bitsAt_succ, ih, show p + 1 + m = p + (m + 1) by omega]
    cases bitAt d p with
    | none => rfl
    | some x =>
      cases bitsAt d (p + 1) m with
      | none => rfl
      | some y =>
        cases bitsAt d (p + (m + 1)) n with
        | none => rfl
        | some z => simp only [Option.some.injEq]; ring

/-- Sixteen bits on a byte boundary: two bytes, low byte first (R238). -/
theorem bitsAt_le16 {d : List Byte} {q : Nat} {lo hi : Byte} (h0 : d[q]? = some lo) (h1 : d[q + 1]? = some hi) :
    bitsAt d (8 * q) 16 = some (le16 lo hi).toNat := by
  rw [bitsAt_add d (8 * q) 8 8, bitsAt_byte h0, show 8 * q + 8 = 8 * (q + 1) by ring, bitsAt_byte h1]
  have hl : lo.toNat < 2 ^ 8 := lo.isLt
  simp only [Option.some.injEq, le16, BitVec.toNat_append]
  rw [← Nat.shiftLeft_add_eq_or_of_lt hl, Nat.shiftLeft_eq]; ring

theorem le16_splitLe16 (v : BitVec 16) : le16 (v.extractLsb' 0 8) (v.extractLsb' 8 8) = v := by
  apply BitVec.eq_of_toNat_eq
  have hv : v.toNat < 65536 := v.isLt
  simp only [le16, BitVec.toNat_append, BitVec.extractLsb'_toNat]
  rw [← Nat.shiftLeft_add_eq_or_of_lt (Nat.mod_lt _ (by norm_num)), Nat.shiftLeft_eq, Nat.shiftRight_eq_div_pow,
    Nat.shiftRight_eq_div_pow]
  omega

/-- A bit that exists lies inside the data. -/
theorem bitsAt_bound {d : List Byte} {p n v : Nat} (h : bitsAt d p (n + 1) = some v) : p + n < 8 * d.length := by
  induction n generalizing p v with
  | zero =>
    simp only [bitsAt] at h
    cases hb : bitAt d p with
    | none => rw [hb] at h; cases h
    | some b =>
      unfold bitAt at hb
      cases hd : d[p / 8]? with
      | none => rw [hd] at hb; cases hb
      | some x => have := (List.getElem?_eq_some_iff.1 hd).1; omega
  | succ n ih =>
    rw [bitsAt_succ] at h
    cases hb : bitsAt d (p + 1) (n + 1) with
    | none => rw [hb] at h; cases hx : bitAt d p <;> rw [hx] at h <;> cases h
    | some w => have := ih hb; omega

theorem bitsAt_lt {d : List Byte} {p n v : Nat} (h : bitsAt d p n = some v) : v < 2 ^ n := by
  induction n generalizing p v with
  | zero => cases h; simp
  | succ n ih =>
    rw [bitsAt_succ] at h
    cases hb : bitAt d p with
    | none => rw [hb] at h; cases h
    | some b =>
      cases hw : bitsAt d (p + 1) n with
      | none => rw [hb, hw] at h; cases h
      | some w =>
        rw [hb, hw] at h
        cases h
        have h1 := ih hw
        have h2 : b < 2 := by
          unfold bitAt at hb
          cases hd : d[p / 8]? with
          | none => rw [hd] at hb; cases hb
          | some x => rw [hd] at hb; cases hb; exact Nat.mod_lt _ (by norm_num)
        rw [Nat.pow_succ]; omega

/-! ### Every reader moves forward -/

theorem decodeSymFrom_le {d : List Byte} {h : Huff} {c p sym p' : Nat} (e : decodeSymFrom d h c p = some (sym, p')) :
    p ≤ p' := by
  induction h generalizing c p with
  | nil => cases e
  | cons l rest ih =>
    obtain ⟨first, syms⟩ := l
    rw [decodeSymFrom] at e
    split at e
    · cases e
    · split at e
      · split at e
        · cases e; omega
        · have := ih e; omega
      · have := ih e; omega

theorem baseExtra_le {d : List Byte} {base extra : List Nat} {k p v p' : Nat} (e : baseExtra d base extra k p = some (v, p')) :
    p ≤ p' := by
  unfold baseExtra at e
  split at e
  · rename_i b n _ _
    cases hb : bitsAt d p n with
    | none => rw [hb] at e; cases e
    | some w => rw [hb] at e; cases e; omega
  · cases e

theorem inflateMatch_le {d : List Byte} {dst : Huff} {k p p' : Nat} {u u' : List Byte}
    (e : inflateMatch d dst k p u = some (p', u')) : p ≤ p' := by
  unfold inflateMatch at e
  cases h2 : baseExtra d lenBase lenExtra k p with
  | none => rw [h2] at e; cases e
  | some r2 =>
    obtain ⟨len, p2⟩ := r2
    simp only [h2] at e
    cases h3 : decodeSym d dst p2 with
    | none => rw [h3] at e; cases e
    | some r3 =>
      obtain ⟨t, p3⟩ := r3
      simp only [h3] at e
      cases h4 : baseExtra d distBase distExtra t p3 with
      | none => rw [h4] at e; cases e
      | some r4 =>
        obtain ⟨dist, p4⟩ := r4
        simp only [h4] at e
        split_ifs at e
        cases e
        exact Nat.le_trans (baseExtra_le h2) (Nat.le_trans (decodeSymFrom_le h3) (baseExtra_le h4))

theorem inflateSym_le {d : List Byte} {lit dst : Huff} {p p' : Nat} {u u' : List Byte} {stop : Bool}
    (e : inflateSym d lit dst p u = some (stop, p', u')) : p ≤ p' := by
  unfold inflateSym at e
  cases h1 : decodeSym d lit p with
  | none => rw [h1] at e; cases e
  | some r1 =>
    obtain ⟨sym, p1⟩ := r1
    have l1 := decodeSymFrom_le h1
    simp only [h1] at e
    split_ifs at e
    · cases e; exact l1
    · cases e; exact l1
    · simp only [Option.map_eq_some_iff, Prod.mk.injEq] at e
      obtain ⟨⟨q, v⟩, hm, -, h⟩ := e
      cases h
      exact Nat.le_trans l1 (inflateMatch_le hm)

theorem inflateCoded_le {d : List Byte} {lit dst : Huff} {k p p' : Nat} {u u' : List Byte}
    (e : inflateCoded d lit dst k p u = some (p', u')) : p ≤ p' := by
  induction k generalizing p u with
  | zero => cases e
  | succ k ih =>
    rw [inflateCoded] at e
    split at e
    · cases e
    · rename_i h; cases e; exact inflateSym_le h
    · rename_i h; exact Nat.le_trans (inflateSym_le h) (ih e)

theorem readLens_le {d : List Byte} {h : Huff} {need k p p' : Nat} {acc ls : List Nat}
    (e : readLens d h need k p acc = some (p', ls)) : p ≤ p' := by
  induction k generalizing p acc with
  | zero => cases e
  | succ k ih =>
    rw [readLens] at e
    split_ifs at e
    · cases e; omega
    · split at e
      · cases e
      · rename_i sym p1 h1
        have := decodeSymFrom_le h1
        split_ifs at e
        · have := ih e; omega
        · split at e
          · have := ih e; omega
          · cases e
        · split at e
          · have := ih e; omega
          · cases e
        · split at e
          · have := ih e; omega
          · cases e

theorem dynTables_le {d : List Byte} {p p' : Nat} {ls : List Nat × List Nat} (e : dynTables d p = some (p', ls)) : p ≤ p' := by
  unfold dynTables at e
  split at e
  · split_ifs at e
    split at e
    · cases e
    · split_ifs at e
      split at e
      · cases e
      · rename_i h
        cases e
        have := readLens_le h; omega
  · cases e

theorem inflateStored_le {d : List Byte} {p p' : Nat} {u u' : List Byte} (e : inflateStored d p u = some (p', u')) : p ≤ p' := by
  unfold inflateStored at e
  simp only at e
  split at e
  · split_ifs at e
    cases e; omega
  · cases e

/-- A block that decodes ends at or after the position it starts from. -/
theorem inflateBlock_le {d : List Byte} {btype p p' : Nat} {u u' : List Byte}
    (e : inflateBlock d btype p u = some (p', u')) : p ≤ p' := by
  unfold inflateBlock at e
  split at e
  · exact inflateStored_le e
  · exact inflateCoded_le e
  · unfold inflateDyn at e
    split at e
    · cases e
    · rename_i q lit dst h
      split_ifs at e
      exact Nat.le_trans (dynTables_le h) (inflateCoded_le e)
  · cases e

/-! ### The loops' fuel makes no difference (R241, R242) -/

theorem bitAt_lt {d : List Byte} {p b : Nat} (h : bitAt d p = some b) : b < 2 := by
  unfold bitAt at h
  split at h
  · cases h; exact Nat.mod_lt _ (by norm_num)
  · cases h

theorem bitAt_bound {d : List Byte} {p b : Nat} (h : bitAt d p = some b) : p < 8 * d.length := by
  unfold bitAt at h
  split at h
  · rename_i x hd
    have := (List.getElem?_eq_some_iff.1 hd).1; omega
  · cases h

/-- A symbol takes at least one bit, and its bits lie inside the data. -/
theorem decodeSymFrom_bound {d : List Byte} {h : Huff} {c p sym p' : Nat} (e : decodeSymFrom d h c p = some (sym, p')) :
    p < p' ∧ p' ≤ 8 * d.length := by
  induction h generalizing c p with
  | nil => cases e
  | cons l rest ih =>
    obtain ⟨first, syms⟩ := l
    rw [decodeSymFrom] at e
    split at e
    · cases e
    · rename_i b hb
      have := bitAt_bound hb
      split at e
      · split at e
        · cases e; omega
        · have := ih e; omega
      · have := ih e; omega

theorem inflateSym_lt {d : List Byte} {lit dst : Huff} {p p' : Nat} {u u' : List Byte} {stop : Bool}
    (e : inflateSym d lit dst p u = some (stop, p', u')) : p < p' ∧ p < 8 * d.length := by
  unfold inflateSym at e
  cases h1 : decodeSym d lit p with
  | none => rw [h1] at e; cases e
  | some r1 =>
    obtain ⟨sym, p1⟩ := r1
    have l1 := decodeSymFrom_bound h1
    simp only [h1] at e
    split_ifs at e
    · cases e; omega
    · cases e; omega
    · simp only [Option.map_eq_some_iff, Prod.mk.injEq] at e
      obtain ⟨⟨q, v⟩, hm, -, h⟩ := e
      cases h
      have := inflateMatch_le hm
      omega

/-- Fuel beyond the bits that are left makes no difference. -/
theorem inflateCoded_fuel (d : List Byte) (lit dst : Huff) (j k p : Nat) (u : List Byte) (hj : 8 * d.length < p + j)
    (hk : 8 * d.length < p + k) (hj0 : 0 < j) (hk0 : 0 < k) : inflateCoded d lit dst j p u = inflateCoded d lit dst k p u := by
  induction j generalizing k p u with
  | zero => omega
  | succ j ih =>
    obtain ⟨k, rfl⟩ : ∃ m, k = m + 1 := ⟨k - 1, by omega⟩
    rw [inflateCoded, inflateCoded]
    cases hs : inflateSym d lit dst p u with
    | none => rfl
    | some r =>
      obtain ⟨stop, p', u'⟩ := r
      have := inflateSym_lt hs
      cases stop with
      | true => rfl
      | false => exact ih k p' u' (by omega) (by omega) (by omega) (by omega)

theorem inflateCoded_step (d : List Byte) (lit dst : Huff) (p : Nat) (u : List Byte) :
    inflateCoded d lit dst (bitFuel d) p u =
      match inflateSym d lit dst p u with
      | none => none
      | some (true, r) => some r
      | some (false, p', u') => inflateCoded d lit dst (bitFuel d) p' u' := by
  conv_lhs => rw [bitFuel, inflateCoded]
  cases hs : inflateSym d lit dst p u with
  | none => rfl
  | some r =>
    obtain ⟨stop, p', u'⟩ := r
    have := inflateSym_lt hs
    cases stop with
    | true => rfl
    | false => exact inflateCoded_fuel d lit dst _ _ p' u' (by omega) (by unfold bitFuel; omega) (by omega) (by unfold bitFuel; omega)

theorem readLens_fuel (d : List Byte) (h : Huff) (need j k p : Nat) (acc : List Nat) (hj : 8 * d.length < p + j)
    (hk : 8 * d.length < p + k) (hj0 : 0 < j) (hk0 : 0 < k) : readLens d h need j p acc = readLens d h need k p acc := by
  induction j generalizing k p acc with
  | zero => omega
  | succ j ih =>
    obtain ⟨k, rfl⟩ : ∃ m, k = m + 1 := ⟨k - 1, by omega⟩
    rw [readLens, readLens]
    split
    · rfl
    split
    · rfl
    cases hs : decodeSym d h p with
    | none => rfl
    | some r =>
      obtain ⟨sym, q⟩ := r
      have hb := decodeSymFrom_bound hs
      have go : ∀ n acc', readLens d h need j (q + n) acc' = readLens d h need k (q + n) acc' := fun n acc' =>
        ih k (q + n) acc' (by omega) (by omega) (by omega) (by omega)
      have go0 := go 0
      rw [Nat.add_zero] at go0
      simp only [go, go0]

theorem readLens_step (d : List Byte) (h : Huff) (need p sym q : Nat) (acc : List Nat) (hn : acc.length < need)
    (hs : decodeSym d h p = some (sym, q)) :
    readLens d h need (bitFuel d) p acc =
      if sym ≤ 15 then readLens d h need (bitFuel d) q (acc ++ [sym])
      else if sym = 16 then
        match acc.getLast?, bitsAt d q 2 with
        | some l, some v => readLens d h need (bitFuel d) (q + 2) (acc ++ List.replicate (3 + v) l)
        | _, _ => none
      else if sym = 17 then
        match bitsAt d q 3 with
        | some v => readLens d h need (bitFuel d) (q + 3) (acc ++ List.replicate (3 + v) 0)
        | none => none
      else
        match bitsAt d q 7 with
        | some v => readLens d h need (bitFuel d) (q + 7) (acc ++ List.replicate (11 + v) 0)
        | none => none := by
  conv_lhs => rw [bitFuel, readLens]
  rw [if_neg (by omega), if_neg (by omega), hs]
  have hb := decodeSymFrom_bound hs
  have go : ∀ n acc', readLens d h need (8 * d.length) (q + n) acc' = readLens d h need (bitFuel d) (q + n) acc' := fun n acc' =>
    readLens_fuel d h need _ _ (q + n) acc' (by omega) (by unfold bitFuel; omega) (by omega) (by unfold bitFuel; omega)
  have go0 := go 0
  rw [Nat.add_zero] at go0
  simp only [go, go0] <;> rfl

/-- A match appends `n` bytes, each the byte `dist` places before it. -/
theorem copyMatch_spec (dist n : Nat) (u : List Byte) (h0 : 0 < dist) (hd : dist ≤ u.length) :
    ∃ w, copyMatch dist n u = u ++ w ∧ w.length = n ∧
      ∀ k, k < n → (u ++ w)[u.length + k]? = (u ++ w)[u.length + k - dist]? := by
  induction n generalizing u with
  | zero => exact ⟨[], by simp [copyMatch], rfl, by simp⟩
  | succ n ih =>
    obtain ⟨w, e, hl, hk⟩ := ih (u ++ [u.getD (u.length - dist) 0]) (by simp; omega)
    refine ⟨u.getD (u.length - dist) 0 :: w, by rw [copyMatch, e, List.append_assoc]; rfl, by simp [hl], fun k hkn => ?_⟩
    have ea : u ++ u.getD (u.length - dist) 0 :: w = (u ++ [u.getD (u.length - dist) 0]) ++ w := by simp
    cases k with
    | zero =>
      rw [Nat.add_zero]
      rw [List.getElem?_append_right (Nat.le_refl _), List.getElem?_append_left (by omega)]
      simp [List.getD_eq_getElem?_getD, List.getElem?_eq_getElem (show u.length - dist < u.length by omega)]
    | succ k =>
      have := hk k (by omega)
      rw [List.length_append, List.length_singleton] at this
      rw [ea, show u.length + (k + 1) = u.length + 1 + k by omega]
      exact this

/-! ### Code tables (R239, U33) -/

/-- Entry `k` of the symbols of length `L` is the symbol before which `k` symbols have that length. -/
theorem symsOfLen_get {L sym k s0 : Nat} {lens : List Nat} : (symsOfLen L s0 lens)[k]? = some sym ↔
    ∃ i, sym = s0 + i ∧ lens[i]? = some L ∧ (lens.take i).count L = k := by
  induction lens generalizing k s0 with
  | nil => simp [symsOfLen]
  | cons l ls ih =>
    have shift : (∃ i, sym = s0 + i ∧ (l :: ls)[i]? = some L ∧ ((l :: ls).take i).count L = k) ↔
        (sym = s0 ∧ l = L ∧ k = 0) ∨ ∃ i, sym = s0 + 1 + i ∧ ls[i]? = some L ∧ (l :: ls.take i).count L = k := by
      constructor
      · rintro ⟨i, h1, h2, h3⟩
        cases i with
        | zero => simp at h2 h3; exact .inl ⟨h1, h2, h3.symm⟩
        | succ i => simp at h2 h3; exact .inr ⟨i, by omega, h2, h3⟩
      · rintro (⟨h1, h2, h3⟩ | ⟨i, h1, h2, h3⟩)
        · exact ⟨0, h1, by simp [h2], by simp [h3]⟩
        · exact ⟨i + 1, by omega, by simpa using h2, by simpa using h3⟩
    rw [shift, symsOfLen]
    by_cases hl : l = L
    · rw [if_pos hl]
      cases k with
      | zero =>
        simp only [List.getElem?_cons_zero, Option.some.injEq]
        constructor
        · intro h; exact .inl ⟨h.symm, hl, trivial⟩
        · rintro (⟨h, -⟩ | ⟨i, -, -, h⟩)
          · exact h.symm
          · rw [List.count_cons, if_pos (by simp [hl])] at h; omega
      | succ k =>
        rw [List.getElem?_cons_succ, ih]
        simp only [List.count_cons, hl, beq_self_eq_true, if_true]
        constructor
        · rintro ⟨i, h1, h2, h3⟩; exact .inr ⟨i, h1, h2, by omega⟩
        · rintro (⟨-, -, h⟩ | ⟨i, h1, h2, h3⟩)
          · omega
          · exact ⟨i, h1, h2, by omega⟩
    · rw [if_neg hl, ih]
      simp [hl]

theorem symsOfLen_length (L s0 : Nat) (lens : List Nat) : (symsOfLen L s0 lens).length = lens.count L := by
  induction lens generalizing s0 with
  | nil => rfl
  | cons l ls ih =>
    rw [symsOfLen, List.count_cons]
    split <;> simp_all

theorem codeAt_prefix {d : List Byte} {p c c' L n : Nat} (h : codeAt d p L = some c) (h' : codeAt d p (L + n) = some c') :
    c' / 2 ^ n = c := by
  induction n generalizing c' with
  | zero => rw [Nat.add_zero, h] at h'; cases h'; simp
  | succ n ih =>
    rw [← Nat.add_assoc, codeAt] at h'
    cases h1 : codeAt d p (L + n) with
    | none => simp [h1] at h'
    | some x =>
      cases h2 : bitAt d (p + (L + n)) with
      | none => simp [h1, h2] at h'
      | some b =>
        simp only [h1, h2, Option.some.injEq] at h'
        have hb : b < 2 := bitAt_lt h2
        rw [Nat.pow_succ, Nat.mul_comm, ← Nat.div_div_eq_div_mul, show c' / 2 = x by omega]
        exact ih h1

theorem firstCode_grow (lens : List Nat) {L : Nat} (hL : 0 < L) (n : Nat) :
    2 ^ n * (firstCode lens L + lens.count L) * 2 ≤ firstCode lens (L + n + 1) := by
  induction n with
  | zero => simp [firstCode, lenCount, show L ≠ 0 by omega]
  | succ n ih =>
    have : firstCode lens (L + (n + 1) + 1) = (firstCode lens (L + n + 1) + lenCount lens (L + n + 1)) * 2 := by
      rw [← Nat.add_assoc, firstCode]
    rw [this, Nat.pow_succ]
    have e : 2 ^ n * 2 * (firstCode lens L + lens.count L) * 2 = 2 ^ n * (firstCode lens L + lens.count L) * 2 * 2 := by ring
    omega

theorem kraft_one (l : Nat) : ((List.range 15).map (fun i => if l = i + 1 then 2 ^ (14 - i) else 0)).sum =
    if 1 ≤ l ∧ l ≤ 15 then 2 ^ (15 - l) else 0 := by
  by_cases hl : 1 ≤ l ∧ l ≤ 15
  · rw [if_pos hl]
    obtain ⟨h1, h2⟩ := hl
    interval_cases l <;> decide
  · rw [if_neg hl, List.sum_eq_zero]
    intro x hx
    obtain ⟨i, hi, rfl⟩ := List.mem_map.1 hx
    rw [List.mem_range] at hi
    exact if_neg (by omega)

theorem huffComplete_iff (lens : List Nat) : huffComplete lens = true ↔ kraftSum lens = 2 ^ 15 := by
  have h : ((List.range 15).map (fun i => lenCount lens (i + 1) * 2 ^ (14 - i))).sum = kraftSum lens := by
    unfold kraftSum
    generalize hr : List.range 15 = r
    induction lens with
    | nil =>
      rw [List.sum_eq_zero]
      · rfl
      · intro x hx
        obtain ⟨i, -, rfl⟩ := List.mem_map.1 hx
        simp [lenCount]
    | cons l ls ih =>
      rw [List.map_cons, List.sum_cons, ← ih, ← kraft_one, hr, ← List.sum_map_add]
      congr 2
      funext i
      simp only [lenCount, Nat.add_eq_zero_iff, one_ne_zero, and_false, if_false, List.count_cons, beq_iff_eq]
      split <;> ring
  rw [huffComplete, h, beq_iff_eq]

theorem readClLens_spec {d : List Byte} {order : List Nat} {p : Nat} {acc cl : List Nat} (hn : order.Nodup) (hk : ∀ k ∈ order, k < acc.length)
    (h : readClLens d order p acc = some cl) : cl.length = acc.length ∧
      (∀ j k, order[j]? = some k → cl[k]? = bitsAt d (p + 3 * j) 3) ∧ (∀ k, k ∉ order → cl[k]? = acc[k]?) := by
  induction order generalizing p acc with
  | nil => cases h; exact ⟨rfl, by simp, fun _ _ => rfl⟩
  | cons s order ih =>
    rw [readClLens] at h
    cases hv : bitsAt d p 3 with
    | none => simp [hv] at h
    | some v =>
      simp only [hv] at h
      obtain ⟨hs, hn'⟩ := List.nodup_cons.1 hn
      obtain ⟨h1, h2, h3⟩ := ih hn' (fun k hk' => by rw [List.length_set]; exact hk k (List.mem_cons_of_mem _ hk')) h
      rw [List.length_set] at h1
      refine ⟨h1, fun j k hj => ?_, fun k hk' => ?_⟩
      · cases j with
        | zero =>
          simp only [List.getElem?_cons_zero, Option.some.injEq] at hj
          subst hj
          rw [h3 s hs, List.getElem?_set_self (hk s List.mem_cons_self)]
          simp [hv]
        | succ j =>
          rw [List.getElem?_cons_succ] at hj
          rw [h2 j k hj]
          congr 1; omega
      · rw [h3 k (fun hm => hk' (List.mem_cons_of_mem _ hm)), List.getElem?_set_ne (by rintro rfl; exact hk' List.mem_cons_self)]

theorem readClLens_isSome {d : List Byte} {order : List Nat} {p : Nat} {acc : List Nat}
    (h : ∀ j, j < order.length → (bitsAt d (p + 3 * j) 3).isSome = true) : ∃ cl, readClLens d order p acc = some cl := by
  induction order generalizing p acc with
  | nil => exact ⟨acc, rfl⟩
  | cons s order ih =>
    rw [readClLens]
    have h0 := h 0 (by simp)
    rw [Nat.mul_zero, Nat.add_zero] at h0
    obtain ⟨v, hv⟩ := Option.isSome_iff_exists.1 h0
    rw [hv]
    exact ih (fun j hj => by
      have := h (j + 1) (by simp; omega)
      rwa [show p + 3 * (j + 1) = p + 3 + 3 * j by omega] at this)

theorem clOrder_perm (k : Nat) : k < 19 ↔ k ∈ clOrder := by
  constructor
  · intro h; interval_cases k <;> decide
  · intro h; simp [clOrder] at h; omega

/-- The code-length lengths, both ways. -/
theorem readCl_iff {d : List Byte} {c p : Nat} {cl : List Nat} :
    readClLens d (clOrder.take (c + 4)) p (List.replicate 19 0) = some cl ↔ cl.length = 19 ∧
      ∀ j k, clOrder[j]? = some k → cl[k]? = if j < c + 4 then bitsAt d (p + 3 * j) 3 else some 0 := by
  have hnd : clOrder.Nodup := by decide
  have hfor : ∀ {cl}, readClLens d (clOrder.take (c + 4)) p (List.replicate 19 0) = some cl → cl.length = 19 ∧
      ∀ j k, clOrder[j]? = some k → cl[k]? = if j < c + 4 then bitsAt d (p + 3 * j) 3 else some 0 := by
    intro cl h
    obtain ⟨h1, h2, h3⟩ := readClLens_spec (hnd.sublist (List.take_sublist _ _))
      (fun k hk => by rw [List.length_replicate]; exact (clOrder_perm k).2 (List.mem_of_mem_take hk)) h
    refine ⟨by simpa using h1, fun j k hj => ?_⟩
    split
    · rename_i hlt
      exact h2 j k (by rw [List.getElem?_take_of_lt hlt]; exact hj)
    · rename_i hge
      rw [h3 k ?_]
      · have : k < 19 := (clOrder_perm k).2 (List.mem_of_getElem? hj)
        rw [List.getElem?_replicate, if_pos this]
      · intro hm
        obtain ⟨i, hi⟩ := List.mem_iff_getElem?.1 hm
        have hi2 : i < c + 4 := by
          have := (List.getElem?_eq_some_iff.1 hi).1
          rw [List.length_take] at this; omega
        rw [List.getElem?_take_of_lt hi2] at hi
        have hi3 := (List.getElem?_eq_some_iff.1 hi).1
        have := (List.getElem?_inj hi3 hnd).1 (hi.trans hj.symm)
        omega
  refine ⟨hfor, fun ⟨h1, h2⟩ => ?_⟩
  obtain ⟨cl', h'⟩ := readClLens_isSome (d := d) (order := clOrder.take (c + 4)) (p := p) (acc := List.replicate 19 0) (fun j hj => by
    rw [List.length_take] at hj
    have hl : clOrder.length = 19 := rfl
    obtain ⟨k, hk⟩ : ∃ k, clOrder[j]? = some k := ⟨_, List.getElem?_eq_getElem (by omega)⟩
    have := h2 j k hk
    rw [if_pos (by omega)] at this
    rw [← this, List.getElem?_eq_getElem (by rw [h1]; exact (clOrder_perm k).2 (List.mem_of_getElem? hk))]
    rfl)
  obtain ⟨g1, g2⟩ := hfor h'
  rw [h']
  congr 1
  apply List.ext_getElem?
  intro k
  by_cases hk : k < 19
  · obtain ⟨j, hj⟩ := List.mem_iff_getElem?.1 ((clOrder_perm k).1 hk)
    rw [g2 j k hj, h2 j k hj]
  · rw [List.getElem?_eq_none (by omega), List.getElem?_eq_none (by omega)]

/-! ### The trailer and the stored block (R233, R234, R238) -/

/-- The last conditions of `ZDecompress`: what is left behind the last block's whole bytes is the trailer and nothing else. -/
theorem zTrailer_eq (z : List Byte) (p : Nat) (u : List Byte) :
    zTrailer z p u = if z.drop (2 + (p + 7) / 8) = splitBe32 (adler32 u) then some u else none := by
  unfold zTrailer
  by_cases h : z.drop (2 + (p + 7) / 8) = splitBe32 (adler32 u)
  · have := congrArg List.length h
    simp [splitBe32] at this
    rw [if_pos h, if_pos ⟨by omega, h⟩]
  · rw [if_neg h, if_neg (fun h' => h h'.2)]

theorem getElem?_of_drop {d bs rest : List Byte} {q k : Nat} (h : d.drop q = bs ++ rest) (hk : k < bs.length) : d[q + k]? = bs[k]? := by
  rw [← List.getElem?_drop, h, List.getElem?_append_left hk]

/-- `NLEN` is the complement of `LEN` exactly when they add up to 65535. -/
theorem nlen_iff (len nlen : BitVec 16) : nlen = len ^^^ 0xFFFF ↔ len.toNat + nlen.toNat = 65535 := by
  have h : len ^^^ 0xFFFF = BitVec.allOnes 16 - len := by
    rw [show (0xFFFF : BitVec 16) = BitVec.allOnes 16 from rfl, BitVec.xor_allOnes, BitVec.not_eq_neg_add, BitVec.sub_eq_add_neg]
    rw [BitVec.sub_eq_add_neg, BitVec.add_comm (BitVec.allOnes 16)]; rfl
  have hl : len.toNat < 65536 := len.isLt
  have hn : nlen.toNat < 65536 := nlen.isLt
  rw [h]
  constructor
  · rintro rfl
    rw [BitVec.toNat_sub, BitVec.toNat_allOnes]; omega
  · intro h
    apply BitVec.eq_of_toNat_eq
    rw [BitVec.toNat_sub, BitVec.toNat_allOnes]; omega

/-- A stored block whose length bytes are there (R238). -/
theorem inflateStored_cases {d body : List Byte} {p : Nat} {u : List Byte} {len nlen : BitVec 16}
    (h : d.drop ((p + 7) / 8) = splitLe16 len ++ splitLe16 nlen ++ body) :
    inflateStored d p u = if nlen = len ^^^ 0xFFFF ∧ len.toNat ≤ body.length then
      some (8 * ((p + 7) / 8 + 4 + len.toNat), u ++ body.take len.toNat) else none := by
  set q := (p + 7) / 8 with hq
  have h' : d.drop q = [len.extractLsb' 0 8, len.extractLsb' 8 8, nlen.extractLsb' 0 8, nlen.extractLsb' 8 8] ++ body := by
    rw [h]; simp [splitLe16]
  have g : ∀ k, k < 4 → d[q + k]? = [len.extractLsb' 0 8, len.extractLsb' 8 8, nlen.extractLsb' 0 8, nlen.extractLsb' 8 8][k]? :=
    fun k hk => getElem?_of_drop h' hk
  have e1 : bitsAt d (8 * q) 16 = some len.toNat := by
    have := bitsAt_le16 (d := d) (q := q) (g 0 (by omega)) (g 1 (by omega))
    simpa [le16_splitLe16] using this
  have e2 : bitsAt d (8 * q + 16) 16 = some nlen.toNat := by
    have := bitsAt_le16 (d := d) (q := q + 2) (g 2 (by omega)) (g 3 (by omega))
    rw [show 8 * q + 16 = 8 * (q + 2) by ring]
    simpa [le16_splitLe16] using this
  have hd4 : d.drop (q + 4) = body := by
    have := congrArg (List.drop 4) h'
    simpa [List.drop_drop] using this
  have hlen : q + 4 + len.toNat ≤ d.length ↔ len.toNat ≤ body.length := by
    have := congrArg List.length h'
    simp at this; omega
  unfold inflateStored
  simp only [← hq, e1, e2]
  rw [show 8 * q / 8 = q by omega, hd4]
  simp only [hlen, nlen_iff]
  split_ifs
  · congr 2; ring
  · rfl

/-- A stored block whose length bytes are cut short is invalid (R235). -/
theorem inflateStored_short {d : List Byte} {p : Nat} {u : List Byte} (h : (d.drop ((p + 7) / 8)).length < 4) :
    inflateStored d p u = none := by
  cases e : inflateStored d p u with
  | none => rfl
  | some r =>
    exfalso
    unfold inflateStored at e
    simp only at e
    split at e
    · rename_i h2
      have := bitsAt_bound h2
      simp at h; omega
    · cases e

end Sys2Proof.Machine
end

