-- ==== Sys2Proof/Laws/PerInstr.lean ====
section
/-! SUPPORT. A law about every instruction as a piece of data, one lemma per constructor: its encoding takes 1 to 12 bytes, whatever the
decompressor's registers are. -/

namespace Sys2Proof.Laws

/-- The words of an instruction are 1 to 12 bytes long (the longest is the trailer chunk, R207). -/
def EncodedLength.Statement (i : Instr) : Prop :=
  ∀ c : LzwCtx, 1 ≤ (encode c i).length ∧ (encode c i).length ≤ 12

theorem encodeCode_length (cw v : Nat) : 1 ≤ (encodeCode cw v).length ∧ (encodeCode cw v).length ≤ 12 := by
  unfold encodeCode; split <;> simp

theorem EncodedLength.sbTerm : EncodedLength.Statement .sbTerm := by intro c; simp [encode]
theorem EncodedLength.sbData (len : Byte) : EncodedLength.Statement (.sbData len) := by intro c; simp [encode]
theorem EncodedLength.lzwSize (n : Byte) : EncodedLength.Statement (.lzwSize n) := by intro c; simp [encode]
theorem EncodedLength.lzwSizeIll (n : Byte) : EncodedLength.Statement (.lzwSizeIll n) := by intro c; simp [encode]
theorem EncodedLength.lzwClr : EncodedLength.Statement .lzwClr := fun _ => encodeCode_length _ _
theorem EncodedLength.lzwEoi : EncodedLength.Statement .lzwEoi := fun _ => encodeCode_length _ _
theorem EncodedLength.lzwLit (code : Code) : EncodedLength.Statement (.lzwLit code) := fun _ => encodeCode_length _ _
theorem EncodedLength.lzwRef (code : Code) : EncodedLength.Statement (.lzwRef code) := fun _ => encodeCode_length _ _
theorem EncodedLength.lzwKwk (code : Code) : EncodedLength.Statement (.lzwKwk code) := fun _ => encodeCode_length _ _
theorem EncodedLength.lzwIll (code : Code) : EncodedLength.Statement (.lzwIll code) := fun _ => encodeCode_length _ _
theorem EncodedLength.cmdReset : EncodedLength.Statement .cmdReset := by intro c; simp [encode]
theorem EncodedLength.cmdDecode : EncodedLength.Statement .cmdDecode := by intro c; simp [encode]
theorem EncodedLength.cmdEncode : EncodedLength.Statement .cmdEncode := by intro c; simp [encode]
theorem EncodedLength.cmdRsvd (v : Byte) : EncodedLength.Statement (.cmdRsvd v) := by intro c; simp [encode]
theorem EncodedLength.pngSig : EncodedLength.Statement .pngSig := by intro c; simp [encode, sigBytes]
theorem EncodedLength.pngIhdr : EncodedLength.Statement .pngIhdr := by
  intro c; simp [encode, lenBe32, splitBe32, tagIHDR]
theorem EncodedLength.pngPlte : EncodedLength.Statement .pngPlte := by
  intro c; simp [encode, lenBe32, splitBe32, tagPLTE]
theorem EncodedLength.pngTrns : EncodedLength.Statement .pngTrns := by
  intro c; simp [encode, lenBe32, splitBe32, tagTRNS]
theorem EncodedLength.pngIdat : EncodedLength.Statement .pngIdat := by
  intro c; simp [encode, lenBe32, splitBe32, tagIDAT]
theorem EncodedLength.pngIend : EncodedLength.Statement .pngIend := by
  intro c; simp [encode, lenBe32, splitBe32, tagIEND, crcIEND]
theorem EncodedLength.zlibHdr (cmf flg : Byte) : EncodedLength.Statement (.zlibHdr cmf flg) := by intro c; simp [encode]
theorem EncodedLength.deflStored (b : Bool) : EncodedLength.Statement (.deflStored b) := by
  intro c; simp [encode, encodeDblk]
theorem EncodedLength.deflFixed (b : Bool) : EncodedLength.Statement (.deflFixed b) := by
  intro c; simp [encode, encodeDblk]
theorem EncodedLength.deflDyn (b : Bool) : EncodedLength.Statement (.deflDyn b) := by
  intro c; simp [encode, encodeDblk]
theorem EncodedLength.deflRsvd (b : Bool) : EncodedLength.Statement (.deflRsvd b) := by
  intro c; simp [encode, encodeDblk]
theorem EncodedLength.gifTrailer : EncodedLength.Statement .gifTrailer := by intro c; simp [encode]
theorem EncodedLength.gifExt : EncodedLength.Statement .gifExt := by intro c; simp [encode]
theorem EncodedLength.gifImg : EncodedLength.Statement .gifImg := by intro c; simp [encode]
theorem EncodedLength.gifBadtag (t : Byte) : EncodedLength.Statement (.gifBadtag t) := by intro c; simp [encode]
theorem EncodedLength.extGce : EncodedLength.Statement .extGce := by intro c; simp [encode]
theorem EncodedLength.extPte : EncodedLength.Statement .extPte := by intro c; simp [encode]
theorem EncodedLength.extApp : EncodedLength.Statement .extApp := by intro c; simp [encode]
theorem EncodedLength.extCom : EncodedLength.Statement .extCom := by intro c; simp [encode]
theorem EncodedLength.extBad (k : Byte) : EncodedLength.Statement (.extBad k) := by intro c; simp [encode]

end Sys2Proof.Laws
end

