-- ==== Sys2Proof/Tests/Slice0.lean ====
section
/-! SUPPORT. Checks of this model against the spec's tables and worked examples (spec/95_test_vectors.md; the vector is named at
each test), and a witness for every statement that has hypotheses. -/

namespace Sys2Proof.Tests

open Sys2Proof Sys2Proof.Machine

/-! ### Helpers -/

/-- The registers of the decompressor as LZW.SIZE leaves them for `N` = 2 and `target` bytes (R153). -/
def lzd2 (target : Nat) : Lzd :=
  { n := 2, clear := 4, eoi := 5, cw := 3, next := 6, prev := none, bitbuf := 0, bitcnt := 0, outcnt := 0, target := target }

/-- The reset state, with numbers in the working registers and the reference compressor, so that it can be computed with. -/
def blank : State :=
  { State.reset with lzd := lzd2 0, ser := { crc := 0, adlA := 0, adlB := 0 }, cfg := { Config.initial with compressor := .reference } }

/-- `s` with `bytes` on `IN`. -/
def withIn (bytes : List Byte) (s : State) : State := { s with env := { s.env with inData := bytes } }

/-- The next `n` calls of `InRead` succeed, the one after them fails. -/
def inFailsAt (n : Nat) (s : State) : State := { s with env := { s.env with inFails := List.replicate n false ++ [true] } }

/-- A frame of `w` by `h` bytes is being decoded, with the registers `l`. -/
def running (w h : BitVec 16) (l : Lzd) : State := { blank with width := w, height := h, seq := .lzdRun, lzd := l }

/-- The palette of vectors S1 and S2: black, red, green, blue. -/
def pal4 : Memory (BitVec 24) := [(0, 0x000000), (1, 0xFF0000), (2, 0x00FF00), (3, 0x0000FF)]

/-- The block of vectors S1 and S2 before `cmd ENCODE`: a frame of 2 by 2 bytes and four palette entries. -/
def encodable (trns : BitVec 16) : State :=
  { blank with
    width := 2, height := 2, trns := trns, palN := 4, fbLen := 4, pal := pal4
    fb := [(0, 0x00), (1, 0x01), (2, 0x02), (3, 0x03)] }

/-- The same in a phase of the serializer. -/
def serializing (q : Seq) (trns : BitVec 16) : State := { encodable trns with seq := q }

/-- What `exec` leaves in one place of the state. -/
def after {α : Type} (f : State → α) : Host.Outcome State Fault Refusal → Option α
  | .next s => some (f s)
  | .fault _ => none
  | .refused _ => none

/-- The container parser at a tag or an extension sub-type, with `bytes` on `IN`. -/
def parsing (p : GifPhase) (bytes : List Byte) : State := withIn bytes { blank with gif := { GifHost.initial with phase := p } }

/-! ### Reset (R50) -/

theorem test_reset_status : (statusWord State.reset.status, State.reset.errcode, State.reset.trns) = (0, 0, 0xFFFF) := by decide
theorem test_reset_phase : State.reset.seq = .idle ∧ State.reset.dfr = { len := 0, pos := 0, st := .active } := by decide

/-! ### Well-formedness: each check refuses a term -/

theorem test_wf_sbData : (Instr.sbData 0x00).wf tableCtx = false := by decide
theorem test_wf_lzwSize : (Instr.lzwSize 1).wf tableCtx = false ∧ (Instr.lzwSize 9).wf tableCtx = false := by decide
theorem test_wf_lzwSizeIll : (Instr.lzwSizeIll 2).wf tableCtx = false ∧ (Instr.lzwSizeIll 8).wf tableCtx = false := by decide
theorem test_wf_lzwLit : (Instr.lzwLit 4).wf tableCtx = false := by decide
theorem test_wf_lzwRef : (Instr.lzwRef 5).wf tableCtx = false ∧ (Instr.lzwRef 7).wf tableCtx = false := by decide
theorem test_wf_lzwKwk : (Instr.lzwKwk 8).wf tableCtx = false ∧
    (Instr.lzwKwk 7).wf { tableCtx with hasPrev := false } = false ∧
    (Instr.lzwKwk 0).wf { tableCtx with next := 4096 } = false := by decide
theorem test_wf_lzwIll : (Instr.lzwIll 7).wf tableCtx = false ∧ (Instr.lzwIll 8).wf { tableCtx with cw := 3 } = false := by decide
theorem test_wf_cmdRsvd : (Instr.cmdRsvd 0x01).wf tableCtx = false ∧ (Instr.cmdRsvd 0x03).wf tableCtx = false := by decide
theorem test_wf_zlibHdr : (Instr.zlibHdr 0x78 0xDB).wf tableCtx = false ∧ (Instr.zlibHdr 0x88 0x1C).wf tableCtx = false ∧
    (Instr.zlibHdr 0x79 0xDA).wf tableCtx = false ∧ (Instr.zlibHdr 0x78 0x20).wf tableCtx = false := by decide
theorem test_wf_gifBadtag : (Instr.gifBadtag 0x3B).wf tableCtx = false ∧ (Instr.gifBadtag 0x2C).wf tableCtx = false := by decide
theorem test_wf_extBad : (Instr.extBad 0xF9).wf tableCtx = false ∧ (Instr.extBad 0xFE).wf tableCtx = false := by decide
theorem test_ctx_clear : LzwCtx.ok { tableCtx with clear := 5 } = false := by decide
theorem test_ctx_eoi : LzwCtx.ok { tableCtx with eoi := 6 } = false := by decide
theorem test_ctx_width : LzwCtx.ok { tableCtx with cw := 13 } = false ∧ LzwCtx.ok { tableCtx with cw := 2 } = false := by decide
theorem test_ctx_next : LzwCtx.ok { tableCtx with next := 5 } = false ∧ LzwCtx.ok { tableCtx with cw := 3, next := 8 } = false := by
  decide

/-! ### Decoding: every row, from words written out from the format tables (R91 to R113) -/

theorem test_decode_sbTerm : decode .sb tableCtx [0b00000000, 0x55] = .ok (.sbTerm, [0x55]) := rfl
theorem test_decode_sbData : decode .sb tableCtx [0b11111111] = .ok (.sbData 255, []) := rfl
theorem test_decode_lzwSize : decode .lzwn tableCtx [0b00000010] = .ok (.lzwSize 2, []) := rfl
theorem test_decode_lzwSizeIll : decode .lzwn tableCtx [0b00001001] = .ok (.lzwSizeIll 9, []) := rfl
/-- A width of 3: the code is bits 2 to 0 of the byte, and the bits above them are not its bits (R65, R96). -/
theorem test_decode_lzwClr : decode .lzwc { tableCtx with cw := 3 } [0b01000100] = .ok (.lzwClr, []) := rfl
theorem test_decode_lzwEoi : decode .lzwc { tableCtx with cw := 3 } [0b00000101] = .ok (.lzwEoi, []) := rfl
theorem test_decode_lzwLit : decode .lzwc tableCtx [0x03, 0xF0] = .ok (.lzwLit 3, []) := rfl
theorem test_decode_lzwRef : decode .lzwc tableCtx [0x06, 0x00] = .ok (.lzwRef 6, []) := rfl
theorem test_decode_lzwKwk : decode .lzwc tableCtx [0x07, 0x00] = .ok (.lzwKwk 7, []) := rfl
theorem test_decode_lzwIll : decode .lzwc tableCtx [0x34, 0x02] = .ok (.lzwIll 0x234, []) := rfl
theorem test_decode_cmdReset : decode .cmd tableCtx [0x01] = .ok (.cmdReset, []) := rfl
theorem test_decode_cmdDecode : decode .cmd tableCtx [0x02] = .ok (.cmdDecode, []) := rfl
theorem test_decode_cmdEncode : decode .cmd tableCtx [0x03] = .ok (.cmdEncode, []) := rfl
theorem test_decode_cmdRsvd : decode .cmd tableCtx [0x00] = .ok (.cmdRsvd 0, []) ∧ decode .cmd tableCtx [0x04] = .ok (.cmdRsvd 4, []) :=
  ⟨rfl, rfl⟩
theorem test_decode_pngSig : decode .sig tableCtx [0x89, 0x50, 0x4E, 0x47, 0x0D, 0x0A, 0x1A, 0x0A] = .ok (.pngSig, []) := rfl
theorem test_decode_pngIhdr : decode .chunk tableCtx [0x00, 0x00, 0x00, 0x0D, 0x49, 0x48, 0x44, 0x52] = .ok (.pngIhdr, []) := rfl
theorem test_decode_pngPlte : decode .chunk tableCtx [0x00, 0x00, 0x00, 0x0C, 0x50, 0x4C, 0x54, 0x45] = .ok (.pngPlte, []) := rfl
theorem test_decode_pngTrns : decode .chunk tableCtx [0x00, 0x00, 0x00, 0x03, 0x74, 0x52, 0x4E, 0x53] = .ok (.pngTrns, []) := rfl
theorem test_decode_pngIdat : decode .chunk tableCtx [0x00, 0x00, 0x00, 0x11, 0x49, 0x44, 0x41, 0x54] = .ok (.pngIdat, []) := rfl
theorem test_decode_pngIend : decode .chunk tableCtx
    [0x00, 0x00, 0x00, 0x00, 0x49, 0x45, 0x4E, 0x44, 0xAE, 0x42, 0x60, 0x82] = .ok (.pngIend, []) := rfl
theorem test_decode_zlibHdr : decode .zhdr tableCtx [0x78, 0xDA] = .ok (.zlibHdr 0x78 0xDA, []) := rfl
theorem test_decode_deflStored : decode .dblk tableCtx [0b000] = .ok (.deflStored false, []) := rfl
theorem test_decode_deflFixed : decode .dblk tableCtx [0b011] = .ok (.deflFixed true, []) := rfl
theorem test_decode_deflDyn : decode .dblk tableCtx [0b11100101] = .ok (.deflDyn true, []) := rfl
theorem test_decode_deflRsvd : decode .dblk tableCtx [0b110] = .ok (.deflRsvd false, []) := rfl
theorem test_decode_gifTrailer : decode .gtag tableCtx [0b00111011] = .ok (.gifTrailer, []) := rfl
theorem test_decode_gifExt : decode .gtag tableCtx [0b00100001] = .ok (.gifExt, []) := rfl
theorem test_decode_gifImg : decode .gtag tableCtx [0b00101100] = .ok (.gifImg, []) := rfl
theorem test_decode_gifBadtag : decode .gtag tableCtx [0x00] = .ok (.gifBadtag 0, []) := rfl
theorem test_decode_extGce : decode .gext tableCtx [0b11111001] = .ok (.extGce, []) := rfl
theorem test_decode_extPte : decode .gext tableCtx [0b00000001] = .ok (.extPte, []) := rfl
theorem test_decode_extApp : decode .gext tableCtx [0b11111111] = .ok (.extApp, []) := rfl
theorem test_decode_extCom : decode .gext tableCtx [0b11111110] = .ok (.extCom, []) := rfl
theorem test_decode_extBad : decode .gext tableCtx [0x02] = .ok (.extBad 2, []) := rfl
/-- Refused by name: a bad signature, an unknown chunk tag, a header that is not a multiple of 31, too few bytes. -/
theorem test_decode_refused : decode .sig tableCtx [0x89, 0x50, 0x4E, 0x47, 0x0D, 0x0A, 0x1A, 0x0B] = .error .signature ∧
    decode .chunk tableCtx [0x00, 0x00, 0x00, 0x00, 0x74, 0x45, 0x58, 0x74] = .error .chunk ∧
    decode .zhdr tableCtx [0x78, 0xDB] = .error .zlibHeader ∧ decode .lzwc tableCtx [0x04] = .error .short := ⟨rfl, rfl, rfl, rfl⟩

/-- The table's word of a command is read as that command, and the next step runs it (R98). -/
theorem test_tableWord_cmd : decodeTableWord 8 0x02 = some .cmdDecode ∧
    step (State.reset.withFetchWord 8 0x02) = exec .cmdDecode State.reset := ⟨rfl, rfl⟩
theorem test_tableWord_chunk : decodeTableWord 64 0x0000000D49484452 = some .pngIhdr ∧ decodeTableWord 8 0x2C = some .gifImg := by
  decide

/-! ### One step of each instruction -/

/-- V1: after the code `05` the next length byte is the terminator (R134). -/
theorem test_sbTerm : after (·.dfr) (exec .sbTerm (running 2 2 (lzd2 4))) = some { len := 0, pos := 0, st := .eof } := by decide
/-- V1: `03 44 34 05` is fetched whole. -/
theorem test_sbData : after (fun s => (s.dfrbuf, s.dfr.len, s.env.inPos)) (exec (.sbData 3) (withIn [0x44, 0x34, 0x05] blank)) =
    some ([(0, 0x44), (1, 0x34), (2, 0x05)], 3, 3) := by decide
/-- V10: a payload one byte short is `TruncatedStreamError(SB_PAYLOAD)`, code 0x22, with `IN` at its end. -/
theorem test_sbData_short : after (fun s => (s.errcode, s.env.inPos, s.dfr.len)) (exec (.sbData 3) (withIn [0x44, 0x34] blank)) =
    some (0x22, 2, 0) := by decide
/-- V16: `N` = 8: clear 256, end code 257, width 9, first entry 258. -/
theorem test_lzwSize : after (fun s => (s.lzd.clear, s.lzd.eoi, s.lzd.cw, s.lzd.next)) (exec (.lzwSize 8) blank) =
    some (256, 257, 9, 258) := by decide
/-- V13: the byte 09 is `FormatError(LZW_CODE_SIZE)`, code 0x17. -/
theorem test_lzwSizeIll : after (fun s => (s.errcode, statusWord s.status)) (exec (.lzwSizeIll 9) blank) = some (0x17, 0b10) := by
  decide
theorem test_lzwClr : after (fun s => (s.lzd.cw, s.lzd.next, s.lzd.prev))
    (exec .lzwClr (running 4 1 { lzd2 4 with cw := 4, next := 9, prev := some 3 })) = some (3, 6, none) := by decide
/-- V8: the end code while bytes are owed is `IncompleteFrameError(LZW_EOI)`, code 0x42. -/
theorem test_lzwEoi : after (fun s => (s.errcode, s.seq)) (exec .lzwEoi (running 4 1 (lzd2 4))) = some (0x42, .fault) := by decide
/-- V1, the code 2 after the code 1: one byte, the entry 7 = (1, 2), and width 4 when `next` becomes 8. -/
theorem test_lzwLit : after (fun s => (s.fb, s.dict, s.lzd.outcnt))
    (exec (.lzwLit 2) (running 2 2 { lzd2 4 with next := 7, prev := some 1, outcnt := 2 })) =
    some ([(2, 0x02)], [(7, { pre := 1, suf := 2 })], 3) := by decide
theorem test_lzwLit_width : after (fun s => (s.lzd.next, s.lzd.cw, s.lzd.prev))
    (exec (.lzwLit 2) (running 2 2 { lzd2 4 with next := 7, prev := some 1, outcnt := 2 })) = some (8, 4, some 2) := by decide
theorem test_lzwRef : after (fun s => (s.fb, s.lzd.outcnt, s.lzd.prev))
    (exec (.lzwRef 6) { running 4 1 { lzd2 4 with next := 7, prev := some 3 } with dict := [(6, { pre := 0, suf := 1 })] }) =
    some ([(0, 0x00), (1, 0x01)], 2, some 6) := by decide
/-- V2: codes 1, 6: the code 6 is the string 1 1, which is also its own entry. -/
theorem test_lzwKwk : after (fun s => (s.fb, s.dict, s.lzd.outcnt))
    (exec (.lzwKwk 6) { running 6 1 { lzd2 6 with prev := some 1, outcnt := 1 } with fb := [(0, 0x01)] }) =
    some ([(0, 0x01), (1, 0x01), (2, 0x01)], [(6, { pre := 1, suf := 1 })], 3) := by decide
/-- V11: the string is cut at the target. -/
theorem test_lzwKwk_cut : after (fun s => (s.fb, s.lzd.outcnt))
    (exec (.lzwKwk 6) { running 2 1 { lzd2 2 with prev := some 1, outcnt := 1 } with fb := [(0, 0x01)] }) =
    some ([(0, 0x01), (1, 0x01)], 2) := by decide
/-- V7: an impossible code is `FormatError(LZW_CODE)`, code 0x18. -/
theorem test_lzwIll : after (·.errcode) (exec (.lzwIll 6) (running 4 1 (lzd2 4))) = some 0x18 := by decide
/-- Q4: reset clears a fault and the registers. -/
theorem test_cmdReset : after (fun s => (statusWord s.status, s.errcode, s.width, s.trns)) (exec .cmdReset
    (raiseExc .lzwEoi (encodable 2))) = some (0, 0, 0, 0xFFFF) := by decide
/-- Q5: a frame larger than `FB_CAP` is refused, code 0x53. -/
theorem test_cmdDecode_cap : after (·.errcode) (exec .cmdDecode { encodable 2 with cfg := { blank.cfg with fbCap := 3 } }) =
    some 0x53 := by decide
/-- Q3: a command while `ERR` is 1 leaves `ERRCODE` alone. -/
theorem test_cmdDecode_sticky : after (·.errcode) (exec .cmdDecode (raiseExc .lzwEoi blank)) = some 0x42 := by decide
/-- Q1: `PAL_N` = 0 is refused, code 0x54. -/
theorem test_cmdEncode_palN : after (·.errcode) (exec .cmdEncode blank) = some 0x54 := by decide
/-- Z1: the Adler registers end at A = 7, B = 17 for the filtered bytes 00 00 01 00 02 03. -/
theorem test_cmdEncode : after (fun s => (s.seq, s.ser.adlA, s.ser.adlB, s.env.out)) (exec .cmdEncode (encodable 0xFFFF)) =
    some (.serSig, 7, 17, []) := by decide
/-- Q2: a reserved command is refused, code 0x51. -/
theorem test_cmdRsvd : after (·.errcode) (exec (.cmdRsvd 7) blank) = some 0x51 := by decide
/-- S1: bytes 0 to 7 of the file. -/
theorem test_pngSig : after (fun s => (s.env.out, s.seq)) (exec .pngSig (serializing .serSig 0xFFFF)) =
    some ([0x89, 0x50, 0x4E, 0x47, 0x0D, 0x0A, 0x1A, 0x0A], .serIhdr) := by decide
/-- S1: bytes 8 to 32 of the file. -/
theorem test_pngIhdr : after (·.env.out) (exec .pngIhdr (serializing .serIhdr 0xFFFF)) = some
    [0x00, 0x00, 0x00, 0x0D, 0x49, 0x48, 0x44, 0x52, 0x00, 0x00, 0x00, 0x02, 0x00, 0x00, 0x00, 0x02, 0x08, 0x03, 0x00, 0x00, 0x00,
     0x45, 0x68, 0xFD, 0x16] := by decide +kernel
/-- S9: a write that fails is `IOError(OUT_WRITE)`, code 0x32, and the bytes before it stay. -/
theorem test_pngIhdr_fail : after (fun s => (s.env.out, s.errcode)) (exec .pngIhdr
    { serializing .serIhdr 0xFFFF with env := { Env.initial with outFails := [false, false, false, false, true] } }) =
    some ([0x00, 0x00, 0x00, 0x0D], 0x32) := by decide +kernel
/-- S1: bytes 33 to 56 of the file. -/
theorem test_pngPlte : after (fun s => (s.env.out, s.seq)) (exec .pngPlte (serializing .serPlte 0xFFFF)) = some
    ([0x00, 0x00, 0x00, 0x0C, 0x50, 0x4C, 0x54, 0x45, 0x00, 0x00, 0x00, 0xFF, 0x00, 0x00, 0x00, 0xFF, 0x00, 0x00, 0x00, 0xFF,
      0x9B, 0xC0, 0x13, 0xDC], .serIdat) := by decide +kernel
/-- S2: the transparency chunk for index 2. -/
theorem test_pngTrns : after (fun s => (s.env.out, s.seq)) (exec .pngTrns (serializing .serTrns 2)) = some
    ([0x00, 0x00, 0x00, 0x03, 0x74, 0x52, 0x4E, 0x53, 0xFF, 0xFF, 0x00, 0xD7, 0xCA, 0x0D, 0x41], .serIdat) := by decide +kernel
/-- Z1: the compressed payload of S1, between the chunk's tag and its checksum. -/
theorem test_pngIdat : after (fun s => (s.env.out.take 25, s.seq)) (exec .pngIdat (serializing .serIdat 0xFFFF)) = some
    ([0x00, 0x00, 0x00, 0x11, 0x49, 0x44, 0x41, 0x54, 0x78, 0xDA, 0x01, 0x06, 0x00, 0xF9, 0xFF, 0x00, 0x00, 0x01, 0x00, 0x02, 0x03,
      0x00, 0x11, 0x00, 0x07], .serIend) := by decide +kernel
/-- S1: the last 12 bytes of the file; the command succeeds. -/
theorem test_pngIend : after (fun s => (s.env.out, s.seq, statusWord s.status)) (exec .pngIend (serializing .serIend 0xFFFF)) = some
    ([0x00, 0x00, 0x00, 0x00, 0x49, 0x45, 0x4E, 0x44, 0xAE, 0x42, 0x60, 0x82], .idle, 0b01) := by decide +kernel

/-- The yardstick at a block whose three header bits are read, in the deflate data `d` (the two header bytes are not looked at). -/
def inflating (d : List Byte) : State := { blank with yard := { st := .block, z := [0x78, 0xDA] ++ d, p := 3, u := [] } }

theorem test_zlibHdr : after (·.yard.st) (exec (.zlibHdr 0x78 0xDA)
    { blank with yard := { st := .header, z := [0x78, 0xDA], p := 0, u := [] } }) = some .block := by decide
/-- Z1. -/
theorem test_deflStored : after (·.yard.st) (exec (.deflStored true)
    (inflating [0x01, 0x06, 0x00, 0xF9, 0xFF, 0x00, 0x00, 0x01, 0x00, 0x02, 0x03, 0x00, 0x11, 0x00, 0x07])) =
    some (.result (some [0x00, 0x00, 0x01, 0x00, 0x02, 0x03])) := by decide +kernel
/-- Z7: a wrong `NLEN` makes the stream invalid. -/
theorem test_deflStored_bad : after (·.yard.st) (exec (.deflStored true)
    (inflating [0x01, 0x06, 0x00, 0xF9, 0xFE, 0x00, 0x00, 0x01, 0x00, 0x02, 0x03, 0x00, 0x11, 0x00, 0x07])) =
    some (.result none) := by decide +kernel
/-- Z3. -/
theorem test_deflFixed : after (·.yard.st) (exec (.deflFixed true)
    (inflating [0x63, 0x60, 0x60, 0x64, 0x60, 0x62, 0x06, 0x00, 0x00, 0x11, 0x00, 0x07])) =
    some (.result (some [0x00, 0x00, 0x01, 0x00, 0x02, 0x03])) := by decide +kernel
/-- Z6: a dynamic block; the first bytes of its data. -/
theorem test_deflDyn : after (fun s => match s.yard.st with | .result (some u) => u.take 8 | _ => []) (exec (.deflDyn true)
    (inflating [0x25, 0x88, 0xC1, 0x11, 0x00, 0x00, 0x0C, 0x43, 0xC2, 0xFE, 0x43, 0x27, 0xBD, 0xE2, 0x45, 0x40, 0x13, 0x9C, 0xC4,
      0x01, 0x1F, 0x77, 0x0B, 0x02, 0xB9, 0x00, 0x28])) = some [0x02, 0x01, 0x01, 0x01, 0x02, 0x02, 0x00, 0x00] := by decide +kernel
theorem test_deflRsvd : after (·.yard.st) (exec (.deflRsvd true) (inflating [0x07, 0x00])) = some (.result none) := by decide

/-- U33: with one distance code of length 1 the code is incomplete, and the stream invalid; with two it is complete. -/
theorem test_deflDyn_incomplete : [0xC0, 0xC1].map (fun b => after (·.yard.st) (exec (.deflDyn true) (inflating
    ([0x05, b, 0x81, 0x00, 0x00, 0x00, 0x00, 0x00, 0x10, 0xFF, 0xD5] ++ [if b = 0xC0 then 0x08 else 0x10] ++
      [0x00, 0x01, 0x00, 0x01])))) = [some (.result none), some (.result (some [0x00]))] := by decide +kernel

/-- P4: the trailer ends the run, and is consumed. -/
theorem test_gifTrailer : after (fun s => (s.gif.phase, s.env.inPos)) (exec .gifTrailer (parsing .tag [0x3B])) = some (.finished, 1) := by
  decide
theorem test_gifExt : after (fun s => (s.gif.phase, s.env.inPos)) (exec .gifExt (parsing .tag [0x21, 0xF9])) = some (.ext, 1) := by
  decide
/-- H10: a local palette, a frame of 2 by 2: the two dimensions are written and `cmd DECODE` is issued. -/
theorem test_gifImg : after (fun s => (s.bus, s.env.inPos)) (exec .gifImg (parsing .tag
    [0x2C, 0x00, 0x00, 0x00, 0x00, 0x02, 0x00, 0x02, 0x00, 0x80, 0x11, 0x22, 0x33, 0x44, 0x55, 0x66])) =
    some ([.wr 0x0C 2, .wr 0x10 2, .wr 0x00 2], 16) := by decide
/-- P5: no palette at all is `FormatError(NO_PALETTE)`, code 0x16. -/
theorem test_gifImg_noPalette : after (·.gif.phase) (exec .gifImg (parsing .tag
    [0x2C, 0x00, 0x00, 0x00, 0x00, 0x02, 0x00, 0x02, 0x00, 0x00])) = some (.failed 0x16) := by decide
/-- H3: an unknown tag is not consumed. -/
theorem test_gifBadtag : after (fun s => (s.gif.phase, s.env.inPos)) (exec (.gifBadtag 0) (parsing .tag [0x00])) =
    some (.failed 0x13, 0) := by decide
/-- H5: transparency on, index 2, delay 10; the terminator is taken. -/
theorem test_extGce : after (fun s => (s.gif.pendTrns, s.gif.pendDelay, s.env.inPos))
    (exec .extGce (parsing .ext [0x04, 0x01, 0x0A, 0x00, 0x02, 0x00])) = some (2, 10, 6) := by decide
/-- H6: transparency off. -/
theorem test_extGce_off : after (·.gif.pendTrns) (exec .extGce (parsing .ext [0x04, 0x00, 0x0A, 0x00, 0x02, 0x00])) = some (-1) := by
  decide
/-- H8: the plain text extension. -/
theorem test_extPte : after (fun s => (s.gif.phase, s.env.inPos)) (exec .extPte (parsing .ext
    ([0x0C] ++ List.replicate 12 0x00 ++ [0x02, 0x68, 0x69, 0x00]))) = some (.tag, 17) := by decide
/-- H7: the application extension. -/
theorem test_extApp : after (fun s => (s.gif.phase, s.env.inPos)) (exec .extApp (parsing .ext
    [0x0B, 0x4E, 0x45, 0x54, 0x53, 0x43, 0x41, 0x50, 0x45, 0x32, 0x2E, 0x30, 0x03, 0x01, 0x00, 0x00, 0x00])) = some (.tag, 17) := by
  decide
/-- H7: the comment extension. -/
theorem test_extCom : after (fun s => (s.gif.phase, s.env.inPos)) (exec .extCom (parsing .ext [0x02, 0x68, 0x69, 0x00])) =
    some (.tag, 4) := by decide
/-- Under `literal` one sub-block is taken (R298). -/
theorem test_extCom_literal : after (·.env.inPos) (exec .extCom
    { parsing .ext [0x02, 0x68, 0x69, 0x00] with cfg := { blank.cfg with extTerm := .literal } }) = some 3 := by decide
/-- H3: an unknown sub-type is `FormatError(BAD_EXT)`, code 0x14. -/
theorem test_extBad : after (·.gif.phase) (exec (.extBad 2) (parsing .ext [])) = some (.failed 0x14) := by decide
/-- R281: a further run starts from the start values. -/
theorem test_gifStart : after (fun s => (s.gif.pendTrns, s.gif.pendDisp, s.gif.pendDelay, s.gif.pendInput, s.gif.frameNo))
    (step { blank with bus := [.gifRun []], gif := { GifHost.initial with
      pendTrns := 2, pendDisp := 1, pendDelay := 10, pendInput := true, frameNo := 3 } }) = some (-1, 0, 0, false, 0) := by decide
/-- R309: the first image of `a` goes to `a/a-1.` and the extension, the twelfth to `a/a-12.` and the extension. -/
theorem test_path : FileName.path { base := [0x61], index := 1 } = [0x61, 0x2F, 0x61, 0x2D, 0x31, 0x2E] ++ Config.fileExt ∧
    FileName.path { base := [0x61], index := 12 } = [0x61, 0x2F, 0x61, 0x2D, 0x31, 0x32, 0x2E] ++ Config.fileExt := ⟨rfl, rfl⟩
/-- R275, row `any`: the pin takes the block out of a running command, and no byte of `IN` comes back. -/
theorem test_pin : after (fun s => (s.seq, statusWord s.status, s.width, s.env.inPos, s.pin))
    (step { afterIn 1 (withIn [0x02] (running 2 2 (lzd2 4))) with pin := [0, 5] }) = some (.idle, 0, 0, 1, [5]) := by decide
/-- A reset to come after one step: the step is taken, and the reset is then due. -/
theorem test_pin_counts : after (fun s => (s.seq, s.pin)) (step { serializing .serSig 2 with pin := [1] }) = some (.serIhdr, [0]) := by
  decide
/-- A peek uses up no answer of the environment, not even a failure (notes/assumptions/7.md). -/
theorem test_peek_fails : after (fun s => (s.gif.phase, s.env.inFails)) (step (inFailsAt 0 (parsing .tag [0x3B]))) =
    some (.failed 0x31, [true]) := by decide

/-- K1: the published check value (R221). -/
theorem test_crcTable : crcTable 1 = 0x77073096 ∧ crcTable 255 = 0x2D02EF8D := by decide

/-! ### Witnesses: for each statement with hypotheses, a state and operands that meet them all, clause by clause -/

/-- Well-formed terms, one for each constructor. -/
def terms : List Instr :=
  [.sbTerm, .sbData 1, .sbData 255, .lzwSize 2, .lzwSize 8, .lzwSizeIll 1, .lzwSizeIll 9, .lzwClr, .lzwEoi, .lzwLit 0, .lzwLit 3,
   .lzwRef 6, .lzwKwk 7, .lzwIll 8, .lzwIll 4095] ++
  [.cmdReset, .cmdDecode, .cmdEncode, .cmdRsvd 0, .cmdRsvd 4, .cmdRsvd 255, .pngSig, .pngIhdr, .pngPlte, .pngTrns, .pngIdat, .pngIend,
   .zlibHdr 0x78 0xDA, .zlibHdr 0x08 0x1D, .deflStored true, .deflFixed false, .deflDyn true, .deflRsvd false] ++
  [.gifTrailer, .gifExt, .gifImg, .gifBadtag 0, .extGce, .extPte, .extApp, .extCom, .extBad 2]

theorem witness_DecodeOfEncodeIsTheInstruction : tableCtx.ok = true ∧ terms.all (fun i => i.wf tableCtx) = true ∧
    LzwCtx.ok { clear := 256, eoi := 257, cw := 12, next := 4096, hasPrev := true } = true := by decide

theorem witness_DecodedInstructionIsWellFormed : tableCtx.ok = true ∧
    decode .gtag tableCtx [0x2C, 0x01] = .ok (.gifImg, [0x01]) := ⟨by decide, rfl⟩

/-- The command code `v` is pending. -/
def commanded (v : Word) (s : State) : State := { s with bus := [.wr offCmd v] }

theorem witness_WrittenCommandIsRun : blockMoves (commanded 0x02 blank) = true ∧ busy (commanded 0x02 blank) = false ∧
    (commanded 0x02 blank).bus = .wr offCmd 0x02 :: [] := by decide

/-- The block waits for the code-size byte. -/
def sizing (bytes : List Byte) : State := withIn bytes { blank with seq := .lzdSize }

theorem witness_CodeSizeByteIsRun_byte : blockMoves (sizing [0x02]) = true ∧ (sizing [0x02]).seq = .lzdSize ∧
    InReady 1 (sizing [0x02]) ∧ (sizing [0x02]).env.inData[(sizing [0x02]).env.inPos]? = some 0x02 :=
  ⟨rfl, rfl, ⟨by decide, by decide⟩, rfl⟩
theorem witness_CodeSizeByteIsRun_fail : blockMoves (inFailsAt 0 (sizing [0x02])) = true ∧
    (inFailsAt 0 (sizing [0x02])).seq = .lzdSize ∧ (inFailsAt 0 (sizing [0x02])).env.inFails.headD false = true := by decide
theorem witness_CodeSizeByteIsRun_end : blockMoves (sizing []) = true ∧ (sizing []).seq = .lzdSize ∧
    (sizing []).env.inFails.headD false = false ∧ (sizing []).env.inData.length ≤ (sizing []).env.inPos := by decide

/-- A run that owes `target` bytes, holds `n` bits and has a deframer in state `st`, with `bytes` on `IN`. -/
def fetching (target n : Nat) (st : DfrSt) (bytes : List Byte) : State :=
  withIn bytes { running 2 2 { lzd2 target with bitcnt := n } with dfr := { len := 0, pos := 0, st := st } }

theorem witness_RunPhase_finished : blockMoves (fetching 0 0 .active []) = true ∧ (fetching 0 0 .active []).seq = .lzdRun ∧
    (fetching 0 0 .active []).lzd.target ≤ (fetching 0 0 .active []).lzd.outcnt := by decide
theorem witness_RunPhase_code : blockMoves (fetching 4 3 .active []) = true ∧ (fetching 4 3 .active []).seq = .lzdRun ∧
    (fetching 4 3 .active []).lzd.outcnt < (fetching 4 3 .active []).lzd.target ∧
    (fetching 4 3 .active []).lzd.cw ≤ (fetching 4 3 .active []).lzd.bitcnt := by decide
theorem witness_RunPhase_subBlock : blockMoves (fetching 4 2 .active [0x00]) = true ∧ (fetching 4 2 .active [0x00]).seq = .lzdRun ∧
    (fetching 4 2 .active [0x00]).lzd.outcnt < (fetching 4 2 .active [0x00]).lzd.target ∧
    (fetching 4 2 .active [0x00]).lzd.bitcnt < (fetching 4 2 .active [0x00]).lzd.cw ∧
    (fetching 4 2 .active [0x00]).dfr.st = .active ∧ (fetching 4 2 .active [0x00]).dfr.pos = (fetching 4 2 .active [0x00]).dfr.len ∧
    InReady 1 (fetching 4 2 .active [0x00]) ∧
    (fetching 4 2 .active [0x00]).env.inData[(fetching 4 2 .active [0x00]).env.inPos]? = some 0x00 :=
  ⟨rfl, rfl, by decide, by decide, rfl, rfl, ⟨by decide, by decide⟩, rfl⟩
theorem witness_RunPhase_noLength : (fetching 4 2 .active []).lzd.outcnt < (fetching 4 2 .active []).lzd.target ∧
    (fetching 4 2 .active []).lzd.bitcnt < (fetching 4 2 .active []).lzd.cw ∧ (fetching 4 2 .active []).dfr.st = .active ∧
    (fetching 4 2 .active []).dfr.pos = (fetching 4 2 .active []).dfr.len ∧
    (fetching 4 2 .active []).env.inFails.headD false = false ∧
    (fetching 4 2 .active []).env.inData.length ≤ (fetching 4 2 .active []).env.inPos ∧
    blockMoves (fetching 4 2 .active []) = true ∧ (fetching 4 2 .active []).seq = .lzdRun := by decide
theorem witness_RunPhase_terminated : (fetching 4 2 .eof []).lzd.outcnt < (fetching 4 2 .eof []).lzd.target ∧
    (fetching 4 2 .eof []).lzd.bitcnt < (fetching 4 2 .eof []).lzd.cw ∧ (fetching 4 2 .eof []).dfr.st = .eof ∧
    blockMoves (fetching 4 2 .eof []) = true ∧ (fetching 4 2 .eof []).seq = .lzdRun := by decide
theorem witness_RunPhase_failing : let s := inFailsAt 0 (fetching 4 2 .active [0x01])
    s.lzd.outcnt < s.lzd.target ∧ s.lzd.bitcnt < s.lzd.cw ∧ s.dfr.st = .active ∧ s.dfr.pos = s.dfr.len ∧
    s.env.inFails.headD false = true ∧ blockMoves s = true ∧ s.seq = .lzdRun := by decide
theorem witness_RunPhase_truncated : ∀ c ∈ [Cause.sbLength, .sbPayload], let s := fetching 4 2 (.trunc c) []
    s.lzd.outcnt < s.lzd.target ∧ s.lzd.bitcnt < s.lzd.cw ∧ s.dfr.st = .trunc c ∧ blockMoves s = true ∧ s.seq = .lzdRun := by decide
/-- The deframer holds one byte, the last or the only one of its sub-block. -/
theorem witness_RunPhase_buffered : ∀ pos ∈ [0, 254], let s := { fetching 4 2 .active [] with
      dfr := { len := pos + 1, pos := pos, st := .active }, dfrbuf := [(pos, 0xB5)] }
    s.lzd.outcnt < s.lzd.target ∧ s.lzd.bitcnt < s.lzd.cw ∧ s.dfr.st = .active ∧ s.dfr.pos < s.dfr.len ∧
    Memory.read s.dfrbuf s.dfr.pos = some 0xB5 ∧ blockMoves s = true ∧ s.seq = .lzdRun := by decide

/-- The instructions of `ENCODE`. -/
def parts : List Instr := [.pngSig, .pngIhdr, .pngPlte, .pngTrns, .pngIdat, .pngIend]

theorem witness_EncodePhaseRunsItsInstruction : ∀ i ∈ parts, encodeInstr i = true ∧
    blockMoves (serializing (serPhase i) 2) = true ∧ (serializing (serPhase i) 2).seq = serPhase i := by decide

theorem witness_TagAndSubTypeAreRun_tag : blockMoves (parsing .tag [0x3B]) = true ∧ busy (parsing .tag [0x3B]) = false ∧
    (parsing .tag [0x3B]).bus = [] ∧ InReady 1 (parsing .tag [0x3B]) ∧
    (parsing .tag [0x3B]).env.inData[(parsing .tag [0x3B]).env.inPos]? = some 0x3B ∧ (parsing .tag [0x3B]).gif.phase = .tag :=
  ⟨rfl, rfl, rfl, ⟨by decide, by decide⟩, rfl, rfl⟩
theorem witness_TagAndSubTypeAreRun_ext : blockMoves (parsing .ext [0xFE]) = true ∧ busy (parsing .ext [0xFE]) = false ∧
    (parsing .ext [0xFE]).bus = [] ∧ InReady 1 (parsing .ext [0xFE]) ∧
    (parsing .ext [0xFE]).env.inData[(parsing .ext [0xFE]).env.inPos]? = some 0xFE ∧ (parsing .ext [0xFE]).gif.phase = .ext :=
  ⟨rfl, rfl, rfl, ⟨by decide, by decide⟩, rfl, rfl⟩
theorem witness_TagAndSubTypeAreRun_fail : ∀ p ∈ [GifPhase.tag, .ext], let s := inFailsAt 0 (parsing p [0x3B])
    blockMoves s = true ∧ busy s = false ∧ s.bus = [] ∧ s.env.inFails.headD false = true ∧ s.gif.phase = p := by decide
theorem witness_TagAndSubTypeAreRun_end : ∀ p ∈ [GifPhase.tag, .ext], let s := parsing p []
    blockMoves s = true ∧ busy s = false ∧ s.bus = [] ∧ s.env.inFails.headD false = false ∧
    s.env.inData.length ≤ s.env.inPos ∧ s.gif.phase = p := by decide

/-- The yardstick in state `st` with the stream `z`. -/
def unzipping (st : YardSt) (z : List Byte) (p : Nat) : State := { blank with yard := { st := st, z := z, p := p, u := [] } }

/-- Z3: a zlib stream with one block of fixed codes. -/
def z3 : List Byte := [0x78, 0xDA, 0x63, 0x60, 0x60, 0x64, 0x60, 0x62, 0x06, 0x00, 0x00, 0x11, 0x00, 0x07]

theorem witness_StreamHeadersAreRun_header : (unzipping .header z3 0).pin = [] ∧ (unzipping .header z3 0).yard.st = .header ∧
    (unzipping .header z3 0).yard.z = 0x78 :: 0xDA :: z3.drop 2 ∧ 4 ≤ (z3.drop 2).length ∧ zlibHdrOk 0x78 0xDA = true := by decide
theorem witness_StreamHeadersAreRun_block : (unzipping .block z3 0).pin = [] ∧ (unzipping .block z3 0).yard.st = .block ∧
    bitsAt ((unzipping .block z3 0).yard.z.drop 2) (unzipping .block z3 0).yard.p 3 = some 0b011 := by decide

theorem witness_SubBlockTokensTakeTheirEffect : InReady (BitVec.toNat (3 : Byte)) (withIn [0x44, 0x34, 0x05] blank) ∧
    InReady (BitVec.toNat (255 : Byte)) (withIn (List.replicate 255 0xAA) blank) :=
  ⟨⟨by decide, by decide⟩, ⟨by decide +kernel, by decide +kernel⟩⟩

/-- `IN` ends, or the source fails, at the last byte of a payload of three bytes and at the only one of a payload of one. -/
theorem witness_ShortSubBlockIsTruncated : ∀ k ∈ [0, 2], k < (BitVec.ofNat 8 (k + 1)).toNat ∧
    (let s := withIn (List.replicate k 0x44) blank
     (s.env.inFails.take k).all (fun f => !f) = true ∧ s.env.inPos + k ≤ s.env.inData.length ∧
       s.env.inFails[k]? ≠ some true ∧ s.env.inPos + k = s.env.inData.length) ∧
    (let s := inFailsAt k (withIn (List.replicate k 0x44) blank)
     (s.env.inFails.take k).all (fun f => !f) = true ∧ s.env.inPos + k ≤ s.env.inData.length ∧
       s.env.inFails[k]? = some true) := by decide
/-- Two sub-blocks, the terminator, and one byte more. -/
def twoSubBlocks : List Byte := [0x02, 0x44, 0x34, 0x01, 0x05, 0x00, 0x3B]

theorem witness_ReadsDeliverTheFlatStream : payloadsOk [[0x44, 0x34], [0x05]] = true ∧
    (withIn twoSubBlocks blank).env.inFails = [] ∧
    (withIn twoSubBlocks blank).env.inData.drop (withIn twoSubBlocks blank).env.inPos = subSeq [[0x44, 0x34], [0x05]] ++ [0x3B] ∧
    (∀ n ∈ [1, 300, 2, 1], 0 < n) := by decide
theorem witness_ReadsDeliver_ends : (match dfrReads [1, 300, 2, 1] (dfrOpen (withIn twoSubBlocks blank)) with
    | .ok r _ => r
    | .raised _ _ => ([], false)) = ([0x44, 0x34, 0x05], true) := by decide
theorem witness_ReadsDeliver_goesOn : (match dfrReads [1, 300] (dfrOpen (withIn twoSubBlocks blank)) with
    | .ok r _ => r
    | .raised _ _ => ([], true)) = ([0x44, 0x34], false) := by decide

theorem witness_CodeSizeSetsUpTheRun : (2 ≤ (2 : Byte).toNat ∧ (2 : Byte).toNat ≤ 8) ∧ (2 ≤ (8 : Byte).toNat ∧ (8 : Byte).toNat ≤ 8) ∧
    (1 : Byte).toNat < 2 ∧ 8 < (9 : Byte).toNat := by decide

/-- A run in the middle: after the codes 0 and 1 the dictionary holds 6 = (0, 1). -/
def midRun : State :=
  { running 4 2 { lzd2 8 with next := 7, prev := some 1, outcnt := 2, bitcnt := 2 } with
    dict := [(6, { pre := 0, suf := 1 })], fb := [(0, 0x00), (1, 0x01)] }

theorem midRun_strings : strCode midRun 3 = some [0x03] ∧ strCode midRun 6 = some [0x00, 0x01] ∧ strCode midRun 1 = some [0x01] := by
  decide

theorem midRun_ranges : LzdRanges midRun := by
  refine ⟨?_, ?_, ?_, ?_, ?_, ?_, ?_, Or.inl ?_, ?_, ?_, ?_, ?_⟩ <;> decide

theorem midRun_dict : DictSound midRun := by
  intro c h1 h2
  have : c = 6 := Nat.le_antisymm (Nat.lt_succ_iff.1 h2) h1
  subst this
  exact ⟨{ pre := 0, suf := 1 }, rfl, by decide, by decide, by decide⟩

theorem midRun_prev : LzdPrev midRun := ⟨by decide, by decide, by decide⟩

theorem witness_DataCodesEmitExtendAndRemember : (3 : Code).toNat < midRun.lzd.clear ∧ strCode midRun 6 = some (0x00 :: [0x01]) ∧
    midRun.lzd.prev = some 1 ∧ strCode midRun 1 = some (0x01 :: []) := by decide

theorem witness_EveryDataCodeHasAString : LzdRanges midRun ∧ DictSound midRun ∧ DataCode midRun midRun.lzd.next 3 ∧
    DataCode midRun midRun.lzd.next 6 :=
  ⟨midRun_ranges, midRun_dict, ⟨by decide, by decide, by decide⟩, ⟨by decide, by decide, by decide⟩⟩

theorem witness_KwkNamesTheEntryItCreates : LzdRanges midRun ∧ LzdPrev midRun ∧ DictSound midRun ∧
    (7 : Code).toNat = midRun.lzd.next ∧ midRun.lzd.next < 4096 ∧ midRun.lzd.prev = some 1 ∧
    strCode midRun 1 = some (0x01 :: []) ∧ ∃ t, exec (.lzwKwk 7) midRun = .next t :=
  ⟨midRun_ranges, midRun_prev, midRun_dict, rfl, by decide, rfl, by decide, ⟨_, rfl⟩⟩

/-- A run whose bit buffer holds two bits and whose deframer holds one byte. -/
def midFetch : State :=
  { midRun with
    lzd := { midRun.lzd with bitbuf := 0b10 }
    dfrbuf := [(0, 0xB5)], dfr := { len := 1, pos := 0, st := .active } }

theorem witness_FetchedCodeIsTheNextBits : midFetch.lzd.cw ≤ 12 ∧ midFetch.lzd.bitbuf < 2 ^ midFetch.lzd.bitcnt ∧
    ∃ t, lzdFetch 3 midFetch = .ok (.code 6) t := ⟨by decide, by decide, ⟨_, rfl⟩⟩

theorem witness_StepsCarryOutTheFetch_code : blockMoves midFetch = true ∧ midFetch.seq = .lzdRun ∧
    midFetch.lzd.outcnt < midFetch.lzd.target ∧ ∃ t, lzdFetch 3 midFetch = .ok (.code 6) t :=
  ⟨rfl, rfl, by decide, ⟨_, rfl⟩⟩
theorem witness_StepsCarryOutTheFetch_fault : blockMoves midRun = true ∧ midRun.seq = .lzdRun ∧
    midRun.lzd.outcnt < midRun.lzd.target ∧ ∃ t, lzdFetch 3 midRun = .raised .sbLength t :=
  ⟨rfl, rfl, by decide, ⟨_, rfl⟩⟩

theorem witness_ZeroSizeFrameReadsOneByte : ∀ b ∈ ([0x02, 0x08, 0x01, 0x09] : List Byte),
    blockMoves (withIn [b] (commanded 0x02 blank)) = true ∧ (withIn [b] (commanded 0x02 blank)).seq = .idle ∧
    (withIn [b] (commanded 0x02 blank)).status.err = false ∧
    (withIn [b] (commanded 0x02 blank)).bus = .wr offCmd 0x02 :: [] ∧ (0x02 : Word).setWidth 8 = (0x02 : Byte) ∧
    (withIn [b] (commanded 0x02 blank)).width = 0 ∧
    ((withIn [b] (commanded 0x02 blank)).env.inFails.take 1).all (fun f => !f) = true ∧
    (withIn [b] (commanded 0x02 blank)).env.inPos + 1 ≤ (withIn [b] (commanded 0x02 blank)).env.inData.length ∧
    (withIn [b] (commanded 0x02 blank)).env.inData[(withIn [b] (commanded 0x02 blank)).env.inPos]? = some b := by decide

theorem witness_CommandsAreDispatchedInOrder : ((0x02 : Byte) ≠ 0x01 ∧ (raiseExc .lzwEoi blank).status.err = true) ∧
    (blank.status.err = false ∧ frameSize blank ≤ fbCap blank) ∧
    ((encodable 2).status.err = false ∧ frameSize (encodable 2) = 4) ∧
    (let s := { encodable 2 with cfg := { blank.cfg with fbCap := 3 } }
     s.status.err = false ∧ fbCap s < frameSize s) ∧
    (let s := { encodable 2 with cfg := { blank.cfg with fbCap := 4 } }
     s.status.err = false ∧ frameSize s ≤ fbCap s) ∧
    4 ≤ (0x04 : Byte).toNat := by decide

/-- A reset of the pin is due, with another two steps later; or it comes after one step. -/
theorem witness_ResetPutsEveryValueBack : { midRun with pin := [0, 2] }.pin = 0 :: [2] ∧ busy { midRun with pin := [0, 2] } = true ∧
    { midRun with pin := [1] }.pin = (0 + 1) :: [] := by decide

/-- Frames of `w` by `h` zero bytes, as large as one likes: for the precondition on the compressed length. -/
def zeroFrame (w h : BitVec 16) : State :=
  { blank with
    width := w, height := h, trns := 0xFFFF, palN := 4, pal := pal4
    fbLen := BitVec.ofNat 32 (w.toNat * h.toNat)
    fb := (List.range (w.toNat * h.toNat)).map (fun i => (i, 0x00)) }

theorem read_zeros (f : Nat → Nat × Byte) (hf : ∀ i, f i = (i, 0x00)) (n a k : Nat) (h : k < n) :
    Memory.read ((List.range' a n).map f) (a + k) = some 0x00 := by
  induction n generalizing a k with
  | zero => omega
  | succ n ih =>
    rw [List.range'_succ, List.map_cons, hf]
    cases k with
    | zero => simp [Memory.read]
    | succ k =>
      rw [Memory.read, if_neg (by omega), show a + (k + 1) = (a + 1) + k by omega]
      exact ih (a + 1) k (by omega)

theorem frame_lt (w h : BitVec 16) : w.toNat * h.toNat < 2 ^ 32 := by
  have h1 := w.isLt
  have h2 := h.isLt
  calc w.toNat * h.toNat ≤ 65535 * 65535 := Nat.mul_le_mul (by omega) (by omega)
    _ < 2 ^ 32 := by norm_num

theorem zeroFrame_fbLen (w h : BitVec 16) : (zeroFrame w h).fbLen.toNat = w.toNat * h.toNat := by
  show (BitVec.ofNat 32 (w.toNat * h.toNat)).toNat = _
  rw [BitVec.toNat_ofNat, Nat.mod_eq_of_lt (frame_lt w h)]

theorem zeroFrame_filt (w h : BitVec 16) : ∃ raw, serFilt (zeroFrame w h) = some raw := by
  have hcell : ∀ i, i < w.toNat * h.toNat → (fbCell (zeroFrame w h) i).isSome = true := by
    intro i hi
    rw [fbCell, zeroFrame_fbLen, if_pos hi]
    have := read_zeros (fun i => (i, 0x00)) (fun _ => rfl) (w.toNat * h.toNat) 0 i hi
    rw [← List.range_eq_range', Nat.zero_add] at this
    show (Memory.read ((List.range (w.toNat * h.toNat)).map (fun i => (i, 0x00))) i).isSome = true
    rw [this]
    rfl
  exact serFiltFrom_isSome (fun i hi => hcell i (by
    rw [Nat.zero_add] at hi
    rw [Nat.mul_comm]
    exact hi))

theorem serFiltFrom_length {s : State} {n r : Nat} {raw : List Byte} (h : serFiltFrom s r n = some raw) :
    raw.length = n * (s.width.toNat + 1) := by
  induction n generalizing r raw with
  | zero => cases h; simp
  | succ n ih =>
    rw [serFiltFrom] at h
    split at h
    · rename_i row bs h1 h2
      cases h
      have := (fbSlice_spec h1).1
      rw [List.length_append, List.length_cons, this, ih h2, Nat.succ_mul]
      omega
    · cases h

theorem storedBlocks_length (k : Nat) (b : List Byte) : b.length ≤ (storedBlocks k b).length := by
  induction k generalizing b with
  | zero =>
    simp only [storedBlocks, storedBlock, List.length_append]
    omega
  | succ k ih =>
    rw [storedBlocks]
    split
    · simp only [storedBlock, List.length_append]
      omega
    · have := ih (b.drop 65535)
      simp only [storedBlock, List.length_append, List.length_take, List.length_drop] at this ⊢
      omega

theorem zCompressRef_length (b : List Byte) : b.length ≤ (zCompressRef b).length := by
  have := storedBlocks_length (b.length / 65535) b
  simp only [zCompressRef, List.length_append]
  omega

/-- A frame of 65535 by 65535 bytes passes the first four preconditions, and its compressed payload is too long. -/
theorem witness_EncodeChecks_tooLong : ∃ s raw, s.status.err = false ∧ s.palN.toNat ∈ [2, 4, 8, 16, 32, 64, 128, 256] ∧
    (∀ i, i < s.palN.toNat → (Memory.read s.pal i).isSome = true) ∧ s.trns.toInt ≤ 255 ∧
    s.fbLen.toNat = s.width.toNat * s.height.toNat ∧ serFilt s = some raw ∧
    2 ^ 31 - 1 < (zCompress s.cfg.compressor raw).length := by
  obtain ⟨raw, hraw⟩ := zeroFrame_filt 65535 65535
  refine ⟨zeroFrame 65535 65535, raw, rfl, by decide, by decide, by decide, zeroFrame_fbLen _ _, hraw, ?_⟩
  have h1 : raw.length = 65535 * (65535 + 1) := serFiltFrom_length hraw
  have h2 : (zCompress (zeroFrame 65535 65535).cfg.compressor raw).length = (zCompressRef raw).length := rfl
  have h3 := zCompressRef_length raw
  rw [h2]
  omega

theorem witness_EncodeChecks_refused : blank.status.err = false ∧ ¬ blank.palN.toNat ∈ [2, 4, 8, 16, 32, 64, 128, 256] ∧
    (let s := { encodable 2 with pal := [(0, 0), (1, 0), (2, 0)] }
     s.status.err = false ∧ s.palN.toNat ∈ [2, 4, 8, 16, 32, 64, 128, 256] ∧
       ¬ ∀ i, i < s.palN.toNat → (Memory.read s.pal i).isSome = true) ∧
    (let s := encodable 256
     s.status.err = false ∧ s.palN.toNat ∈ [2, 4, 8, 16, 32, 64, 128, 256] ∧
       (∀ i, i < s.palN.toNat → (Memory.read s.pal i).isSome = true) ∧ 255 < s.trns.toInt) ∧
    (let s := { encodable 255 with width := 3 }
     s.status.err = false ∧ s.palN.toNat ∈ [2, 4, 8, 16, 32, 64, 128, 256] ∧
       (∀ i, i < s.palN.toNat → (Memory.read s.pal i).isSome = true) ∧ s.trns.toInt ≤ 255 ∧
       s.fbLen.toNat ≠ s.width.toNat * s.height.toNat) := by decide

/-- The filtered bytes of vector S1. -/
def rawS1 : List Byte := [0x00, 0x00, 0x01, 0x00, 0x02, 0x03]

theorem witness_EncodeChecks_accepted : let s := encodable 255
    s.status.err = false ∧ s.palN.toNat ∈ [2, 4, 8, 16, 32, 64, 128, 256] ∧
    (∀ i, i < s.palN.toNat → (Memory.read s.pal i).isSome = true) ∧ s.trns.toInt ≤ 255 ∧
    s.fbLen.toNat = s.width.toNat * s.height.toNat ∧ serFilt s = some rawS1 ∧
    (zCompress s.cfg.compressor rawS1).length ≤ 2 ^ 31 - 1 := by decide +kernel

theorem witness_RefusalTouchesOnlyTheStatus : ∀ i ∈ [Instr.cmdEncode, Instr.cmdRsvd 0, Instr.cmdRsvd 255],
    after (·.seq) (exec i blank) = some .fault ∧ blank.seq ≠ .fault := by decide
theorem witness_RefusalTouchesOnlyTheStatus_decode : let s := { encodable 2 with cfg := { blank.cfg with fbCap := 3 } }
    after (·.seq) (exec .cmdDecode s) = some .fault ∧ s.seq ≠ .fault := by decide

/-- The block in `FAULT` after the fault of vector V8. -/
def faulted : State := raiseExc .lzwEoi blank

theorem faulted_agrees : StatusAgrees faulted := ⟨by decide, by decide, by decide, by decide⟩

theorem witness_OnlyResetLeavesTheFaultPhase : StatusAgrees faulted ∧ faulted.seq = .fault ∧
    (∃ t, step (commanded 0x02 faulted) = .next t) ∧ (∃ t, step (commanded 0x01 faulted) = .next t) ∧
    (pinStrikes { faulted with pin := [0] } ∧ ∃ t, step { faulted with pin := [0] } = .next t) :=
  ⟨faulted_agrees, rfl, ⟨_, rfl⟩, ⟨_, rfl⟩, ⟨[], rfl⟩, ⟨_, rfl⟩⟩

theorem midRun_agrees : StatusAgrees midRun := ⟨by decide, by decide, by decide, by decide⟩

theorem witness_SequencerFollowsItsTable : StatusAgrees midRun ∧ (∃ t, step midRun = .next t) ∧
    (StatusAgrees (commanded 0x03 (encodable 2)) ∧ ∃ t, step (commanded 0x03 (encodable 2)) = .next t) ∧
    StatusAgrees { midRun with pin := [0] } ∧ ∃ t, step { midRun with pin := [0] } = .next t :=
  ⟨midRun_agrees, ⟨_, rfl⟩, ⟨⟨by decide, by decide, by decide, by decide⟩, ⟨_, rfl⟩⟩, ⟨by decide, by decide, by decide, by decide⟩, ⟨_, rfl⟩⟩

theorem midRun_sound : Sound midRun where
  status := midRun_agrees
  dfrBounded := ⟨by decide, by decide⟩
  dfrFilled := fun _ i hi => absurd hi (Nat.not_lt_zero i)
  lzd := fun _ => ⟨midRun_ranges, midRun_prev, midRun_dict⟩
  cap := fun _ => by decide
  frame := ⟨fun i hi => absurd hi (Nat.not_lt_zero i), fun _ => ⟨rfl, fun i hi => by
    have h : i < 2 := hi
    interval_cases i <;> rfl⟩⟩
  ser := fun h => by cases h
  memories := ⟨by decide, by decide, by decide, by decide, by decide, by decide, by decide, by decide⟩

/-- The block in the middle of `ENCODE` is sound too. -/
theorem serializing_sound : Sound (serializing .serPlte 2) where
  status := ⟨by decide, by decide, by decide, by decide⟩
  dfrBounded := ⟨by decide, by decide⟩
  dfrFilled := fun _ i hi => absurd hi (Nat.not_lt_zero i)
  lzd := fun h => by cases h
  cap := fun h => by rcases h with h | h <;> cases h
  frame := ⟨by decide, fun h => by cases h⟩
  ser := fun _ => by decide
  memories := ⟨by decide, by decide, by decide, by decide, by decide, by decide, by decide, by decide⟩

theorem witness_StepKeepsStatusAgreement : StatusAgrees midRun ∧ ∃ t, step midRun = .next t := ⟨midRun_agrees, ⟨_, rfl⟩⟩
theorem witness_StepKeepsSoundness : Sound midRun ∧ (∃ t, step midRun = .next t) ∧ Sound (serializing .serPlte 2) ∧
    ∃ t, step (serializing .serPlte 2) = .next t := ⟨midRun_sound, ⟨_, rfl⟩, serializing_sound, ⟨_, rfl⟩⟩
theorem witness_SoundStateStopsOnlyOnHostAccesses : Sound midRun ∧ Sound (serializing .serPlte 2) := ⟨midRun_sound, serializing_sound⟩

theorem witness_EachPhaseWritesItsPart : OutReady (encodable 2) ∧
    ∀ i ∈ parts, encodeInstr i = true ∧ (serPart (encodable 2) i).isSome = true := ⟨rfl, by decide +kernel⟩
theorem witness_EachPhaseWritesItsPart_payloads : (pltePayload (encodable 2) 0 (encodable 2).palN.toNat).isSome = true ∧
    (serFilt (encodable 2)).isSome = true ∧ 0 ≤ (encodable 0).trns.toInt ∧ (encodable 0xFFFF).trns.toInt < 0 := by decide
theorem witness_ChunkCarriesItsChecksum : OutReady (encodable 2) := rfl
/-- The first write of a phase fails, the second, and the eighth, which is the last of the signature. -/
def failingAt (j : Nat) : State := { encodable 2 with env := { Env.initial with outFails := List.replicate j false ++ [true] } }

theorem witness_WriteFailureLeavesAProperPrefix : ∀ j ∈ [0, 1, 7], (failingAt j).status.err = false ∧
    (failingAt j).env.outFails[j]? = some true ∧ ((failingAt j).env.outFails.take j).all (fun f => !f) = true ∧
    ∀ i ∈ parts, encodeInstr i = true ∧ j < ((serPart (failingAt j) i).getD []).length := by decide +kernel
theorem witness_WriteFailureLeavesAProperPrefix_faults : ∀ i ∈ parts, after (·.seq) (exec i (failingAt 1)) = some .fault := by
  decide +kernel

theorem witness_FilteredBufferHoldsTheRows : serFilt (encodable 2) = some rawS1 ∧
    serFilt { encodable 2 with width := 0 } = some [0x00, 0x00] := by decide
theorem witness_PalettePayloadHoldsTheTriples : pltePayload (encodable 2) 0 (encodable 2).palN.toNat =
    some [0x00, 0x00, 0x00, 0xFF, 0x00, 0x00, 0x00, 0xFF, 0x00, 0x00, 0x00, 0xFF] := by decide
/-- Vectors S1 and S2, at `cmd ENCODE`. -/
def encoding4 (trns : BitVec 16) : State := commanded 0x03 (encodable trns)

theorem witness_EncodeAppendsTheFile (trns : BitVec 16) (h : trns = 2 ∨ trns = 0xFFFF) : blockMoves (encoding4 trns) = true ∧
    (encoding4 trns).seq = .idle ∧ (encoding4 trns).status.err = false ∧ (encoding4 trns).bus = .wr offCmd 0x03 :: [] ∧
    (0x03 : Word).setWidth 8 = (0x03 : Byte) ∧ encodeCheck (encoding4 trns) = none ∧ serFilt (encoding4 trns) = some rawS1 ∧
    (∃ plte, pltePayload (encoding4 trns) 0 (encoding4 trns).palN.toNat = some plte) ∧
    (zCompress (encoding4 trns).cfg.compressor rawS1).length ≤ chunkMaxLen ∧ OutReady (encoding4 trns) := by
  refine ⟨rfl, rfl, rfl, rfl, rfl, ?_, rfl, ⟨_, rfl⟩, ?_, rfl⟩
  · rcases h with rfl | rfl <;> decide
  · show (zCompressRef rawS1).length ≤ chunkMaxLen
    decide +kernel

theorem witness_YardstickComputesZDecompress : (unzipping .header z3 0).pin = [] ∧
    (unzipping .header z3 0).yard = { st := .header, z := z3, p := 0, u := [] } := ⟨rfl, rfl⟩

/-- Z1: a stored block of six bytes, at its first byte, with the bytes `tail` behind `NLEN`. -/
def stored (nlen : BitVec 16) (tail : List Byte) : State :=
  unzipping .block ([0x78, 0xDA, 0x01] ++ splitLe16 6 ++ splitLe16 nlen ++ tail) 3

/-- The data of Z1, and its trailer. -/
def z1Data : List Byte := [0x00, 0x00, 0x01, 0x00, 0x02, 0x03]
def z1Trailer : List Byte := [0x00, 0x11, 0x00, 0x07]

theorem witness_StoredBlockIsCopied (nlen : BitVec 16) (tail : List Byte) :
    ((stored nlen tail).yard.z.drop 2).drop (((stored nlen tail).yard.p + 7) / 8) = splitLe16 6 ++ splitLe16 nlen ++ tail := by
  simp [stored, unzipping]
theorem witness_StoredBlockIsCopied_lengths : (0xFFF9 : BitVec 16) = 6 ^^^ 0xFFFF ∧ (0xFEF9 : BitVec 16) ≠ 6 ^^^ 0xFFFF ∧
    (z1Data.take 5).length < (6 : BitVec 16).toNat ∧ (6 : BitVec 16).toNat ≤ z1Data.length ∧
    ((((unzipping .block [0x78, 0xDA, 0x01, 0x06, 0x00, 0xF9] 3).yard.z.drop 2).drop ((3 + 7) / 8)).length < 4) := by decide
/-- The trailer is right, wrong in its last byte, or followed by one byte more. -/
theorem witness_StoredBlockIsCopied_trailer : let n := (6 : BitVec 16).toNat
    (z1Data ++ z1Trailer).drop n = splitBe32 (adler32 ((z1Data ++ z1Trailer).take n)) ∧
    ∀ tail ∈ [z1Trailer.take 3 ++ [0x08], z1Trailer ++ [0x00]],
      (z1Data ++ tail).drop n ≠ splitBe32 (adler32 ((z1Data ++ tail).take n)) := by decide
/-- Z6: a zlib stream with one dynamic block. -/
def z6 : List Byte :=
  [0x78, 0xDA, 0x25, 0x88, 0xC1, 0x11, 0x00, 0x00, 0x0C, 0x43, 0xC2, 0xFE, 0x43, 0x27, 0xBD, 0xE2, 0x45, 0x40, 0x13, 0x9C, 0xC4,
   0x01, 0x1F, 0x77, 0x0B, 0x02, 0xB9, 0x00, 0x28]

/-- The first codes of the lengths 3, 3, 3, 3, 3, 2, 4, 4, which are the published example: A to H have the codes 010, 011, 100, 101,
110, 00, 1110, 1111. -/
def exampleFirst : Nat → Nat
  | 0 => 0
  | L + 1 => 2 * (exampleFirst L + (if L = 0 then 0 else [3, 3, 3, 3, 3, 2, 4, 4].count L))

theorem witness_CanonicalCodesAreDecoded : exampleFirst 1 = 0 ∧
    (∀ L, 1 ≤ L → exampleFirst (L + 1) = 2 * (exampleFirst L + [3, 3, 3, 3, 3, 2, 4, 4].count L)) ∧
    decodeSym [0b10000111] (huffTable [3, 3, 3, 3, 3, 2, 4, 4]) 0 = some (6, 4) ∧
    decodeSym [0b10000111] (huffTable [3, 3, 3, 3, 3, 2, 4, 4]) 4 = some (5, 6) := by
  refine ⟨rfl, fun L h => ?_, by decide, by decide⟩
  rw [exampleFirst, if_neg (by omega)]

/-- In the fixed tables (R240): no symbol, a literal, the end of the block, symbol 286; then a length symbol without its extra bits,
without a distance symbol, with distance symbol 30, with distance symbol 29 without its extra bits, and with distance 1. -/
theorem witness_CodedDataIsDecoded : let lit := huffTable fixedLit
    decodeSym [] lit 0 = none ∧ decodeSym [0b00001100] lit 0 = some (0, 8) ∧ decodeSym [0x00] lit 0 = some (256, 7) ∧
    decodeSym [0b01100011] lit 0 = some (286, 8) ∧
    (decodeSym [0b00100011] lit 0 = some (284, 8) ∧ bitsAt [0b00100011] 8 5 = none) ∧
    (∀ b ∈ [(0x40 : Byte), 0xC0], decodeSym [b] lit 0 = some (257, 7) ∧ bitsAt [b] 7 0 = some 0) := by decide +kernel
theorem witness_CodedDataIsDecoded_distances : let dst := huffTable fixedDist
    decodeSym [0x40] dst 7 = none ∧ decodeSym [0xC0, 0x07] dst 7 = some (30, 12) ∧
    (decodeSym [0xC0, 0x0B] dst 7 = some (29, 12) ∧ bitsAt [0xC0, 0x0B] 12 13 = none) ∧
    (decodeSym [0x40, 0x00] dst 7 = some (0, 12) ∧ bitsAt [0x40, 0x00] 12 0 = some 0) ∧
    ([] : List Byte).length < 1 + 0 ∧ 1 + 0 ≤ [(0xAA : Byte)].length := by decide +kernel

/-- Z6's tables are read, and no table is read from nothing. -/
theorem witness_DynamicTablesAreRead : (dynTables (z6.drop 2) 3).isSome = true ∧ dynTables [] 3 = none := by decide +kernel

/-- The code-length symbols 15, 16, 17 and 18 have the codes 0, 10, 110 and 111; the bits behind them are there, or are not. -/
theorem witness_DynamicTablesAreRead_symbols : let h := huffTable (List.replicate 15 0 ++ [1, 2, 3, 3])
    [0x00, 0x01, 0x03, 0x07].map (fun b => decodeSym [b] h 0) = [some (15, 1), some (16, 2), some (17, 3), some (18, 3)] ∧
    [(2, 2), (3, 3)].all (fun c => (bitsAt [0x00] c.1 c.2).isSome) = true ∧ (bitsAt [0x00, 0x00] 3 7).isSome = true ∧
    [2, 3, 7].map (fun n => bitsAt [] 3 n) = [none, none, none] ∧ decodeSym [] h 0 = none ∧
    decodeSym [0x80] h 7 = none ∧ (decodeSym [0x80, 0x00] h 7 = some (16, 9) ∧ bitsAt [0x80] 9 2 = none) ∧
    (decodeSym [0xC0, 0x00] h 6 = some (17, 9) ∧ bitsAt [0xC0] 9 3 = none) ∧
    (decodeSym [0xE0] h 5 = some (18, 8) ∧ bitsAt [0xE0] 8 7 = none) ∧ [(3 : Nat)].getLast? = some 3 := by decide +kernel

theorem witness_StreamHeadersTakeTheirEffect : zlibHdrOk 0x78 0xDA = true ∧
    (inflateFixed ((unzipping .block z3 3).yard.z.drop 2) (unzipping .block z3 3).yard.p (unzipping .block z3 3).yard.u).isSome = true ∧
    (inflateDyn ((unzipping .block z6 3).yard.z.drop 2) (unzipping .block z6 3).yard.p (unzipping .block z6 3).yard.u).isSome = true ∧
    inflateFixed ((unzipping .block [] 3).yard.z.drop 2) (unzipping .block [] 3).yard.p (unzipping .block [] 3).yard.u = none ∧
    inflateDyn ((unzipping .block [] 3).yard.z.drop 2) (unzipping .block [] 3).yard.p (unzipping .block [] 3).yard.u = none := by
  decide +kernel
/-- What is left behind the last block of `z` is the trailer of its data. -/
def ends (z : List Byte) (r : Option (Nat × List Byte)) : Option Bool :=
  r.map (fun r => decide (z.drop (2 + (r.1 + 7) / 8) = splitBe32 (adler32 r.2)))

/-- Z3 and Z6 end with their trailer; with one byte more they do not. -/
theorem witness_StreamHeadersTakeTheirEffect_trailer :
    ends z3 (inflateFixed (z3.drop 2) 3 []) = some true ∧ ends z6 (inflateDyn (z6.drop 2) 3 []) = some true ∧
    ends (z3 ++ [0]) (inflateFixed ((z3 ++ [0]).drop 2) 3 []) = some false ∧
    ends (z6 ++ [0]) (inflateDyn ((z6 ++ [0]).drop 2) 3 []) = some false := by decide +kernel

theorem witness_TagsTakeTheirEffect : InReady 1 (parsing .tag [0x3B]) ∧ InReady 1 (parsing .tag [0x21]) :=
  ⟨⟨by decide, by decide⟩, ⟨by decide, by decide⟩⟩

/-- The container parser under `literal`. -/
def literally (s : State) : State := { s with cfg := { s.cfg with extTerm := .literal } }

/-- H5: a graphics control extension behind its sub-type byte. -/
def gce (term : Byte) : State := parsing .ext [0x04, 0x01, 0x0A, 0x00, 0x02, term, 0x2C]

theorem witness_GraphicsControlSetsThePendingIndex : (gce 0x00).cfg.extTerm = .consume ∧ (literally (gce 0x00)).cfg.extTerm = .literal ∧
    ∀ term ∈ [(0x00 : Byte), 0x01], (gce term).env.inFails = [] ∧
      (gce term).env.inData.drop (gce term).env.inPos = 0x04 :: 0x01 :: 0x0A :: 0x00 :: 0x02 :: term :: [0x2C] ∧
      (literally (gce term)).env.inData.drop (literally (gce term)).env.inPos = 0x04 :: 0x01 :: 0x0A :: 0x00 :: 0x02 :: term :: [0x2C] := by
  decide

/-- An extension with a fixed block of `n` bytes and one sub-block of two. -/
def extension (n : Nat) : State := parsing .ext (List.replicate n 0x0C ++ subSeq [[0x68, 0x69]] ++ [0x3B])

theorem witness_ExtensionsAreSkipped : payloadsOk [[0x68, 0x69]] = true ∧ payloadsOk [] = true ∧
    ∀ n ∈ [0, 12, 13], (extension n).env.inFails = [] ∧ (List.replicate n (0x0C : Byte)).length = n ∧
      (extension n).env.inData.drop (extension n).env.inPos = List.replicate n 0x0C ++ subSeq [[0x68, 0x69]] ++ [0x3B] ∧
      (extension n).cfg.extTerm = .consume ∧ (literally (extension n)).cfg.extTerm = .literal := by decide

/-- An image descriptor of a frame of 2 by 2 with the flags `f`, two palette entries behind it. -/
def descriptor (f : Byte) (g : Option (List Rgb)) : State :=
  withIn [0x2C, 0x00, 0x00, 0x00, 0x00, 0x02, 0x00, 0x02, 0x00, f, 0x11, 0x22, 0x33, 0x44, 0x55, 0x66]
    { blank with gif := { GifHost.initial with phase := .tag, gPal := g } }

theorem witness_ImageWithoutLocalPalette (g : Option (List Rgb)) : InReady 10 (descriptor 0x40 g) ∧
    (byteAt ((nextIn 10 (descriptor 0x40 g)).drop 1) 8).getLsbD 7 = false :=
  ⟨⟨rfl, (by decide : 0 + 10 ≤ 16)⟩, (by decide : (0x40 : Byte).getLsbD 7 = false)⟩
theorem witness_ImageWithoutLocalPalette_palettes : (descriptor 0x40 (some [⟨0, 0, 0⟩])).gif.gPal = some [⟨0, 0, 0⟩] ∧
    (descriptor 0x40 none).gif.gPal = none := ⟨rfl, rfl⟩
theorem witness_LocalPaletteOverridesGlobal : InReady (10 + 3 * 2) (descriptor 0x80 none) ∧
    (byteAt ((nextIn 10 (descriptor 0x80 none)).drop 1) 8).getLsbD 7 = true ∧
    2 = 2 ^ ((byteAt ((nextIn 10 (descriptor 0x80 none)).drop 1) 8).toNat % 8 + 1) :=
  ⟨⟨rfl, by decide⟩, by decide, by decide⟩

/-- The next opening of a file fails, or does not. -/
def openDraws (fails : Bool) (s : State) : State := { s with env := { s.env with openFails := [fails] } }

theorem witness_RunStartsAndFrameFileIsOpened : ∀ fails ∈ [true, false],
    (let s := openDraws fails { blank with bus := [.gifRun [0x61]] }
     blockMoves s = true ∧ busy s = false ∧ s.bus = .gifRun [0x61] :: [] ∧ s.env.openFails.headD false = fails) ∧
    (let s := openDraws fails (parsing .opening [])
     blockMoves s = true ∧ busy s = false ∧ s.bus = [] ∧ s.gif.phase = .opening ∧ s.env.openFails.headD false = fails) := by decide

theorem witness_ImageTerminatorIsChecked : ∀ b ∈ [(0x00 : Byte), 0x01], let s := parsing .encoding [b]
    blockMoves s = true ∧ s.seq = .idle ∧ s.bus = [] ∧ s.gif.phase = .encoding ∧ s.status.err = false ∧
    (s.env.inFails.take 1).all (fun f => !f) = true ∧ s.env.inPos + 1 ≤ s.env.inData.length ∧
    s.env.inData[s.env.inPos]? = some b := by decide

/-- A file's header: six bytes, the screen descriptor with the flags `f`, and a palette of two entries. -/
def header (sig : List Byte) (f : Byte) : State :=
  parsing .header (sig ++ [0x02, 0x00, 0x02, 0x00, f, 0x00, 0x00] ++ [0x00, 0x00, 0x00, 0xFF, 0xFF, 0xFF])

/-- `GIF89a` and `gif87a` pass, `JIF88a` fails the signature, `GIF89A` the version (H2). -/
theorem witness_HeaderIsCheckedAndRead (sig : List Byte) (f : Byte)
    (hs : sig ∈ [[0x47, 0x49, 0x46, 0x38, 0x39, 0x61], [0x67, 0x69, 0x66, 0x38, 0x37, 0x61],
      [0x4A, 0x49, 0x46, 0x38, 0x38, 0x61], [0x47, 0x49, 0x46, 0x38, 0x39, 0x41]])
    (hf : f ∈ [(0x00 : Byte), 0x80]) : blockMoves (header sig f) = true ∧ busy (header sig f) = false ∧ (header sig f).bus = [] ∧
    (header sig f).gif.phase = .header ∧ InReady 6 (header sig f) ∧ InReady 13 (header sig f) ∧ InReady (13 + 3 * 2) (header sig f) := by
  fin_cases hs <;> fin_cases hf <;> exact ⟨rfl, rfl, rfl, rfl, ⟨rfl, by decide⟩, ⟨rfl, by decide⟩, ⟨rfl, by decide⟩⟩
theorem witness_HeaderIsCheckedAndRead_signatures :
    ((nextIn 6 (header [0x67, 0x69, 0x66, 0x38, 0x37, 0x61] 0x80)).take 3).map upperByte = [0x47, 0x49, 0x46] ∧
    (nextIn 6 (header [0x67, 0x69, 0x66, 0x38, 0x37, 0x61] 0x80)).drop 3 = [0x38, 0x37, 0x61] ∧
    ((nextIn 6 (header [0x4A, 0x49, 0x46, 0x38, 0x38, 0x61] 0x80)).take 3).map upperByte ≠ [0x47, 0x49, 0x46] ∧
    ((nextIn 6 (header [0x47, 0x49, 0x46, 0x38, 0x39, 0x41] 0x80)).take 3).map upperByte = [0x47, 0x49, 0x46] ∧
    (nextIn 6 (header [0x47, 0x49, 0x46, 0x38, 0x39, 0x41] 0x80)).drop 3 ≠ [0x38, 0x39, 0x61] := by decide
theorem witness_HeaderIsCheckedAndRead_flags :
    (byteAt ((nextIn 13 (header [0x47, 0x49, 0x46, 0x38, 0x39, 0x61] 0x80)).drop 6) 4).getLsbD 7 = true ∧
    (byteAt ((nextIn 13 (header [0x47, 0x49, 0x46, 0x38, 0x39, 0x61] 0x00)).drop 6) 4).getLsbD 7 = false := by decide

/-- After `cmd DECODE`, with two palette entries bound. -/
def decoded : State := parsing (.decoding [⟨0x11, 0x22, 0x33⟩, ⟨0x44, 0x55, 0x66⟩]) []

theorem witness_PaletteAndIndexAreLoaded : ∀ s ∈ [decoded, raiseExc .lzwEoi decoded], blockMoves s = true ∧ busy s = false ∧
    s.bus = [] ∧ s.gif.phase = .decoding [⟨0x11, 0x22, 0x33⟩, ⟨0x44, 0x55, 0x66⟩] := by
  intro s h
  fin_cases h <;> exact ⟨rfl, rfl, rfl, rfl⟩
theorem witness_PaletteAndIndexAreLoaded_status : decoded.status.err = false ∧ (raiseExc .lzwEoi decoded).status.err = true := by decide

theorem witness_HostRegistersAreTheHosts : (∃ t, exec .cmdEncode (encodable 2) = .next t) ∧ ∃ t, exec (.lzwKwk 7) midRun = .next t :=
  ⟨⟨_, rfl⟩, ⟨_, rfl⟩⟩
theorem witness_HostAndYardstickLeaveTheBlockAlone : (hostInstr .gifImg = true ∧ ∃ t, exec .gifImg (descriptor 0x80 none) = .next t) ∧
    yardInstr (.deflFixed true) = true ∧ ∃ t, exec (.deflFixed true) (unzipping .block z3 3) = .next t :=
  ⟨⟨rfl, ⟨_, rfl⟩⟩, rfl, ⟨_, rfl⟩⟩
theorem witness_DecodeAndEncodeKeepApart : (decodeInstr (.lzwKwk 7) = true ∧ ∃ t, exec (.lzwKwk 7) midRun = .next t) ∧
    (∀ i ∈ parts, encodeInstr i = true ∧ (after (·.seq) (exec i (encodable 2))).isSome = true) ∧
    ∃ t, exec .cmdEncode (encodable 2) = .next t := ⟨⟨rfl, ⟨_, rfl⟩⟩, by decide +kernel, ⟨_, rfl⟩⟩
theorem witness_CursorMovesForward : (∃ t, step (parsing .tag [0x3B]) = .next t) ∧
    (parsing .tag [0x3B]).env.inPos ≤ (parsing .tag [0x3B]).env.inData.length := ⟨⟨_, rfl⟩, by decide⟩
theorem witness_RegisterBankAndFrameBufferPort : 0 < 256 ∧ 255 < 256 ∧ Memory.read (encodable 2).pal 3 = some 0x0000FF ∧
    Memory.read (encodable 2).pal 255 = none := by decide
theorem witness_RegisterBankAndFrameBufferPort_port : ∀ i ∈ [3, 4], let s := { encodable 2 with bus := [.fbRd i] }
    blockMoves s = true ∧ busy s = false ∧ s.bus = .fbRd i :: [] := by decide
theorem witness_RegisterBankAndFrameBufferPort_steps : (∀ off ∈ [0x0C, 0x04], off ≠ offCmd ∧
      let s := { encodable 2 with bus := [.wr off 5] }
      blockMoves s = true ∧ busy s = false ∧ s.bus = .wr off 5 :: []) ∧
    (∀ off ∈ [0x1C, 0x20, 0x7FC], let s := { encodable 2 with bus := [.rd off] }
      blockMoves s = true ∧ busy s = false ∧ s.bus = .rd off :: []) := by decide
theorem witness_RegisterBankAndFrameBufferPort_answers : let s := encodable 2
    busWrite 0x0C 5 s = .ok { s with width := 5 } ∧ busWrite 0x04 5 s = .error (.readOnlyRegister 0x04) ∧
    busRead 0x1C s = .value 4 ∧ busRead 0x20 s = .fault (.noRegister 0x20) ∧ busRead 0x7FC s = .refused (.palNoValue 255) :=
  ⟨rfl, rfl, rfl, rfl, rfl⟩
theorem witness_RegisterBankAndFrameBufferPort_bounds : 3 < (encodable 2).fbLen.toNat ∧
    Memory.read (encodable 2).fb 3 = some 0x03 ∧ (encodable 2).fbLen.toNat ≤ 4 := by decide

end Sys2Proof.Tests
end

section
/-! What every step keeps: the agreement of `STATUS`, `ERRCODE` and the phase, and the soundness of the state. -/

namespace Sys2Proof.Machine

/-! ### `STATUS`, `ERRCODE` and the phase (R23, R25, R275) -/

theorem causeCode_ne_zero (c : Cause) : causeCode c ≠ 0 := by cases c <;> decide

/-- The agreement speaks of `STATUS`, `ERRCODE` and the phase alone. -/
theorem StatusAgrees.of_eq {s t : State} (h : StatusAgrees s) (h1 : t.status = s.status) (h2 : t.errcode = s.errcode)
    (h3 : t.seq = s.seq) : StatusAgrees t := by
  unfold StatusAgrees busy at *
  rw [h1, h2, h3]
  exact h

/-- Outside `FAULT` there is no error and no code. -/
theorem StatusAgrees.noError {s : State} (h : StatusAgrees s) (hq : s.seq ≠ .fault) :
    s.status.err = false ∧ s.errcode = 0 := by
  obtain ⟨-, hfault, hcode, -⟩ := h
  have he : s.status.err = false := by simpa using mt hfault.2 hq
  exact ⟨he, hcode.2 he⟩

/-- A state without an error, outside `FAULT`, with `DONE` clear if a command runs. -/
theorem statusAgrees_of_noError {t : State} (he : t.status.err = false) (hc : t.errcode = 0) (hq : t.seq ≠ .fault)
    (hd : busy t = true → t.status.done = false) : StatusAgrees t :=
  ⟨by simp [he], by simp [hq, he], by simp [hc, he], hd⟩

/-- Taking a fault latches a code unless one is there (R25, R330). -/
theorem StatusAgrees.raise {s u : State} (c : Cause) (h : StatusAgrees s) (h1 : u.status.err = s.status.err)
    (h2 : u.errcode = s.errcode) : StatusAgrees (raiseExc c u) := by
  obtain ⟨-, -, hcode, -⟩ := h
  refine ⟨by simp, by simp, ?_, by simp [busy]⟩
  rw [raiseExc_errcode, h1, h2]
  cases he : s.status.err with
  | true => simpa [he] using hcode
  | false => simpa using causeCode_ne_zero c

theorem blockReset_statusAgrees (s : State) : StatusAgrees (blockReset s) :=
  statusAgrees_of_noError rfl rfl (by simp [State.reset]) (by simp [State.reset])

theorem CmdCase.statusAgrees {s t : State} (h : StatusAgrees s) (hc : CmdCase s t) : StatusAgrees t := by
  have code (he : s.status.err = false) : s.errcode = 0 := h.2.2.1.2 he
  cases hc with
  | reset e => rw [e]; exact blockReset_statusAgrees s
  | refuse c e => rw [e]; exact h.raise c rfl rfl
  | decode he _ e => rw [e]; exact statusAgrees_of_noError he (code he) (by simp) (by simp)
  | encode he _ r e => rw [e]; exact statusAgrees_of_noError he (code he) (by simp) (by simp)

theorem BusCase.statusAgrees {s t : State} {a : HostAct} (h : StatusAgrees s) (hc : BusCase s t a) : StatusAgrees t := by
  cases hc with
  | cmd v _ hx => exact (cmd_case hx).1.statusAgrees h
  | regs w h' tr n p _ e => rw [e]; exact h
  | other e _ _ => rw [e]; exact h

theorem SizeCase.statusAgrees {s t : State} (hq : s.seq = .lzdSize) (h : StatusAgrees s) (hc : SizeCase s t) :
    StatusAgrees t := by
  obtain ⟨-, -, -, hdone⟩ := id h
  obtain ⟨he, hcode⟩ := h.noError (by simp [hq])
  cases hc with
  | raise c u hd e =>
    rw [e]
    exact h.raise c (by rw [hd.eq]) (by rw [hd.eq])
  | start b u hd _ e =>
    have hst : u.status = s.status := by rw [hd.eq]
    have hec : u.errcode = s.errcode := by rw [hd.eq]
    rw [e]
    refine statusAgrees_of_noError ?_ ?_ (by simp) (fun _ => ?_)
    · rw [lzdStart_status, hst, he]
    · rw [lzdStart_errcode, hec, hcode]
    · rw [lzdStart_status, hst]; exact hdone (by simp [busy, hq])

/-- A data code touches neither `STATUS` nor `ERRCODE` nor the phase. -/
theorem lzdPut_control (str : List Byte) (b : Byte) (code : Code) (s : State) :
    (lzdPut str b code s).status = s.status ∧ (lzdPut str b code s).errcode = s.errcode ∧
      (lzdPut str b code s).seq = s.seq := by
  obtain ⟨-, -, hf⟩ := lzdPut_spec str b code s
  unfold DataFrame at hf
  refine ⟨?_, ?_, ?_⟩ <;> rw [hf]

theorem RunCase.statusAgrees {s t : State} (hq : s.seq = .lzdRun) (h : StatusAgrees s) (hc : RunCase s t) :
    StatusAgrees t := by
  obtain ⟨he, hcode⟩ := h.noError (by simp [hq])
  have keep {u : State} (hd : DfrOnly s u) : StatusAgrees u :=
    h.of_eq (by rw [hd.eq]) (by rw [hd.eq]) (by rw [hd.eq])
  cases hc with
  | finish _ e => rw [e]; exact statusAgrees_of_noError he hcode (by simp) (by simp [busy])
  | raise c u hd _ e => rw [e]; exact (keep hd).raise c rfl rfl
  | dfr hd _ => exact keep hd
  | push b u _ hd _ e => rw [e]; exact (keep hd).of_eq rfl rfl rfl
  | clr _ hx => cases hx; exact h
  | bad c e => rw [e]; exact h.raise c rfl rfl
  | put str b code _ _ _ e =>
    obtain ⟨h1, h2, h3⟩ := lzdPut_control str b code (dropCode s)
    rw [e]
    exact h.of_eq h1 h2 h3

theorem serPhase_busy {i : Instr} (hi : encodeInstr i = true) {s : State} (hq : s.seq = serPhase i) :
    encoding s = true ∧ busy s = true := by
  unfold encoding busy
  rcases encodeInstr_cases hi with rfl | rfl | rfl | rfl | rfl | rfl <;> simp [hq, serPhase]

/-- After a phase of the serializer another one runs, or the command has ended (R275). -/
theorem serAfter_cases {i : Instr} (hi : encodeInstr i = true) {s t : State} (ht : t.seq = serAfter s i) :
    (i = .pngIend ∧ t.seq = .idle) ∨ (i ≠ .pngIend ∧ encoding t = true) := by
  unfold encoding
  rw [ht]
  rcases encodeInstr_cases hi with rfl | rfl | rfl | rfl | rfl | rfl <;> simp [serAfter, afterPlte]
  cases trnsPresent s <;> rfl

theorem SerCase.statusAgrees {s t : State} {i : Instr} (hi : encodeInstr i = true) (hq : s.seq = serPhase i)
    (h : StatusAgrees s) (hc : SerCase i s t) : StatusAgrees t := by
  obtain ⟨-, hfault, -, hdone⟩ := id h
  have hd : s.status.done = false := hdone (serPhase_busy hi hq).2
  have hne : s.seq ≠ .fault := fun hf => by
    have := (serPhase_busy hi hq).2
    simp [busy, hf] at this
  obtain ⟨he, hcode⟩ := h.noError hne
  cases hc with
  | fail e r _ ht => rw [ht]; exact h.raise _ rfl rfl
  | ok e r _ ht =>
    have hec : t.errcode = 0 := by rw [ht]; exact hcode
    rcases serAfter_cases hi (s := s) (t := t) (by rw [ht]) with ⟨rfl, hn⟩ | ⟨hi', hn⟩
    · exact statusAgrees_of_noError (by simpa [ht] using he) hec (by simp [hn]) (by simp [busy, hn])
    · refine statusAgrees_of_noError (by simpa [ht, hi'] using he) hec (fun hf => ?_) (fun _ => by simpa [ht, hi'] using hd)
      simp [encoding, hf] at hn

theorem MoveCase.statusAgrees {s t : State} (h : StatusAgrees s) (hm : MoveCase s t) : StatusAgrees t := by
  cases hm with
  | yard e => rw [e]; exact h
  | bus a rest _ _ hx => exact (bus_case hx).statusAgrees (s := { s with bus := rest }) h
  | gif _ hf => exact h.of_eq (by rw [hf.eq]) (by rw [hf.eq]) (by rw [hf.eq])
  | size hq hx => exact (size_case hx).statusAgrees hq h
  | run hq hx => exact (run_case hx).statusAgrees hq h
  | ser i hi hq hx => exact (ser_case hi hx).statusAgrees hi hq h

/-- Settles O27: a reset of the pin clears the status, and each move of the agents keeps the agreement. -/
theorem stepKeepsStatusAgreement : Obligations.StepKeepsStatusAgreement := by
  intro s t h hstep
  cases step_case hstep with
  | strike rest _ e => rw [e]; exact blockReset_statusAgrees s
  | move p u hm e => rw [e]; exact (hm.statusAgrees (s := { s with pin := [] }) h).of_eq rfl rfl rfl

end Sys2Proof.Machine
end

section
/-! The soundness invariant: what it says in every phase, what it adds in a running command, and that every step keeps it. -/

namespace Sys2Proof.Machine

/-! ### The two parts of soundness -/

/-- The part of soundness that no phase adds to: the deframer, the cells below `FB_LEN` and the memories (R40 to R44). -/
structure Stored (s : State) : Prop where
  dfr : DfrSound s
  cells : ∀ i, i < s.fbLen.toNat → (Memory.read s.fb i).isSome = true
  fbWf : Memory.wf s.fb = true
  palWf : Memory.wf s.pal = true
  dictWf : Memory.wf s.dict = true
  fbBelow : Memory.below (fbCap s) s.fb = true
  palBelow : Memory.below 256 s.pal = true
  dictBelow : Memory.below 4096 s.dict = true

/-- What soundness adds while codes are decoded. -/
structure RunSound (s : State) : Prop where
  ranges : LzdRanges s
  prev : LzdPrev s
  dict : DictSound s
  cap : frameSize s ≤ fbCap s
  fbLen : s.fbLen = 0
  cells : ∀ i, i < s.lzd.outcnt → (Memory.read s.fb i).isSome = true

/-- What soundness adds while `ENCODE` runs (R191). -/
structure EncodeReady (s : State) : Prop where
  palN : palNLegal s.palN = true
  pal : palWritten s s.palN.toNat = true
  trns : s.trns.toInt ≤ 255
  fbLen : s.fbLen.toNat = frameSize s

theorem Sound.stored {s : State} (h : Sound s) : Stored s := by
  obtain ⟨fbWf, palWf, dictWf, dfrWf, fbBelow, palBelow, dictBelow, dfrBelow⟩ := h.memories
  exact ⟨⟨h.dfrBounded, h.dfrFilled, dfrWf, dfrBelow⟩, h.frame.1, fbWf, palWf, dictWf, fbBelow, palBelow, dictBelow⟩

theorem Sound.running {s : State} (h : Sound s) (hq : s.seq = .lzdRun) : RunSound s := by
  obtain ⟨hranges, hprev, hdict⟩ := h.lzd hq
  obtain ⟨hlen, hcells⟩ := h.frame.2 hq
  exact ⟨hranges, hprev, hdict, h.cap (.inr hq), hlen, hcells⟩

theorem Sound.encodeReady {s : State} (h : Sound s) (hq : encoding s = true) : EncodeReady s := by
  obtain ⟨hn, hp, ht, hl⟩ := h.ser hq
  exact ⟨hn, hp, ht, hl⟩

/-- The parts make up soundness, each phase with its own. -/
theorem Stored.sound {s : State} (h : Stored s) (ha : StatusAgrees s) (hsize : s.seq = .lzdSize → frameSize s ≤ fbCap s)
    (hrun : s.seq = .lzdRun → RunSound s) (henc : encoding s = true → EncodeReady s) : Sound s where
  status := ha
  dfrBounded := h.dfr.bounded
  dfrFilled := h.dfr.filled
  lzd hq := ⟨(hrun hq).ranges, (hrun hq).prev, (hrun hq).dict⟩
  cap hq := hq.elim hsize (fun hq => (hrun hq).cap)
  frame := ⟨h.cells, fun hq => ⟨(hrun hq).fbLen, (hrun hq).cells⟩⟩
  ser hq := ⟨(henc hq).palN, (henc hq).pal, (henc hq).trns, (henc hq).fbLen⟩
  memories := ⟨h.fbWf, h.palWf, h.dictWf, h.dfr.wf, h.fbBelow, h.palBelow, h.dictBelow, h.dfr.below⟩

/-- Between commands nothing is added. -/
theorem Stored.sound_of_not_busy {s : State} (h : Stored s) (ha : StatusAgrees s) (hb : busy s = false) : Sound s := by
  refine h.sound ha (fun hq => ?_) (fun hq => ?_) (fun hq => ?_)
  · simp [busy, hq] at hb
  · simp [busy, hq] at hb
  · cases hs : s.seq <;> simp [encoding, busy, hs] at hq hb

/-- In the phases of `ENCODE` only its preconditions are added. -/
theorem Stored.sound_of_encoding {s : State} (h : Stored s) (ha : StatusAgrees s) (hb : encoding s = true)
    (he : EncodeReady s) : Sound s := by
  refine h.sound ha (fun hq => ?_) (fun hq => ?_) (fun _ => he)
  · simp [encoding, hq] at hb
  · simp [encoding, hq] at hb

/-- While codes are decoded their part is added. -/
theorem Stored.sound_of_run {s : State} (h : Stored s) (ha : StatusAgrees s) (hq : s.seq = .lzdRun) (hr : RunSound s) :
    Sound s :=
  h.sound ha (fun hq' => by simp [hq] at hq') (fun _ => hr) (fun he => by simp [encoding, hq] at he)

/-- The stored part follows the deframer, the memories, `FB_LEN` and the capacity. -/
theorem Stored.of_eq {s t : State} (h : Stored s) (hd : DfrSound t) (hfb : t.fb = s.fb) (hpal : t.pal = s.pal)
    (hdict : t.dict = s.dict) (hcfg : t.cfg = s.cfg) (hlen : t.fbLen = s.fbLen ∨ t.fbLen = 0) : Stored t where
  dfr := hd
  cells i hi := by
    rcases hlen with e | e <;> rw [e] at hi
    · rw [hfb]; exact h.cells i hi
    · simp at hi
  fbWf := by rw [hfb]; exact h.fbWf
  palWf := by rw [hpal]; exact h.palWf
  dictWf := by rw [hdict]; exact h.dictWf
  fbBelow := by unfold fbCap; rw [hfb, hcfg]; exact h.fbBelow
  palBelow := by rw [hpal]; exact h.palBelow
  dictBelow := by rw [hdict]; exact h.dictBelow

/-- A change that leaves the block's memories and `FB_LEN` alone, and the deframer too. -/
theorem Stored.of_same {s t : State} (h : Stored s) (hdfr : t.dfr = s.dfr) (hbuf : t.dfrbuf = s.dfrbuf)
    (hfb : t.fb = s.fb) (hpal : t.pal = s.pal) (hdict : t.dict = s.dict) (hcfg : t.cfg = s.cfg)
    (hlen : t.fbLen = s.fbLen ∨ t.fbLen = 0) : Stored t :=
  h.of_eq (h.dfr.of_eq hdfr hbuf) hfb hpal hdict hcfg hlen

theorem Stored.of_dfrOnly {s u : State} (h : Stored s) (hd : DfrOnly s u) (hs : DfrSound s → DfrSound u) : Stored u :=
  h.of_eq (hs h.dfr) (by rw [hd.eq]) (by rw [hd.eq]) (by rw [hd.eq]) (by rw [hd.eq]) (.inl (by rw [hd.eq]))

/-- A fault leaves what is stored as it is and ends the command, so nothing more is asked. -/
theorem Stored.sound_raise {u : State} (h : Stored u) (c : Cause) (ha : StatusAgrees (raiseExc c u)) :
    Sound (raiseExc c u) :=
  (h.of_same (t := raiseExc c u) rfl rfl rfl rfl rfl rfl (.inl rfl)).sound_of_not_busy ha rfl

/-- Soundness does not speak of the streams, the host's side, the pin or the yardstick. -/
theorem Sound.withHost {s : State} (h : Sound s) (e : Env) (b : List HostAct) (r : Option Word) (p : List Nat) (g : GifHost)
    (y : Yard) : Sound { s with env := e, bus := b, busRd := r, pin := p, gif := g, yard := y } :=
  ⟨h.status, h.dfrBounded, h.dfrFilled, h.lzd, h.cap, h.frame, h.ser, h.memories⟩

/-- The block after reset is sound, whatever stands around it (R50). -/
theorem blockReset_sound (s : State) : Sound (blockReset s) := by
  refine Stored.sound_of_not_busy ?_ (blockReset_statusAgrees s) rfl
  exact ⟨⟨⟨Nat.le_refl _, Nat.zero_le _⟩, fun _ i hi => absurd hi (Nat.not_lt_zero i), rfl, rfl⟩,
    fun i hi => absurd hi (Nat.not_lt_zero i), rfl, rfl, rfl, rfl, rfl, rfl⟩

/-! ### Host actions and commands -/

/-- `ENCODE` is accepted only with its preconditions (R191). -/
theorem encodeCheck_none {s : State} (h : encodeCheck s = none) : EncodeReady s := by
  unfold encodeCheck at h
  split_ifs at h with hn hp ht hl
  exact ⟨by simpa using hn, by simpa using hp, by omega, by omega⟩

theorem CmdCase.sound {s t : State} (h : Sound s) (ht : StatusAgrees t) (hc : CmdCase s t) : Sound t := by
  cases hc with
  | reset e => rw [e]; exact blockReset_sound s
  | refuse c e =>
    subst e
    exact (h.stored.of_same (t := clearDone s) rfl rfl rfl rfl rfl rfl (.inl rfl)).sound_raise c ht
  | decode _ hf e =>
    subst e
    exact Stored.sound (h.stored.of_same rfl rfl rfl rfl rfl rfl (.inl rfl)) ht (fun _ => hf) (fun hq => by cases hq)
      (fun hq => by cases hq)
  | encode _ hc r e =>
    subst e
    obtain ⟨hn, hp, htr, hl⟩ := encodeCheck_none hc
    exact Stored.sound_of_encoding (h.stored.of_same rfl rfl rfl rfl rfl rfl (.inl rfl)) ht rfl ⟨hn, hp, htr, hl⟩

/-- A palette write keeps the stored part; the other registers of the host are not in it. -/
theorem Stored.withRegs {s : State} (h : Stored s) (w h' tr : BitVec 16) (n : BitVec 9) {p : Memory (BitVec 24)}
    (hp : p = s.pal ∨ ∃ i v, i < 256 ∧ p = Memory.write s.pal i v) :
    Stored { s with width := w, height := h', trns := tr, palN := n, pal := p } := by
  have hpal : Memory.wf p = true ∧ Memory.below 256 p = true := by
    rcases hp with rfl | ⟨i, v, hi, rfl⟩
    · exact ⟨h.palWf, h.palBelow⟩
    · exact ⟨Memory.wf_write i v h.palWf, Memory.below_write v h.palBelow hi⟩
  exact { h with dfr := h.dfr.of_eq rfl rfl, palWf := hpal.1, palBelow := hpal.2 }

theorem BusCase.sound {s t : State} {a : HostAct} (hb : busy s = false) (h : Sound s) (hc : BusCase s t a) : Sound t := by
  have ht := hc.statusAgrees h.status
  cases hc with
  | cmd v _ hx => exact (cmd_case hx).1.sound h ht
  | regs w h' tr n p hp e => subst e; exact (h.stored.withRegs w h' tr n hp).sound_of_not_busy ht hb
  | other e _ _ => rw [e]; exact h.withHost _ _ _ _ _ _

/-! ### `DECODE` -/

/-- The code width after an entry (R164). -/
def grownWidth (next cw : Nat) : Nat := if next + 1 = 2 ^ cw ∧ cw < 12 then cw + 1 else cw

theorem grownWidth_spec {next cw : Nat} (hn : next < 4096) (hcw : cw ≤ 12)
    (h : next < 2 ^ cw ∨ (cw = 12 ∧ next = 4096)) :
    cw ≤ grownWidth next cw ∧ grownWidth next cw ≤ 12 ∧
      (next + 1 < 2 ^ grownWidth next cw ∨ (grownWidth next cw = 12 ∧ next + 1 = 4096)) := by
  have hlt : next < 2 ^ cw := h.resolve_right (by omega)
  unfold grownWidth
  split_ifs with hg
  · have : 2 ^ (cw + 1) = 2 * 2 ^ cw := by ring
    exact ⟨by omega, by omega, .inl (by omega)⟩
  · refine ⟨Nat.le_refl _, hcw, ?_⟩
    by_cases hcw' : cw = 12
    · subst hcw'; omega
    · exact .inl (by omega)

/-- A data code in its two outcomes: with an entry, or with the dictionary as it was (R164, R165). -/
theorem lzdPut_cases (str : List Byte) (first : Byte) (code : Code) (s : State) :
    (∃ p, s.lzd.prev = some p ∧ s.lzd.next < 4096 ∧ lzdPut str first code s = { s with
      fb := Memory.writeList s.fb s.lzd.outcnt (str.take (emitCount str s))
      dict := Memory.write s.dict s.lzd.next { pre := p, suf := first }
      lzd := { s.lzd with outcnt := s.lzd.outcnt + emitCount str s, next := s.lzd.next + 1,
                          cw := grownWidth s.lzd.next s.lzd.cw, prev := some code } }) ∨
    ((s.lzd.prev = none ∨ 4096 ≤ s.lzd.next) ∧ lzdPut str first code s = { s with
      fb := Memory.writeList s.fb s.lzd.outcnt (str.take (emitCount str s))
      lzd := { s.lzd with outcnt := s.lzd.outcnt + emitCount str s, prev := some code } }) := by
  unfold lzdPut
  rcases lzdAdd_cases first (lzdEmit str s) with ⟨p, hp, hn, e⟩ | ⟨hp, e⟩ <;> rw [e]
  · exact .inl ⟨p, hp, hn, rfl⟩
  · exact .inr ⟨hp, rfl⟩

/-- Emitting stays at or below the target. -/
theorem emitCount_le {str : List Byte} {s : State} (h : s.lzd.outcnt ≤ s.lzd.target) :
    s.lzd.outcnt + emitCount str s ≤ s.lzd.target := by
  unfold emitCount; omega

theorem take_emitCount_length (str : List Byte) (s : State) : (str.take (emitCount str s)).length = emitCount str s := by
  rw [List.length_take, emitCount]; omega

/-- The emitted bytes stay inside the frame buffer. -/
theorem Stored.put {s : State} (h : Stored s) (hr : RunSound s) (str : List Byte) (first : Byte) (code : Code) :
    Stored (lzdPut str first code s) := by
  obtain ⟨-, -, -, -, -, -, -, -, -, -, hout, htarget⟩ := hr.ranges
  have hfit : s.lzd.outcnt + (str.take (emitCount str s)).length ≤ fbCap s := by
    have := emitCount_le (str := str) hout
    have := hr.cap
    rw [take_emitCount_length]; omega
  have hfb := Memory.wf_writeList s.lzd.outcnt (str.take (emitCount str s)) h.fbWf
  have hbelow := Memory.below_writeList (str.take (emitCount str s)) h.fbBelow hfit
  have hcells {fb : Memory Byte} (i : Nat) (hi : i < s.fbLen.toNat) : (Memory.read fb i).isSome = true := by
    simp [hr.fbLen] at hi
  rcases lzdPut_cases str first code s with ⟨p, hp, hn, e⟩ | ⟨-, e⟩ <;> rw [e]
  · exact { h with
      dfr := h.dfr.of_eq rfl rfl, cells := hcells, fbWf := hfb, fbBelow := hbelow
      dictWf := Memory.wf_write _ _ h.dictWf, dictBelow := Memory.below_write _ h.dictBelow hn }
  · exact { h with dfr := h.dfr.of_eq rfl rfl, cells := hcells, fbWf := hfb, fbBelow := hbelow }

/-- The cells written so far hold values after an emission too. -/
theorem emitted_cells {str : List Byte} {s t : State} (hs : ∀ i, i < s.lzd.outcnt → (Memory.read s.fb i).isSome = true)
    (he : Emitted str s t) (i : Nat) (hi : i < t.lzd.outcnt) : (Memory.read t.fb i).isSome = true := by
  obtain ⟨hout, hnew, hold⟩ := he
  by_cases h : i < s.lzd.outcnt
  · rw [hold i (.inl h)]; exact hs i h
  · have hk : i - s.lzd.outcnt < emitCount str s := by omega
    have hl : i - s.lzd.outcnt < str.length := by unfold emitCount at hk; omega
    have := hnew _ hk
    rw [Nat.add_sub_cancel' (by omega)] at this
    simp [this, hl]

/-- A data code keeps the decoding sound if it is a code that `prev` may hold afterwards (R32, R43, R164). -/
theorem RunSound.put {s : State} (h : RunSound s) (str : List Byte) (first : Byte) {code : Code}
    (hc : code.toNat ≠ s.lzd.clear ∧ code.toNat ≠ s.lzd.eoi)
    (hn : code.toNat < s.lzd.next ∨ (code.toNat = s.lzd.next ∧ s.lzd.next < 4096 ∧ s.lzd.prev.isSome = true)) :
    RunSound (lzdPut str first code s) := by
  have hcells := emitted_cells h.cells (lzdPut_spec str first code s).1
  obtain ⟨r1, r2, r3, r4, r5, hcw, hlow, hnext, r9, r10, hout, htarget⟩ := h.ranges
  have hfit := emitCount_le (str := str) hout
  rcases lzdPut_cases str first code s with ⟨p, hp, hroom, e⟩ | ⟨hp, e⟩ <;> rw [e] at hcells ⊢
  · obtain ⟨g1, g2, g3⟩ := grownWidth_spec hroom hcw hnext
    refine ⟨⟨r1, r2, r3, r4, Nat.le_trans r5 g1, g2, Nat.le_succ_of_le hlow, g3, r9, r10, hfit, htarget⟩,
      ⟨by show code.toNat < s.lzd.next + 1; omega, hc⟩, fun c h1 h2 => ?_, h.cap, h.fbLen, hcells⟩
    have hprev : DataCode s s.lzd.next p := by have := h.prev; rwa [LzdPrev, hp] at this
    by_cases hcn : c = s.lzd.next
    · subst hcn
      exact ⟨_, Memory.read_write_same _ _ _, hprev⟩
    · obtain ⟨d, hd, hpre⟩ := h.dict c h1 (by have : c < s.lzd.next + 1 := h2; omega)
      exact ⟨d, (Memory.read_write_other _ _ hcn).trans hd, hpre⟩
  · have hlt : code.toNat < s.lzd.next := by
      refine hn.resolve_right (fun ⟨_, hroom, hsome⟩ => ?_)
      rcases hp with hp | hp
      · simp [hp] at hsome
      · omega
    exact ⟨⟨r1, r2, r3, r4, r5, hcw, hlow, hnext, r9, r10, hfit, htarget⟩, ⟨hlt, hc⟩, h.dict, h.cap, h.fbLen, hcells⟩

/-- Taking a code's bits off the buffer. -/
theorem RunSound.dropCode {s : State} (h : RunSound s) (hb : s.lzd.cw ≤ s.lzd.bitcnt) : RunSound (dropCode s) := by
  obtain ⟨r1, r2, r3, r4, r5, hcw, r7, r8, hcnt, hbuf, r11, r12⟩ := h.ranges
  exact ⟨⟨r1, r2, r3, r4, r5, hcw, r7, r8, Nat.le_trans (Nat.sub_le _ _) hcnt, (dropCode_bitbuf hcw hb hbuf).2.1, r11, r12⟩,
    h.prev, h.dict, h.cap, h.fbLen, h.cells⟩

/-- A byte is fetched only while fewer bits than a code are held, so 19 bits are never passed (R156). -/
theorem RunSound.pushByte {s : State} (h : RunSound s) (b : Byte) (hb : s.lzd.bitcnt < s.lzd.cw) :
    RunSound (pushByte b s) := by
  obtain ⟨r1, r2, r3, r4, r5, hcw, r7, r8, hcnt, hbuf, r11, r12⟩ := h.ranges
  exact ⟨⟨r1, r2, r3, r4, r5, hcw, r7, r8, by show s.lzd.bitcnt + 8 ≤ 19; omega, (pushByte_bitbuf hbuf).2, r11, r12⟩,
    h.prev, h.dict, h.cap, h.fbLen, h.cells⟩

theorem RunSound.of_dfrOnly {s u : State} (h : RunSound s) (hd : DfrOnly s u) : RunSound u := by
  rw [hd.eq]
  exact ⟨h.ranges, h.prev, h.dict, h.cap, h.fbLen, h.cells⟩

/-- An empty dictionary of code size `n` leaves room in codes of `n + 1` bits. -/
theorem emptyDict_lt {n : Nat} (h : 2 ≤ n) : 2 ^ n + 2 < 2 ^ (n + 1) := by
  have : 2 ^ 2 ≤ 2 ^ n := Nat.pow_le_pow_right (by omega) h
  have : 2 ^ (n + 1) = 2 * 2 ^ n := by ring
  omega

/-- The clear code empties the dictionary (R157). -/
theorem RunSound.clr {s t : State} (h : RunSound s) (hx : exec .lzwClr s = .next t) : RunSound t := by
  obtain ⟨r1, r2, r3, r4, -, -, -, -, r9, r10, r11, r12⟩ := h.ranges
  cases hx
  refine ⟨⟨r1, r2, r3, r4, Nat.le_refl _, ?_, Nat.le_refl _, .inl ?_, r9, r10, r11, r12⟩, rfl, ?_, h.cap, h.fbLen, h.cells⟩
  · show s.lzd.n + 1 ≤ 12; omega
  · show s.lzd.clear + 2 < 2 ^ (s.lzd.n + 1)
    rw [r3]; exact emptyDict_lt r1
  · intro c h1 h2
    exact absurd h2 (Nat.not_lt.2 h1)

/-- `LZD.START` on a legal code size, with the frame in the buffer's capacity (R153). -/
theorem lzdStart_runSound {b : Byte} {u : State} (hb : 2 ≤ b.toNat ∧ b.toNat ≤ 8) (hcap : frameSize u ≤ fbCap u) :
    RunSound (lzdStart b u) := by
  refine ⟨⟨hb.1, hb.2, rfl, rfl, Nat.le_refl _, ?_, Nat.le_refl _, .inl (emptyDict_lt hb.1), Nat.zero_le _, ?_, Nat.zero_le _,
    rfl⟩, rfl, fun c h1 h2 => absurd h2 (Nat.not_lt.2 h1), hcap, rfl, fun i hi => absurd hi (Nat.not_lt_zero i)⟩
  · show b.toNat + 1 ≤ 12; omega
  · show 0 < 2 ^ 0; omega

theorem SizeCase.sound {s t : State} (hq : s.seq = .lzdSize) (h : Sound s) (hc : SizeCase s t) : Sound t := by
  have ht := hc.statusAgrees hq h.status
  have keep {u : State} (hd : CursorOnly { s with fbLen := 0 } u) : Stored u :=
    h.stored.of_same (by rw [hd.eq]) (by rw [hd.eq]) (by rw [hd.eq]) (by rw [hd.eq]) (by rw [hd.eq]) (by rw [hd.eq])
      (.inr (by rw [hd.eq]))
  cases hc with
  | raise c u hd e => subst e; exact (keep hd).sound_raise c ht
  | start b u hd hb e =>
    subst e
    have hcap : frameSize u ≤ fbCap u := by rw [hd.eq]; exact h.cap (.inl hq)
    have hs : Stored (lzdStart b u) :=
      (keep hd).of_eq ((keep hd).dfr.of_empty rfl rfl rfl) rfl rfl rfl rfl (.inr rfl)
    exact hs.sound_of_run ht rfl (lzdStart_runSound hb hcap)

/-- At the end of the run `FB_LEN` takes the target, and the cells below it are written (R152). -/
theorem lzdFinish_stored {s : State} (h : Stored s) (hr : RunSound s) (hend : s.lzd.target ≤ s.lzd.outcnt) :
    Stored (lzdFinish s) := by
  refine { h with dfr := h.dfr.of_eq rfl rfl, cells := fun i hi => hr.cells i (Nat.lt_of_lt_of_le ?_ hend) }
  rw [lzdFinish_fbLen, BitVec.toNat_ofNat] at hi
  exact Nat.lt_of_lt_of_le hi (Nat.mod_le _ _)

theorem RunCase.sound {s t : State} (hq : s.seq = .lzdRun) (h : Sound s) (hc : RunCase s t) : Sound t := by
  have ht := hc.statusAgrees hq h.status
  have hr := h.running hq
  have hdrop : Stored (dropCode s) := h.stored.of_same rfl rfl rfl rfl rfl rfl (.inl rfl)
  cases hc with
  | finish hend e => subst e; exact (lzdFinish_stored h.stored hr hend).sound_of_not_busy ht rfl
  | raise c u hd hs e => subst e; exact (h.stored.of_dfrOnly hd hs).sound_raise c ht
  | dfr hd hs => exact (h.stored.of_dfrOnly hd hs).sound_of_run ht (by rw [hd.eq]; exact hq) (hr.of_dfrOnly hd)
  | push b u hb hd hs e =>
    subst e
    have hq' : u.seq = .lzdRun := by rw [hd.eq]; exact hq
    have hb' : u.lzd.bitcnt < u.lzd.cw := by rw [show u.lzd = s.lzd by rw [hd.eq]]; exact hb
    have hu := h.stored.of_dfrOnly hd hs
    exact Stored.sound_of_run (hu.of_same rfl rfl rfl rfl rfl rfl (.inl rfl)) ht hq' ((hr.of_dfrOnly hd).pushByte b hb')
  | clr hb hx =>
    have hrun := (hr.dropCode hb).clr hx
    cases hx
    exact Stored.sound_of_run (hdrop.of_same rfl rfl rfl rfl rfl rfl (.inl rfl)) ht hq hrun
  | bad c e => subst e; exact hdrop.sound_raise c ht
  | put str b code hb ho hc e =>
    subst e
    obtain ⟨-, -, -, heoi, -, -, hlow, -⟩ := hr.ranges
    have hseq : (lzdPut str b code (dropCode s)).seq = .lzdRun := (lzdPut_control str b code (dropCode s)).2.2.trans hq
    have hcode : code.toNat ≠ s.lzd.clear ∧ code.toNat ≠ s.lzd.eoi := by omega
    have hnext : code.toNat < s.lzd.next ∨
        (code.toNat = s.lzd.next ∧ s.lzd.next < 4096 ∧ s.lzd.prev.isSome = true) := by
      rcases hc with hlit | ⟨-, -, -, hcode⟩
      · exact .inl (by omega)
      · exact hcode
    exact (hdrop.put (hr.dropCode hb) str b code).sound_of_run ht hseq ((hr.dropCode hb).put str b hcode hnext)

/-! ### `ENCODE` -/

theorem SerCase.sound {s t : State} {i : Instr} (hi : encodeInstr i = true) (hq : s.seq = serPhase i) (h : Sound s)
    (hc : SerCase i s t) : Sound t := by
  have ht := hc.statusAgrees hi hq h.status
  obtain ⟨hn, hp, htr, hl⟩ := h.encodeReady (serPhase_busy hi hq).1
  cases hc with
  | fail e r _ e' =>
    subst e'
    exact (h.stored.of_same (t := { s with env := e, ser := r }) rfl rfl rfl rfl rfl rfl (.inl rfl)).sound_raise _ ht
  | ok e r _ e' =>
    have hstored : Stored t := by subst e'; exact h.stored.of_same rfl rfl rfl rfl rfl rfl (.inl rfl)
    rcases serAfter_cases hi (s := s) (t := t) (by rw [e']) with ⟨-, hidle⟩ | ⟨-, henc⟩
    · exact hstored.sound_of_not_busy ht (by simp [busy, hidle])
    · exact hstored.sound_of_encoding ht henc (by subst e'; exact ⟨hn, hp, htr, hl⟩)

/-! ### Every step -/

theorem MoveCase.sound {s t : State} (h : Sound s) (hm : MoveCase s t) : Sound t := by
  cases hm with
  | yard e => rw [e]; exact h.withHost _ _ _ _ _ _
  | bus a rest hb _ hx => exact (bus_case hx).sound (s := { s with bus := rest }) hb (h.withHost _ rest _ _ _ _)
  | gif _ hf => rw [hf.eq]; exact h.withHost _ _ _ _ _ _
  | size hq hx => exact (size_case hx).sound hq h
  | run hq hx => exact (run_case hx).sound hq h
  | ser i hi hq hx => exact (ser_case hi hx).sound hi hq h

/-- Settles O29: a reset of the pin makes the block sound, and each move of the agents keeps it so. -/
theorem stepKeepsSoundness : Obligations.StepKeepsSoundness := by
  intro s t h hstep
  cases step_case hstep with
  | strike rest _ e => rw [e]; exact (blockReset_sound s).withHost _ _ _ rest _ _
  | move p u hm e => rw [e]; exact (hm.sound (h.withHost _ _ _ [] _ _)).withHost _ _ _ p _ _

/-- Settles O28: the reset state is the block's reset of itself. -/
theorem resetIsSound : Obligations.ResetIsSound := blockReset_sound State.reset

end Sys2Proof.Machine
end

section
/-! Progress: in a sound state every agent's move has a next state, but for the host's accesses to the register bank and the frame
buffer port. -/

namespace Sys2Proof.Machine

/-! ### The container parser and the yardstick never stop -/

theorem exec_host_next {i : Instr} (hi : hostInstr i = true) (s : State) : ∃ t, exec i s = .next t := by
  cases i with
  | gifTrailer | gifExt | gifImg | gifBadtag _ | extGce | extPte | extApp | extCom | extBad _ => exact ⟨_, rfl⟩
  | _ => cases hi

theorem exec_yard_next {i : Instr} (hi : yardInstr i = true) (s : State) : ∃ t, exec i s = .next t := by
  cases i with
  | zlibHdr _ _ | deflStored _ | deflFixed _ | deflDyn _ | deflRsvd _ => exact ⟨_, rfl⟩
  | _ => cases hi

theorem fetchGif_next (s : State) : ∃ t, runFetched (fetchGif s) = .next t := by
  unfold fetchGif
  cases s.gif.phase with
  | tag =>
    simp only [fetchTag]
    cases inPeek s with
    | byte b => exact exec_host_next (tag_host b) s
    | eos => exact ⟨_, rfl⟩
    | fail => exact ⟨_, rfl⟩
  | ext =>
    simp only [fetchExt]
    cases hRead 1 s with
    | ok bs u => exact exec_host_next (ext_host _) u
    | raised c u => exact ⟨_, rfl⟩
  | _ => exact ⟨_, rfl⟩

theorem fetchZhdr_next (s : State) : ∃ t, runFetched (fetchZhdr s) = .next t := by
  unfold fetchZhdr decodeZhdr
  split_ifs <;> exact ⟨_, rfl⟩

theorem fetchDblk_next (s : State) : ∃ t, runFetched (fetchDblk s) = .next t := by
  unfold fetchDblk
  cases bitsAt (yardData s) s.yard.p 3 with
  | some bits => exact exec_yard_next (dblk_yard bits) _
  | none => exact ⟨_, rfl⟩

/-! ### `ENCODE` finds the values it reads -/

/-- With a value in every cell below `FB_LEN` the filtered frame has one (R206). -/
theorem Stored.serFilt_isSome {s : State} (h : Stored s) (hl : s.fbLen.toNat = frameSize s) : ∃ raw, serFilt s = some raw := by
  refine serFiltFrom_isSome (fun i hi => ?_)
  have hlt : i < s.fbLen.toNat := by
    rw [hl, frameSize, Nat.mul_comm]
    simpa using hi
  rw [fbCell, if_pos hlt]
  exact h.cells i hlt

theorem palWritten_read {s : State} {n : Nat} (h : palWritten s n = true) (i : Nat) (hi : i < n) :
    (Memory.read s.pal i).isSome = true :=
  List.all_eq_true.1 h i (List.mem_range.2 hi)

theorem exec_cmd_next {s : State} (h : Stored s) (b : Byte) : ∃ t, exec (decodeCmd b) s = .next t := by
  unfold decodeCmd
  split_ifs
  · exact ⟨_, rfl⟩
  · exact ⟨_, rfl⟩
  · simp only [exec, execCmdEncode]
    split
    · exact ⟨_, rfl⟩
    · cases hc : encodeCheck s with
      | some c => exact ⟨_, rfl⟩
      | none =>
        obtain ⟨raw, hraw⟩ := h.serFilt_isSome (encodeCheck_none hc).fbLen
        simp only [hraw]
        exact ⟨_, rfl⟩
  · exact ⟨_, rfl⟩

theorem exec_ser_next {i : Instr} (hi : encodeInstr i = true) {s : State} (h : Stored s) (he : EncodeReady s) :
    ∃ t, exec i s = .next t := by
  cases i with
  | pngPlte =>
    obtain ⟨p, hp⟩ := pltePayload_isSome (s := s) (n := s.palN.toNat) (i := 0)
      (fun k hk => by simpa using palWritten_read he.pal k hk)
    simp only [exec, execPngPlte, hp]
    exact ⟨_, rfl⟩
  | pngIdat =>
    obtain ⟨raw, hraw⟩ := h.serFilt_isSome he.fbLen
    simp only [exec, execPngIdat, hraw]
    exact ⟨_, rfl⟩
  | pngSig | pngIhdr | pngTrns | pngIend => exact ⟨_, rfl⟩
  | _ => cases hi

/-! ### `DECODE` finds the values it reads -/

theorem fetchSize_next (s : State) : ∃ t, runFetched (fetchSize s) = .next t := by
  unfold fetchSize
  split
  · exact ⟨_, rfl⟩
  · exact ⟨_, rfl⟩
  · rename_i b u _
    simp only [decodeLzwn]
    split <;> exact ⟨_, rfl⟩

theorem fetchSub_next (s : State) : ∃ t, runFetched (fetchSub s) = .next t := by
  unfold fetchSub
  cases dfrLength s with
  | ok len u =>
    simp only [decodeSb]
    split <;> exact ⟨_, rfl⟩
  | raised c u => exact ⟨_, rfl⟩

/-- A sound buffer that is not used up gives its next byte, and a deframer that is not active says so (R132). -/
theorem takeByte_next {s : State} (h : DfrSound s) (hs : needsSub s = false) : ∃ t, runFetched (takeByte s) = .next t := by
  cases hst : s.dfr.st with
  | eof => simp only [takeByte, dfrRead, hst]; exact ⟨_, rfl⟩
  | trunc c => simp only [takeByte, dfrRead, hst]; exact ⟨_, rfl⟩
  | active =>
    have hpos : s.dfr.pos ≠ s.dfr.len := fun he => by simp [needsSub, hst, he] at hs
    have hread : dfrRead 1 s = dfrTake 1 s := by simp only [dfrRead, hst, hpos, if_false]; rfl
    obtain ⟨bs, htake, hlen, -⟩ := dfrTake_sound (n := 1) h hst
    have := h.bounded.1
    obtain ⟨b, rfl⟩ := List.length_eq_one_iff.1 (show bs.length = 1 by omega)
    simp only [takeByte, hread, htake]
    exact ⟨_, rfl⟩

/-- Every data code has a string: what an entry extends is a smaller data code (R43, R158). -/
theorem strAux_dataCode {s : State} (hr : LzdRanges s) (hd : DictSound s) {k : Nat} {c : Code} (hk : c.toNat < k)
    (hc : DataCode s s.lzd.next c) : ∃ b bs, strAux s k c = some (b :: bs) := by
  obtain ⟨-, -, -, heoi, -⟩ := hr
  induction k generalizing c with
  | zero => omega
  | succ k ih =>
    rw [strAux]
    by_cases hlit : c.toNat < s.lzd.clear
    · exact ⟨_, _, if_pos hlit⟩
    · obtain ⟨hlt, hnc, hne⟩ := hc
      have hlow : s.lzd.clear + 2 ≤ c.toNat := by omega
      obtain ⟨e, he, hpre, hpc, hpe⟩ := hd c.toNat hlow hlt
      obtain ⟨b, bs, hstr⟩ := ih (c := e.pre) (by omega) ⟨by omega, hpc, hpe⟩
      have hcell : dictCell s c.toNat = some e := by rw [dictCell, if_pos ⟨hlow, hlt⟩, he]
      exact ⟨b, bs ++ [e.suf], by simp only [hlit, if_false, hcell, hstr, Option.map_some, List.cons_append]⟩

theorem strCode_dataCode {s : State} (hr : LzdRanges s) (hd : DictSound s) {c : Code} (hc : DataCode s s.lzd.next c) :
    ∃ b bs, strCode s c = some (b :: bs) :=
  strAux_dataCode hr hd (Nat.lt_succ_self _) hc

/-- Whatever code the bits give, it runs (R95, R152). -/
theorem exec_lzwc_next {s : State} (h : RunSound s) (c : Code) : ∃ t, exec (decodeLzwc (lzwCtx s) c) s = .next t := by
  rcases decodeLzwc_cases (lzwCtx s) c with ⟨-, e⟩ | ⟨-, -, e⟩ | ⟨-, -, -, e⟩ | ⟨hnc, hne, -, hlt, e⟩ | ⟨-, -, -, -, e⟩ |
    ⟨-, -, -, -, e⟩ <;> rw [e]
  · exact ⟨_, rfl⟩
  · exact ⟨_, rfl⟩
  · exact ⟨_, rfl⟩
  · obtain ⟨b, bs, hstr⟩ := strCode_dataCode h.ranges h.dict ⟨hlt, hnc, hne⟩
    simp only [exec, execLzwRef, hstr]
    exact ⟨_, rfl⟩
  · cases hp : s.lzd.prev with
    | none => simp only [exec, execLzwKwk, hp]; exact ⟨_, rfl⟩
    | some p =>
      have hprev : DataCode s s.lzd.next p := by have := h.prev; rwa [LzdPrev, hp] at this
      obtain ⟨b, bs, hstr⟩ := strCode_dataCode h.ranges h.dict hprev
      simp only [exec, execLzwKwk, hp, hstr]
      exact ⟨_, rfl⟩
  · exact ⟨_, rfl⟩

theorem fetchRun_next {s : State} (h : Stored s) (hr : RunSound s) : ∃ t, runFetched (fetchRun s) = .next t := by
  unfold fetchRun
  split_ifs with h1 hb hs
  · exact ⟨_, rfl⟩
  · exact exec_lzwc_next (hr.dropCode hb) (codeInBuf s)
  · exact fetchSub_next s
  · exact takeByte_next h.dfr (by simpa using hs)

/-! ### The host's actions -/

/-- The accesses of the host that the model may stop at (notes/assumptions/11.md). -/
def HostAccess (a : HostAct) : Prop :=
  (∃ off v, a = .wr off v ∧ off ≠ offCmd) ∨ (∃ off, a = .rd off) ∨ (∃ i, a = .fbRd i)

theorem fetchBus_next {s : State} (h : Stored s) (a : HostAct) :
    (∃ t, runFetched (fetchBus a s) = .next t) ∨ HostAccess a := by
  cases a with
  | wr off v =>
    by_cases ho : off = offCmd
    · subst ho
      exact .inl (exec_cmd_next h (v.setWidth 8))
    · exact .inr (.inl ⟨off, v, rfl, ho⟩)
  | rd off => exact .inr (.inr (.inl ⟨off, rfl⟩))
  | fbRd i => exact .inr (.inr (.inr ⟨i, rfl⟩))
  | inTake =>
    simp only [fetchBus]
    rcases inRead s with ⟨b | _ | _, u⟩ <;> exact .inl ⟨_, rfl⟩
  | openOut | closeOut | gifRun _ | unzip _ => exact .inl ⟨_, rfl⟩

/-! ### Every step -/

/-- A state stops only at an access of the host, between commands, with the yardstick at rest. -/
def StopsAtAccess (s : State) : Prop :=
  yardRests s = true ∧ busy s = false ∧ ∃ a rest, s.bus = a :: rest ∧ HostAccess a

theorem fetchIdle_next {s : State} (h : Sound s) :
    (∃ t, runFetched (fetchIdle s) = .next t) ∨ ∃ a rest, s.bus = a :: rest ∧ HostAccess a := by
  unfold fetchIdle
  cases hbus : s.bus with
  | nil => exact .inl (fetchGif_next s)
  | cons a rest =>
    have hs : Stored { s with bus := rest } := (h.withHost _ rest _ _ _ _).stored
    exact (fetchBus_next hs a).imp_right (fun ha => ⟨a, rest, rfl, ha⟩)

/-- A running command always has its next step. -/
theorem fetchBlock_busy_next {s : State} (h : Sound s) (hb : busy s = true) : ∃ t, runFetched (fetchBlock s) = .next t := by
  have ser {i : Instr} (hi : encodeInstr i = true) (hq : s.seq = serPhase i) : ∃ t, exec i s = .next t :=
    exec_ser_next hi h.stored (h.encodeReady (serPhase_busy hi hq).1)
  unfold fetchBlock
  cases hq : s.seq with
  | idle | fault => simp [busy, hq] at hb
  | lzdSize => exact fetchSize_next s
  | lzdRun => exact fetchRun_next h.stored (h.running hq)
  | serSig => exact ser (i := .pngSig) rfl hq
  | serIhdr => exact ser (i := .pngIhdr) rfl hq
  | serPlte => exact ser (i := .pngPlte) rfl hq
  | serTrns => exact ser (i := .pngTrns) rfl hq
  | serIdat => exact ser (i := .pngIdat) rfl hq
  | serIend => exact ser (i := .pngIend) rfl hq

theorem fetch_next {s : State} (h : Sound s) : (∃ t, runFetched (fetch s) = .next t) ∨ StopsAtAccess s := by
  cases hy : yardRests s with
  | false =>
    unfold fetch
    cases hs : s.yard.st with
    | header => exact .inl (fetchZhdr_next s)
    | block => exact .inl (fetchDblk_next s)
    | off | result _ => simp [yardRests, hs] at hy
  | true =>
    rw [fetch_rests hy]
    cases hb : busy s with
    | true => exact .inl (fetchBlock_busy_next h hb)
    | false =>
      rw [fetchBlock_notBusy hb]
      exact (fetchIdle_next h).imp_right (fun ha => ⟨hy, hb, ha⟩)

/-- Settles O30: a reset that is due always strikes, and otherwise the agents' move decides; counting the pin changes nothing of it. -/
theorem soundStateStopsOnlyOnHostAccesses : Obligations.SoundStateStopsOnlyOnHostAccesses := by
  intro s h
  cases hp : s.pin with
  | nil => rw [step_noPin hp]; exact fetch_next h
  | cons n rest =>
    cases n with
    | zero => exact .inl ⟨_, step_strike hp⟩
    | succ n =>
      rw [step_count hp, step_noPin (s := { s with pin := [] }) rfl]
      exact (fetch_next (s := { s with pin := [] }) (h.withHost _ _ _ [] _ _)).imp_left
        (fun ⟨t, ht⟩ => ⟨{ t with pin := n :: rest }, by rw [ht, withPin_of_next]⟩)

end Sys2Proof.Machine
end

section
/-! The host's registers: who writes them, what a host access does, the command register and reset. -/

namespace Sys2Proof.Machine

/-! ### No instruction but RESET writes what belongs to the host (R26 to R30, R42, R351) -/

/-- The configuration, and the registers and the palette that only the host writes, are the same in both states. -/
structure SameSetup (s t : State) : Prop where
  cfg : t.cfg = s.cfg
  width : t.width = s.width
  height : t.height = s.height
  trns : t.trns = s.trns
  palN : t.palN = s.palN
  pal : t.pal = s.pal

theorem SameSetup.refl (s : State) : SameSetup s s := ⟨rfl, rfl, rfl, rfl, rfl, rfl⟩

/-- A fault leaves them alone. -/
theorem SameSetup.raise {s u : State} (c : Cause) (h : SameSetup s u) : SameSetup s (raiseExc c u) :=
  ⟨h.cfg, h.width, h.height, h.trns, h.palN, h.pal⟩

theorem HostOnly.sameSetup {s t : State} (h : HostOnly s t) : SameSetup s t := by
  rw [h.eq]; exact ⟨rfl, rfl, rfl, rfl, rfl, rfl⟩

theorem DfrOnly.sameSetup {s t : State} (h : DfrOnly s t) : SameSetup s t := by
  rw [h.eq]; exact ⟨rfl, rfl, rfl, rfl, rfl, rfl⟩

theorem SerCase.sameSetup {s t : State} {i : Instr} (h : SerCase i s t) : SameSetup s t := by
  cases h with
  | ok e r _ ht => rw [ht]; exact ⟨rfl, rfl, rfl, rfl, rfl, rfl⟩
  | fail e r _ ht => rw [ht]; exact ⟨rfl, rfl, rfl, rfl, rfl, rfl⟩

theorem lzdPut_sameSetup (str : List Byte) (b : Byte) (code : Code) (s : State) : SameSetup s (lzdPut str b code s) := by
  obtain ⟨-, -, hf⟩ := lzdPut_spec str b code s
  unfold DataFrame at hf
  rw [hf]; exact ⟨rfl, rfl, rfl, rfl, rfl, rfl⟩

theorem exec_decode_sameSetup {i : Instr} {s t : State} (hi : decodeInstr i = true) (h : exec i s = .next t) :
    SameSetup s t := by
  cases i with
  | sbTerm | lzwClr => cases h; exact ⟨rfl, rfl, rfl, rfl, rfl, rfl⟩
  | sbData len =>
    cases h
    have hd := (dfrLoad_dfrOnly len s).sameSetup
    cases hr : dfrLoad len s with
    | ok _ u => rw [hr] at hd; exact hd
    | raised c u => rw [hr] at hd; exact hd.raise c
  | lzwSize n | lzwSizeIll n =>
    cases h
    split <;> exact ⟨rfl, rfl, rfl, rfl, rfl, rfl⟩
  | lzwEoi | lzwIll code => cases h; exact (SameSetup.refl s).raise _
  | lzwLit code => cases h; exact lzdPut_sameSetup _ _ _ s
  | lzwRef code =>
    simp only [exec, execLzwRef] at h
    split at h <;> cases h
    exact lzdPut_sameSetup _ _ _ s
  | lzwKwk code =>
    simp only [exec, execLzwKwk] at h
    split at h
    · cases h; exact (SameSetup.refl s).raise _
    · split at h <;> cases h
      exact lzdPut_sameSetup _ _ _ s
  | _ => cases hi

/-- A command other than RESET is refused, or enters its first phase. -/
theorem exec_cmd_sameSetup {i : Instr} {s t : State} (hi : i = .cmdDecode ∨ i = .cmdEncode ∨ ∃ c, i = .cmdRsvd c)
    (h : exec i s = .next t) : SameSetup s t := by
  have refuse (c : Cause) : SameSetup s (raiseExc c (clearDone s)) := ⟨rfl, rfl, rfl, rfl, rfl, rfl⟩
  rcases hi with rfl | rfl | ⟨c, rfl⟩
  · simp only [exec, execCmdDecode, refuseCmd_eq] at h
    split_ifs at h <;> cases h
    · exact refuse _
    · exact refuse _
    · exact ⟨rfl, rfl, rfl, rfl, rfl, rfl⟩
  · simp only [exec, execCmdEncode, refuseCmd_eq, adlerAll_eq] at h
    split at h
    · cases h; exact refuse _
    · split at h
      · cases h; exact refuse _
      · split at h
        · cases h
        · split_ifs at h <;> cases h
          · exact refuse _
          · exact ⟨rfl, rfl, rfl, rfl, rfl, rfl⟩
  · simp only [exec, execCmdRsvd, refuseCmd_eq] at h
    split_ifs at h <;> cases h <;> exact refuse _

/-- Every instruction but RESET, by the unit it belongs to. -/
theorem exec_sameSetup {i : Instr} {s t : State} (hi : i ≠ .cmdReset) (h : exec i s = .next t) : SameSetup s t := by
  cases i with
  | cmdReset => exact absurd rfl hi
  | cmdDecode | cmdEncode | cmdRsvd _ => exact exec_cmd_sameSetup (by simp) h
  | pngSig | pngIhdr | pngPlte | pngTrns | pngIdat | pngIend => exact (ser_case rfl h).sameSetup
  | zlibHdr _ _ | deflStored _ | deflFixed _ | deflDyn _ | deflRsvd _ =>
    rw [exec_yard rfl h]; exact ⟨rfl, rfl, rfl, rfl, rfl, rfl⟩
  | gifTrailer | gifExt | gifImg | gifBadtag _ | extGce | extPte | extApp | extCom | extBad _ =>
    exact (exec_host rfl h).sameSetup
  | _ => exact exec_decode_sameSetup rfl h

/-- Settles O56: RESET keeps the configuration, and every other instruction the host's registers too. -/
theorem hostRegistersAreTheHosts : Obligations.HostRegistersAreTheHosts := by
  intro s t i h
  by_cases hi : i = .cmdReset
  · subst hi
    cases h
    exact ⟨rfl, fun hn => absurd rfl hn⟩
  · obtain ⟨hcfg, hw, hh, ht, hn, hp⟩ := exec_sameSetup hi h
    exact ⟨hcfg, fun _ => ⟨hw, hh, ht, hn, hp⟩⟩

/-! ### The command register and reset (R22, R270, R350) -/

/-- Settles O4: the oldest host action is taken, and a write to `CMD` is run as its low byte's instruction. -/
theorem writtenCommandIsRun : Obligations.WrittenCommandIsRun := by
  intro s v rest hm hb hbus
  rw [step_bus hm hb hbus]
  rfl

/-- Settles O22: the block's reset is the state after RESET, and the pin leads to it too. -/
theorem resetPutsEveryValueBack : Obligations.ResetPutsEveryValueBack := by
  intro s
  refine ⟨blockReset s, rfl, fun rest hp => ⟨_, _, step_strike hp⟩, fun n rest hp => step_count hp, ?_⟩
  exact ⟨rfl, rfl, rfl, rfl, rfl, rfl, rfl, rfl, rfl, fun a => ⟨rfl, rfl, rfl, rfl⟩, rfl, rfl, rfl, rfl, rfl, rfl, rfl⟩

/-! ### The register bank and the frame buffer port (R21, R41, R42) -/

/-- Entry `i` of the palette stands at offset `0x400 + 4 × i`, which is no other register's (R21). -/
theorem palIndex_entry {i : Nat} (hi : i < 256) : palIndex (0x400 + 4 * i) = some i := by
  unfold palIndex offPal
  rw [if_pos (by omega), Nat.add_sub_cancel_left, Nat.mul_div_cancel_left i (by omega)]

theorem busWrite_pal {i : Nat} (hi : i < 256) (v : Word) (s : State) :
    busWrite (0x400 + 4 * i) v s = .ok { s with pal := Memory.write s.pal i (v.setWidth 24) } := by
  have hne (n : Nat) (h : n < 0x400) : 0x400 + 4 * i ≠ n := by omega
  simp only [busWrite, palIndex_entry hi, hne offWidth (by decide), hne offHeight (by decide), hne offTrns (by decide),
    hne offPalN (by decide), hne offStatus (by decide), hne offErrcode (by decide), hne offFbLen (by decide), if_false,
    or_self]

/-- A read of a palette entry gives the cell's value, or is refused. -/
theorem busRead_pal {i : Nat} (hi : i < 256) (s : State) :
    busRead (0x400 + 4 * i) s =
      ((Memory.read s.pal i).map (fun e => BusAns.value (e.setWidth 32))).getD (.refused (.palNoValue i)) := by
  have hne (n : Nat) (h : n < 0x400) : 0x400 + 4 * i ≠ n := by omega
  simp only [busRead, palIndex_entry hi, hne offCmd (by decide), hne offWidth (by decide), hne offHeight (by decide),
    hne offTrns (by decide), hne offPalN (by decide), hne offStatus (by decide), hne offErrcode (by decide),
    hne offFbLen (by decide), if_false]
  cases Memory.read s.pal i <;> rfl

/-- A pending register write, taken between commands, has the effect of `busWrite`, or stops where that stops. -/
theorem step_write {s : State} {off : Nat} {v : Word} {rest : List HostAct} (hm : blockMoves s = true) (hb : busy s = false)
    (hbus : s.bus = .wr off v :: rest) (ho : off ≠ offCmd) :
    (∀ t, busWrite off v s = .ok t → step s = .next { t with bus := rest }) ∧
      (∀ f, busWrite off v s = .error f → step s = .fault f) := by
  refine ⟨fun t ht => ?_, fun f hf => ?_⟩ <;> rw [step_bus hm hb hbus] <;>
    simp only [fetchBus, ho, if_false, busWrite_bus]
  · rw [ht]; rfl
  · rw [hf]; rfl

/-- A register read looks at no pending action. -/
theorem busRead_bus (off : Nat) (rest : List HostAct) (s : State) : busRead off { s with bus := rest } = busRead off s := rfl

/-- A pending register read, taken between commands, keeps the value `busRead` gives, or stops where that stops. -/
theorem step_read {s : State} {off : Nat} {rest : List HostAct} (hm : blockMoves s = true) (hb : busy s = false)
    (hbus : s.bus = .rd off :: rest) :
    (∀ w, busRead off s = .value w → step s = .next { s with bus := rest, busRd := some w }) ∧
      (∀ f, busRead off s = .fault f → step s = .fault f) ∧ (∀ r, busRead off s = .refused r → step s = .refused r) := by
  refine ⟨fun w hw => ?_, fun f hf => ?_, fun r hr => ?_⟩ <;> rw [step_bus hm hb hbus] <;> simp only [fetchBus, busRead_bus]
  · rw [hw]; rfl
  · rw [hf]; rfl
  · rw [hr]; rfl

/-- A pending read of the frame buffer gives a cell below `FB_LEN`, and is refused at and above it (R41). -/
theorem step_fbRead {s : State} {i : Nat} {b : Byte} {rest : List HostAct} (hm : blockMoves s = true) (hb : busy s = false)
    (hbus : s.bus = .fbRd i :: rest) :
    (i < s.fbLen.toNat → Memory.read s.fb i = some b →
      step s = .next { s with bus := rest, busRd := some (b.setWidth 32) }) ∧
      (s.fbLen.toNat ≤ i → step s = .refused .fbNoValue) := by
  refine ⟨fun hi hr => ?_, fun hi => ?_⟩ <;> rw [step_bus hm hb hbus]
  · have hcell : fbCell { s with bus := rest } i = some b := by rw [fbCell, if_pos hi, hr]
    simp only [fetchBus, hcell]; rfl
  · have hcell : fbCell { s with bus := rest } i = none := by rw [fbCell, if_neg (Nat.not_lt.2 hi)]
    simp only [fetchBus, hcell]; rfl

/-- Settles O60: the register bank offset by offset, then the three accesses as steps. -/
theorem registerBankAndFrameBufferPort : Obligations.RegisterBankAndFrameBufferPort := by
  intro s v i off b rest
  refine ⟨fun hi => ?_, step_write, step_read, step_fbRead⟩
  refine ⟨rfl, rfl, rfl, rfl, busWrite_pal hi v s, ?_, rfl, rfl, rfl, rfl, rfl, rfl, rfl, rfl, fun e he => ?_, fun hn => ?_⟩
  · simp only [List.mem_cons, List.not_mem_nil, or_false]
    rintro ro (rfl | rfl | rfl) <;> rfl
  · rw [busRead_pal hi, he]; rfl
  · rw [busRead_pal hi, hn]; rfl

end Sys2Proof.Machine
end

section
/-! The tokens of `DECODE` and of the container parser: the read that gives one, and what a step does where the read gets no byte. -/

namespace Sys2Proof.Machine

/-! ### A read that gets no byte (R62) -/

theorem inRead_failing {s : State} (hf : s.env.inFails.headD false = true) : inRead s = (.fail, inDraw s) := by
  rw [inRead, if_pos hf]

theorem inRead_atEnd {s : State} (hf : s.env.inFails.headD false = false) (he : s.env.inData.length ≤ s.env.inPos) :
    inRead s = (.eos, inDraw s) := by
  rw [inRead, hf, if_neg Bool.false_ne_true, List.getElem?_eq_none he]

theorem hRead_failing {s : State} (n : Nat) (hf : s.env.inFails.headD false = true) :
    hRead (n + 1) s = .raised .inRead (inDraw s) := by
  rw [hRead, inRead_failing hf]

theorem hRead_atEnd {s : State} (n : Nat) (hf : s.env.inFails.headD false = false)
    (he : s.env.inData.length ≤ s.env.inPos) : hRead (n + 1) s = .raised .fixedField (inDraw s) := by
  rw [hRead, inRead_atEnd hf he]

/-! ### Which token is taken, and what is taken in its place (R62, R153, R289, R292) -/

/-- Settles O5: the code-size byte, a failing source, and the end of `IN`. -/
theorem codeSizeByteIsRun : Obligations.CodeSizeByteIsRun := by
  intro s b hm hq faulted
  rw [step_size hm hq, fetchSize]
  refine ⟨fun hr hb => ?_, fun hf => ?_, fun hf he => ?_⟩
  · rw [inRead_ready (s := { s with fbLen := 0 }) hr.headD hb]; rfl
  · rw [inRead_failing (s := { s with fbLen := 0 }) hf]; rfl
  · rw [inRead_atEnd (s := { s with fbLen := 0 }) hf he]; rfl

/-- Settles O8: the tag is peeked, the sub-type read; each in the three answers of the read. -/
theorem tagAndSubTypeAreRun : Obligations.TagAndSubTypeAreRun := by
  intro s b hm hb hbus drawn failed
  have tag (hp : s.gif.phase = .tag) : step s = runFetched (fetchTag s) := by rw [step_gif hm hb hbus, fetchGif, hp]
  have ext (hp : s.gif.phase = .ext) : step s = runFetched (fetchExt s) := by rw [step_gif hm hb hbus, fetchGif, hp]
  refine ⟨fun hr hin => ⟨fun hp => ?_, fun hp => ?_⟩, fun hf => ⟨fun hp => ?_, fun hp => ?_⟩,
    fun hf he => ⟨fun hp => ?_, fun hp => ?_⟩⟩
  · rw [tag hp, fetchTag, inPeek, inRead_ready hr.headD hin]; rfl
  · rw [ext hp, fetchExt, hRead_ready hr, nextIn_succ hin]; rfl
  · rw [tag hp, fetchTag, inPeek, inRead_failing hf]; rfl
  · rw [ext hp, fetchExt, hRead_failing 0 hf]; rfl
  · rw [tag hp, fetchTag, inPeek, inRead_atEnd hf he]; rfl
  · rw [ext hp, fetchExt, hRead_atEnd 0 hf he]; rfl

/-! ### The phase `LZD_RUN` (R132, R152, R156) -/

/-- The deframer has a byte buffered, and a read gives it (R132). -/
theorem dfrRead_buffered {s : State} {b : Byte} (ha : s.dfr.st = .active) (hpos : s.dfr.pos < s.dfr.len)
    (hb : Memory.read s.dfrbuf s.dfr.pos = some b) :
    dfrRead 1 s = .ok (.data [b]) { s with dfr := { s.dfr with pos := s.dfr.pos + 1 } } := by
  have hn : min 1 (s.dfr.len - s.dfr.pos) = 1 := by omega
  have hslice : dfrSlice s s.dfr.pos 1 = some [b] := by
    rw [dfrSlice, if_pos (Nat.succ_le_of_lt hpos), Memory.readList, hb]; rfl
  simp only [dfrRead, ha, Nat.one_ne_zero, if_false, Nat.ne_of_lt hpos, dfrTake, hn, hslice]

/-- After the terminator there is no byte to take (R132, R156). -/
theorem takeByte_eof {s : State} (h : s.dfr.st = .eof) : takeByte s = .micro (raiseExc .sbTerminator s) := by
  rw [takeByte, dfrRead, h]

/-- A truncated deframer reports its cause again (R132). -/
theorem takeByte_trunc {s : State} {c : Cause} (h : s.dfr.st = .trunc c) : takeByte s = .micro (raiseExc c s) := by
  rw [takeByte, dfrRead, h]

theorem needsSub_iff {s : State} : needsSub s = true ↔ s.dfr.st = .active ∧ s.dfr.pos = s.dfr.len := by
  simp [needsSub]

/-- With bits missing a sub-block is fetched when one is due, and a byte is taken otherwise (R156). -/
theorem fetchRun_bitsMissing {s : State} (ho : s.lzd.outcnt < s.lzd.target) (hb : s.lzd.bitcnt < s.lzd.cw) :
    fetchRun s = if needsSub s = true then fetchSub s else takeByte s := by
  rw [fetchRun, if_neg (Nat.not_le.2 ho), if_neg (Nat.not_le.2 hb)]

/-- Settles O6: the loop test, the bits held, and then what the deframer's state makes of the next byte. -/
theorem runPhaseTakesCodesAndSubBlocks : Obligations.RunPhaseTakesCodesAndSubBlocks := by
  intro s b hm hq faulted truncated
  rw [step_run hm hq]
  refine ⟨fun hend => ?_, fun ho hc => ?_, fun ho hc => ?_⟩
  · rw [fetchRun, if_pos hend]; rfl
  · rw [fetchRun, if_neg (Nat.not_le.2 ho), if_pos hc]; rfl
  · rw [fetchRun_bitsMissing ho hc]
    have inactive {st : DfrSt} (hst : s.dfr.st = st) (hne : st ≠ .active) :
        ¬ needsSub s = true := fun h => hne (hst.symm.trans (needsSub_iff.1 h).1)
    refine ⟨fun ha hpos hread => ?_, fun ha hpos => ?_, fun hst => ?_, fun hst => ?_, fun hst => ?_⟩
    · rw [if_neg (fun h => Nat.ne_of_lt hpos (needsSub_iff.1 h).2), takeByte, dfrRead_buffered ha hpos hread]; rfl
    · rw [if_pos (needsSub_iff.2 ⟨ha, hpos⟩), fetchSub, dfrLength]
      refine ⟨fun hr hin => ?_, fun hf => ?_, fun hf he => ?_⟩
      · rw [inRead_ready hr.headD hin]; rfl
      · rw [inRead_failing hf]; rfl
      · rw [inRead_atEnd hf he]; rfl
    · rw [if_neg (inactive hst (by simp)), takeByte_eof hst]; rfl
    · rw [if_neg (inactive hst (by simp)), takeByte_trunc hst]; rfl
    · rw [if_neg (inactive hst (by simp)), takeByte_trunc hst]; rfl

end Sys2Proof.Machine
end

section
/-! A sub-block whose payload is cut short: what the buffer holds by then, and the fault. -/

namespace Sys2Proof.Machine

/-- `k` bytes of the payload are there and the next read finds no byte: the fault that ends the loop. -/
theorem dfrLoad_short {len : Byte} {k : Nat} {s u : State} (hk : k < len.toNat) (h : InReady k s) :
    (inRead (stored 0 (nextIn k s) s) = (.eos, u) → dfrLoad len s = .raised .sbPayload (dfrTruncPayload u)) ∧
      (inRead (stored 0 (nextIn k s) s) = (.fail, u) → dfrLoad len s = .raised .inRead (dfrTrunc .inRead u)) := by
  obtain ⟨m, hm⟩ : ∃ m, len.toNat - k = m + 1 := ⟨len.toNat - k - 1, by omega⟩
  rw [dfrLoad, dfrPayload_prefix hk h, hm, dfrPayload]
  exact ⟨fun hin => by rw [hin]; rfl, fun hin => by rw [hin]; rfl⟩

/-- The buffer after the first `k` bytes of a payload: those bytes in its first cells, the others as before. -/
theorem read_stored_nextIn {k : Nat} {s : State} (h : InReady k s) (i : Nat) :
    (i < k → Memory.read (stored 0 (nextIn k s) s).dfrbuf i = s.env.inData[s.env.inPos + i]?) ∧
      (k ≤ i → Memory.read (stored 0 (nextIn k s) s).dfrbuf i = Memory.read s.dfrbuf i) := by
  rw [read_stored, nextIn_length h]
  refine ⟨fun hi => ?_, fun hi => if_neg (by omega)⟩
  rw [if_pos (by omega), Nat.sub_zero, nextIn_getElem? hi]

/-- The read after `k` bytes of a payload uses up draw `k` and leaves those bytes stored. -/
theorem inDraw_stored {k : Nat} {s : State} (h : InReady k s) : inDraw (stored 0 (nextIn k s) s) = { s with
    env := { s.env with inPos := s.env.inPos + k, inFails := s.env.inFails.drop (k + 1) }
    dfrbuf := (stored 0 (nextIn k s) s).dfrbuf } := by
  simp [inDraw, stored, nextIn_length h, afterIn]

theorem stored_headD {k : Nat} {s : State} (h : InReady k s) :
    (stored 0 (nextIn k s) s).env.inFails.headD false = (s.env.inFails[k]?).getD false := by
  simp [stored, nextIn_length h, List.headD_eq_head?_getD, List.head?_drop]

/-- Settles O11: the payload loop gets through its first `k` bytes, and the read after them is the one that ends it. -/
theorem shortSubBlockIsTruncated : Obligations.ShortSubBlockIsTruncated := by
  intro s len k hk hdraws hpos holds faulted
  have hr : InReady k s := ⟨hdraws, hpos⟩
  have hbuf : holds (stored 0 (nextIn k s) s).dfrbuf :=
    ⟨fun i => (read_stored_nextIn hr i).1, fun i => (read_stored_nextIn hr i).2⟩
  refine ⟨fun hdraw hend => ⟨_, hbuf, ?_⟩, fun hdraw => ⟨_, hbuf, ?_⟩⟩
  · have hf : (stored 0 (nextIn k s) s).env.inFails.headD false = false := by
      rw [stored_headD hr]
      cases hd : s.env.inFails[k]? with
      | none => rfl
      | some f => simpa [hd] using hdraw
    have he : (stored 0 (nextIn k s) s).env.inData.length ≤ (stored 0 (nextIn k s) s).env.inPos := by
      simp [stored, nextIn_length hr, hend]
    show Host.Outcome.next (settle (dfrLoad len s)) = _
    rw [(dfrLoad_short hk hr).1 (inRead_atEnd hf he), inDraw_stored hr]; rfl
  · have hf : (stored 0 (nextIn k s) s).env.inFails.headD false = true := by rw [stored_headD hr, hdraw]; rfl
    show Host.Outcome.next (settle (dfrLoad len s)) = _
    rw [(dfrLoad_short hk hr).2 (inRead_failing hf), inDraw_stored hr]; rfl

end Sys2Proof.Machine
end

section
/-! A code off the flat stream: the bits held, and the bytes the deframer gives above them (R65, R156). -/

namespace Sys2Proof.Machine

/-- The code `c` was fetched from `s` with the bytes `bs`, which the deframer gave one at a time on its way to `u`. -/
structure FetchedFrom (s : State) (c : Code) (t : State) (bs : List Byte) (u : State) : Prop where
  reads : dfrReads (List.replicate bs.length 1) s = .ok (bs, false) u
  frame : t = { u with lzd := { s.lzd with bitbuf := t.lzd.bitbuf, bitcnt := t.lzd.bitcnt } }
  value : s.lzd.bitbuf + 2 ^ s.lzd.bitcnt * leValue bs = c.toNat + 2 ^ s.lzd.cw * t.lzd.bitbuf
  code_lt : c.toNat < 2 ^ s.lzd.cw
  bitcnt : t.lzd.bitcnt + s.lzd.cw = s.lzd.bitcnt + 8 * bs.length
  bitbuf_lt : t.lzd.bitbuf < 2 ^ t.lzd.bitcnt

/-- The bits of the code are held: no byte is asked for. -/
theorem fetchedFrom_held {s : State} (hcw : s.lzd.cw ≤ 12) (hn : s.lzd.cw ≤ s.lzd.bitcnt)
    (hb : s.lzd.bitbuf < 2 ^ s.lzd.bitcnt) : FetchedFrom s (codeInBuf s) (dropCode s) [] s := by
  obtain ⟨hval, hrest, hcode⟩ := dropCode_bitbuf hcw hn hb
  exact ⟨rfl, rfl, by simpa [leValue] using hval, hcode, by simp [Nat.sub_add_cancel hn], hrest⟩

theorem dfrRead_lzd {n : Nat} {s t : State} {a : DfrAns} (h : dfrRead n s = .ok a t) : t.lzd = s.lzd := by
  have hd : DfrOnly s t := by simpa [h] using dfrRead_dfrOnly n s
  rw [hd.eq]

/-- A byte is asked for and goes above the bits held; the code is fetched from there. -/
theorem FetchedFrom.push {s s' t v : State} {b : Byte} {bs : List Byte} {c : Code}
    (hread : dfrRead 1 s = .ok (.data [b]) s') (hb : s.lzd.bitbuf < 2 ^ s.lzd.bitcnt)
    (h : FetchedFrom (pushByte b s') c t bs v) : ∃ u, FetchedFrom s c t (b :: bs) u := by
  have hlzd : s'.lzd = s.lzd := dfrRead_lzd hread
  obtain ⟨hreads, hframe, hval, hcode, hcnt, hrest⟩ := h
  rw [show pushByte b s' = { s' with lzd := (pushByte b s').lzd } from rfl, dfrReads_withLzd] at hreads
  cases hu : dfrReads (List.replicate bs.length 1) s' with
  | raised x u => rw [hu] at hreads; cases hreads
  | ok r u =>
    rw [hu] at hreads
    cases hreads
    rw [← hlzd] at hb
    rw [(pushByte_bitbuf hb).1] at hval
    simp only [pushByte_lzd, hlzd] at hframe hval hcode hcnt
    refine ⟨u, ?_, hframe, ?_, hcode, ?_, hrest⟩
    · simp [List.replicate_succ, dfrReads, hread, hu]
    · rw [← hval, leValue, Nat.pow_add]; ring
    · rw [hcnt, List.length_cons]; omega

/-- Each round of the fetch but the last asks for one byte. -/
theorem lzdFetch_fetchedFrom {k : Nat} {s t : State} {c : Code} (hcw : s.lzd.cw ≤ 12)
    (hb : s.lzd.bitbuf < 2 ^ s.lzd.bitcnt) (h : lzdFetch k s = .ok (.code c) t) :
    ∃ bs u, bs.length < k ∧ FetchedFrom s c t bs u := by
  induction k generalizing s with
  | zero => cases h
  | succ k ih =>
    rw [lzdFetch] at h
    split_ifs at h with hn
    · cases h
      exact ⟨[], s, Nat.succ_pos k, fetchedFrom_held hcw hn hb⟩
    · split at h
      · rename_i b bs' s' hread
        obtain rfl : bs' = [] := by simpa using dfrRead_length hread
        have hlzd : s'.lzd = s.lzd := dfrRead_lzd hread
        obtain ⟨bs, v, hlen, hv⟩ := ih (s := pushByte b s') (by simpa [hlzd] using hcw)
          (pushByte_bitbuf (by rwa [hlzd])).2 h
        obtain ⟨u, hu⟩ := hv.push hread hb
        exact ⟨b :: bs, u, Nat.succ_lt_succ hlen, hu⟩
      all_goals cases h

/-- Settles O18: the fetch's three rounds ask for at most two bytes. -/
theorem fetchedCodeIsTheNextBits : Obligations.FetchedCodeIsTheNextBits := by
  intro s t c hcw hb h
  obtain ⟨bs, u, hlen, hreads, hframe, hval, hcode, hcnt, hrest⟩ := lzdFetch_fetchedFrom hcw hb h
  exact ⟨bs, u, Nat.le_of_lt_succ hlen, hreads, hframe, hval, hcode, hcnt, hrest⟩

end Sys2Proof.Machine
end

section
/-! The two streams: which of them `DECODE` and `ENCODE` touch, and where the cursor of `IN` goes in a step. -/

namespace Sys2Proof.Machine

/-! ### `DECODE` and `ENCODE` keep to their streams (R71, R41) -/

/-- From `s` to `t` only the cursor and the draws of `IN` changed in the environment. -/
def InOnly (s t : State) : Prop := t.env = { s.env with inPos := t.env.inPos, inFails := t.env.inFails }

theorem DfrOnly.inOnly {s t : State} (h : DfrOnly s t) : InOnly s t := congrArg State.env h.eq

theorem lzdPut_env (str : List Byte) (b : Byte) (code : Code) (s : State) : (lzdPut str b code s).env = s.env := by
  obtain ⟨-, -, hf⟩ := lzdPut_spec str b code s
  unfold DataFrame at hf
  rw [hf]

theorem InOnly.of_eq {s t : State} (h : t.env = s.env) : InOnly s t := by unfold InOnly; rw [h]

theorem exec_decode_inOnly {i : Instr} {s t : State} (hi : decodeInstr i = true) (h : exec i s = .next t) : InOnly s t := by
  cases i with
  | sbTerm | lzwClr | lzwEoi | lzwIll _ => cases h; exact .of_eq rfl
  | sbData len =>
    cases h
    have hd := (dfrLoad_dfrOnly len s).inOnly
    cases hr : dfrLoad len s <;> rw [hr] at hd <;> exact hd
  | lzwSize n | lzwSizeIll n => cases h; split <;> exact .of_eq rfl
  | lzwLit code => cases h; exact .of_eq (lzdPut_env _ _ _ s)
  | lzwRef code =>
    simp only [exec, execLzwRef] at h
    split at h <;> cases h
    exact .of_eq (lzdPut_env _ _ _ s)
  | lzwKwk code =>
    simp only [exec, execLzwKwk] at h
    split at h
    · cases h; exact .of_eq rfl
    · split at h <;> cases h
      exact .of_eq (lzdPut_env _ _ _ s)
  | _ => cases hi

/-- From `s` to `t` neither the input stream nor a file changed, and no cell of the frame buffer. -/
structure OutOnly (s t : State) : Prop where
  env : t.env = { s.env with out := t.env.out, outFails := t.env.outFails }
  fb : t.fb = s.fb
  fbLen : t.fbLen = s.fbLen

theorem SerCase.outOnly {i : Instr} {s t : State} (h : SerCase i s t) : OutOnly s t := by
  cases h with
  | ok e r he ht => rw [ht]; exact ⟨he, rfl, rfl⟩
  | fail e r he ht => rw [ht]; exact ⟨he, rfl, rfl⟩

theorem exec_cmdEncode_outOnly {s t : State} (h : exec .cmdEncode s = .next t) : OutOnly s t := by
  simp only [exec, execCmdEncode, refuseCmd_eq, adlerAll_eq] at h
  split at h
  · cases h; exact ⟨rfl, rfl, rfl⟩
  · split at h
    · cases h; exact ⟨rfl, rfl, rfl⟩
    · split at h
      · cases h
      · split_ifs at h <;> cases h <;> exact ⟨rfl, rfl, rfl⟩

/-- Settles O58: `DECODE` changes the environment in its input only, `ENCODE` in its output only. -/
theorem decodeAndEncodeKeepApart : Obligations.DecodeAndEncodeKeepApart := by
  intro s t i h
  refine ⟨fun hi => ?_, fun hi => ?_⟩
  · have henv : InOnly s t := exec_decode_inOnly hi h
    unfold InOnly at henv
    rw [henv]; exact ⟨rfl, rfl, rfl, rfl⟩
  · obtain ⟨henv, hfb, hlen⟩ : OutOnly s t := by
      rcases hi with hi | rfl
      · exact (ser_case hi h).outOnly
      · exact exec_cmdEncode_outOnly h
    rw [henv]; exact ⟨rfl, rfl, rfl, rfl, hfb, hlen⟩

/-! ### The cursor of `IN` (R61) -/

/-- The bytes of `IN` are the same, and the cursor moved forward and not past the end. -/
structure CursorForward (e e' : Env) : Prop where
  inData : e'.inData = e.inData
  le : e.inPos ≤ e'.inPos
  bound : e.inPos ≤ e.inData.length → e'.inPos ≤ e.inData.length

theorem CursorForward.of_eq {e e' : Env} (h : e' = e) : CursorForward e e' :=
  ⟨by rw [h], by rw [h], by rw [h]; exact id⟩

theorem CursorOnly.cursorForward {s t : State} (h : CursorOnly s t) : CursorForward s.env t.env :=
  ⟨h.inData, h.le, h.bound⟩

theorem DfrOnly.cursorForward {s t : State} (h : DfrOnly s t) : CursorForward s.env t.env := ⟨h.inData, h.le, h.bound⟩

theorem CmdCase.env_eq {s t : State} (h : CmdCase s t) : t.env = s.env := by
  cases h with
  | reset e | refuse _ e | decode _ _ e | encode _ _ _ e => rw [e]; rfl

theorem BusCase.cursorForward {s t : State} {a : HostAct} (h : BusCase s t a) : CursorForward s.env t.env := by
  cases h with
  | cmd v _ hx => exact .of_eq (cmd_case hx).1.env_eq
  | regs w h' tr n p _ e => rw [e]; exact .of_eq rfl
  | other e hle hbound => exact ⟨by rw [e], hle, hbound⟩

theorem SizeCase.cursorForward {s t : State} (h : SizeCase s t) : CursorForward s.env t.env := by
  cases h with
  | raise c u hd e => rw [e]; exact hd.cursorForward
  | start b u hd _ e => rw [e]; exact hd.cursorForward

theorem RunCase.cursorForward {s t : State} (h : RunCase s t) : CursorForward s.env t.env := by
  cases h with
  | finish _ e | bad _ e => rw [e]; exact .of_eq rfl
  | raise c u hd _ e => rw [e]; exact hd.cursorForward
  | dfr hd _ => exact hd.cursorForward
  | push b u _ hd _ e => rw [e]; exact hd.cursorForward
  | clr _ hx => cases hx; exact .of_eq rfl
  | put str b code _ _ _ e => rw [e]; exact .of_eq (lzdPut_env str b code (dropCode s))

theorem OutOnly.cursorForward {s t : State} (h : OutOnly s t) : CursorForward s.env t.env :=
  ⟨by rw [h.env], by rw [h.env], by rw [h.env]; exact id⟩

theorem MoveCase.cursorForward {s t : State} (h : MoveCase s t) : CursorForward s.env t.env := by
  cases h with
  | yard e => rw [e]; exact .of_eq rfl
  | bus a rest _ _ hx => exact (bus_case hx).cursorForward
  | gif _ hf => exact ⟨hf.inData, hf.le, hf.bound⟩
  | size _ hx => exact (size_case hx).cursorForward
  | run _ hx => exact (run_case hx).cursorForward
  | ser i hi _ hx => exact (ser_case hi hx).outOnly.cursorForward

/-- Settles O59: a reset leaves the environment alone, and so does the count of the pin beside the agents' move. -/
theorem cursorMovesForward : Obligations.CursorMovesForward := by
  intro s t h
  obtain ⟨hdata, hle, hbound⟩ : CursorForward s.env t.env := by
    cases step_case h with
    | strike rest _ e => rw [e]; exact .of_eq rfl
    | move p u hm e => rw [e]; exact hm.cursorForward
  exact ⟨hdata, hle, by rw [hdata]; exact hbound⟩

end Sys2Proof.Machine
end

section
/-! The encodings: what each decoder answers is well-formed and of its format, and the words of a well-formed instruction decode
to it. One part for each format of spec/30_encoding.md. -/

namespace Sys2Proof

/-! ### What a decoder's answer has to be (R90, R116) -/

/-- The instruction belongs to format `f` and meets the constraint of its row. -/
structure OfFormat (f : Format) (c : LzwCtx) (i : Instr) : Prop where
  wf : i.wf c = true
  format : formatOf i = f

/-- `rest` is what is left of `bytes` after a non-empty beginning. -/
def LeftOver (bytes rest : List Byte) : Prop := ∃ used, used ≠ [] ∧ bytes = used ++ rest

theorem leftOver_cons (b : Byte) (rest : List Byte) : LeftOver (b :: rest) rest := ⟨[b], by simp, rfl⟩

theorem leftOver_drop {bytes : List Byte} {n : Nat} (hn : 0 < n) (hb : 0 < bytes.length) : LeftOver bytes (bytes.drop n) :=
  ⟨bytes.take n, by rw [← List.length_pos_iff, List.length_take]; omega, (List.take_append_drop n bytes).symm⟩

/-! ### One-byte formats: `SB`, `LZWN`, `CMD`, `DBLK`, `GTAG`, `GEXT` (R91, R94, R98, R107, R112) -/

theorem decodeSb_ofFormat (c : LzwCtx) (b : Byte) : OfFormat .sb c (decodeSb b) := by
  unfold decodeSb
  split
  · exact ⟨rfl, rfl⟩
  · exact ⟨by simpa [Instr.wf], rfl⟩

theorem decodeLzwn_ofFormat (c : LzwCtx) (b : Byte) : OfFormat .lzwn c (decodeLzwn b) := by
  unfold decodeLzwn
  split
  · exact ⟨by simpa [Instr.wf], rfl⟩
  · exact ⟨by simp only [Instr.wf, Bool.or_eq_true, decide_eq_true_eq]; omega, rfl⟩

theorem decodeCmd_ofFormat (c : LzwCtx) (b : Byte) : OfFormat .cmd c (decodeCmd b) := by
  unfold decodeCmd
  split_ifs
  · exact ⟨rfl, rfl⟩
  · exact ⟨rfl, rfl⟩
  · exact ⟨rfl, rfl⟩
  · exact ⟨by simp only [Instr.wf, Bool.or_eq_true, beq_iff_eq, decide_eq_true_eq]; bv_omega, rfl⟩

theorem decodeDblk_ofFormat (c : LzwCtx) (n : Nat) : OfFormat .dblk c (decodeDblk n) := by
  unfold decodeDblk
  dsimp only
  split <;> exact ⟨rfl, rfl⟩

theorem decodeTag_ofFormat (c : LzwCtx) (b : Byte) : OfFormat .gtag c (decodeTag b) := by
  unfold decodeTag
  split_ifs
  · exact ⟨rfl, rfl⟩
  · exact ⟨rfl, rfl⟩
  · exact ⟨rfl, rfl⟩
  · exact ⟨by simp_all [Instr.wf], rfl⟩

theorem decodeExt_ofFormat (c : LzwCtx) (b : Byte) : OfFormat .gext c (decodeExt b) := by
  unfold decodeExt
  split_ifs
  · exact ⟨rfl, rfl⟩
  · exact ⟨rfl, rfl⟩
  · exact ⟨rfl, rfl⟩
  · exact ⟨rfl, rfl⟩
  · exact ⟨by simp_all [Instr.wf], rfl⟩

theorem decodeSb_sbData {c : LzwCtx} {b : Byte} (h : (Instr.sbData b).wf c = true) : decodeSb b = .sbData b :=
  if_neg (by simpa [Instr.wf] using h)

theorem decodeLzwn_lzwSize {c : LzwCtx} {b : Byte} (h : (Instr.lzwSize b).wf c = true) : decodeLzwn b = .lzwSize b :=
  if_pos (by simpa [Instr.wf] using h)

theorem decodeLzwn_lzwSizeIll {c : LzwCtx} {b : Byte} (h : (Instr.lzwSizeIll b).wf c = true) :
    decodeLzwn b = .lzwSizeIll b :=
  if_neg (by simp only [Instr.wf, Bool.or_eq_true, decide_eq_true_eq] at h; omega)

theorem decodeCmd_cmdRsvd {c : LzwCtx} {b : Byte} (h : (Instr.cmdRsvd b).wf c = true) : decodeCmd b = .cmdRsvd b := by
  simp only [Instr.wf, Bool.or_eq_true, beq_iff_eq, decide_eq_true_eq] at h
  rw [decodeCmd, if_neg (by bv_omega), if_neg (by bv_omega), if_neg (by bv_omega)]

theorem decodeTag_gifBadtag {c : LzwCtx} {b : Byte} (h : (Instr.gifBadtag b).wf c = true) : decodeTag b = .gifBadtag b := by
  obtain ⟨htrailer, hext, himg⟩ : b ≠ 0x3B ∧ b ≠ 0x21 ∧ b ≠ 0x2C := by simpa [Instr.wf] using h
  rw [decodeTag, if_neg htrailer, if_neg hext, if_neg himg]

theorem decodeExt_extBad {c : LzwCtx} {b : Byte} (h : (Instr.extBad b).wf c = true) : decodeExt b = .extBad b := by
  obtain ⟨hgce, hpte, happ, hcom⟩ : b ≠ 0xF9 ∧ b ≠ 0x01 ∧ b ≠ 0xFF ∧ b ≠ 0xFE := by simpa [Instr.wf] using h
  rw [decodeExt, if_neg hgce, if_neg hpte, if_neg happ, if_neg hcom]

/-! ### Format `ZHDR` (R106, R232) -/

theorem decodeZhdr_answer {c : LzwCtx} {cmf flg : Byte} {bytes rest : List Byte} {i : Instr}
    (h : (decodeZhdr cmf flg).map (fun j => (j, bytes)) = .ok (i, rest)) :
    OfFormat .zhdr c i ∧ LeftOver (cmf :: flg :: bytes) rest := by
  unfold decodeZhdr at h
  split at h <;> cases h
  exact ⟨⟨‹_›, rfl⟩, leftOver_drop (n := 2) (by omega) (by simp)⟩

theorem decodeZhdr_zlibHdr {c : LzwCtx} {cmf flg : Byte} (h : (Instr.zlibHdr cmf flg).wf c = true) :
    decodeZhdr cmf flg = .ok (.zlibHdr cmf flg) :=
  if_pos h

/-! ### Format `LZWC`: the class of a code, and its bits (R95, R96) -/

/-- The relations between legal registers, as numbers (R32, R164 (d)). -/
structure LegalRegs (c : LzwCtx) : Prop where
  eoi_eq : c.eoi = c.clear + 1
  entries : c.clear + 2 ≤ c.next
  cw_le : c.cw ≤ 12
  eoi_fits : c.clear + 2 ≤ 2 ^ c.cw
  next_le : c.next ≤ 2 ^ c.cw
  next_lt : c.next < 4096 → c.next < 2 ^ c.cw

theorem LegalRegs.of_ok {c : LzwCtx} (h : c.ok = true) : LegalRegs c := by
  simp only [LzwCtx.ok, Bool.and_eq_true, Bool.or_eq_true, decide_eq_true_eq, beq_iff_eq, List.contains_iff_mem] at h
  obtain ⟨⟨⟨⟨⟨hclear, heoi⟩, hroom⟩, hcw⟩, hentries⟩, hnext⟩ := h
  have htwo : 2 ≤ c.clear := by simp only [List.mem_cons, List.not_mem_nil, or_false] at hclear; omega
  have hle : c.next ≤ 2 ^ c.cw := by
    rcases hnext with hlt | ⟨h12, h4096⟩
    · exact hlt.le
    · rw [h12, h4096]; decide
  exact ⟨heoi, hentries, hcw, by omega, hle, by omega⟩

/-- A code has at most 12 bits (R6). -/
theorem LegalRegs.pow_le {c : LzwCtx} (h : LegalRegs c) : 2 ^ c.cw ≤ 4096 :=
  Nat.pow_le_pow_right (n := 2) (by omega) h.cw_le

/-- A code below `1 << cw` is classified as a code of a row whose constraint it meets (R95, R116). -/
theorem decodeLzwc_ofFormat {c : LzwCtx} (hc : c.ok = true) {x : Code} (hx : x.toNat < 2 ^ c.cw) :
    OfFormat .lzwc c (decodeLzwc c x) := by
  have heoi := (LegalRegs.of_ok hc).eoi_eq
  unfold decodeLzwc
  split_ifs with h1 h2 h3 h4 h5
  · exact ⟨rfl, rfl⟩
  · exact ⟨rfl, rfl⟩
  · exact ⟨decide_eq_true h3, rfl⟩
  · exact ⟨by simp only [Instr.wf, Bool.and_eq_true, decide_eq_true_eq]; omega, rfl⟩
  · exact ⟨by simpa [Instr.wf, and_assoc] using h5, rfl⟩
  · refine ⟨?_, rfl⟩
    simp only [Instr.wf, Bool.and_eq_true, Bool.or_eq_true, Bool.not_eq_true', Bool.and_eq_false_iff, decide_eq_true_eq,
      decide_eq_false_iff_not, beq_iff_eq]
    refine ⟨hx, (Nat.lt_or_eq_of_le (not_lt.1 h4)).imp id fun he => ⟨he.symm, ?_⟩⟩
    rw [← Bool.not_eq_true, ← not_and_or]
    exact fun hk => h5 ⟨he.symm, hk⟩

/-- The number an instruction of format `LZWC` stands for (R95). -/
def codeValue (c : LzwCtx) : Instr → Nat
  | .lzwClr => c.clear
  | .lzwEoi => c.eoi
  | .lzwLit code | .lzwRef code | .lzwKwk code | .lzwIll code => code.toNat
  | _ => 0

theorem encode_lzwc {c : LzwCtx} {i : Instr} (hf : formatOf i = .lzwc) : encode c i = encodeCode c.cw (codeValue c i) := by
  cases i with
  | lzwClr | lzwEoi | lzwLit | lzwRef | lzwKwk | lzwIll => rfl
  | _ => cases hf

theorem codeValue_lt {c : LzwCtx} (hc : c.ok = true) {i : Instr} (hf : formatOf i = .lzwc) (hi : i.wf c = true) :
    codeValue c i < 2 ^ c.cw := by
  obtain ⟨heoi, -, -, hfits, hle, hlt⟩ := LegalRegs.of_ok hc
  cases i with
  | lzwClr | lzwEoi => simp only [codeValue]; omega
  | lzwLit code | lzwRef code | lzwIll code =>
    simp only [Instr.wf, Bool.and_eq_true, decide_eq_true_eq] at hi
    simp only [codeValue]; omega
  | lzwKwk code =>
    simp only [Instr.wf, Bool.and_eq_true, beq_iff_eq, decide_eq_true_eq] at hi
    have hn := hlt hi.2
    simp only [codeValue]; omega
  | _ => cases hf

/-- A code is classified as the row whose constraint its number meets (R95, R116). -/
theorem decodeLzwc_codeValue {c : LzwCtx} (hc : c.ok = true) {i : Instr} (hf : formatOf i = .lzwc) (hi : i.wf c = true)
    {x : Code} (hx : x.toNat = codeValue c i) : decodeLzwc c x = i := by
  obtain ⟨heoi, hentries, -, -, -, -⟩ := LegalRegs.of_ok hc
  cases i with
  | lzwClr => exact if_pos hx
  | lzwEoi =>
    simp only [codeValue] at hx
    rw [decodeLzwc, if_neg (by omega), if_pos hx]
  | lzwLit code =>
    obtain rfl : x = code := BitVec.eq_of_toNat_eq hx
    have hlt : x.toNat < c.clear := by simpa [Instr.wf] using hi
    rw [decodeLzwc, if_neg (by omega), if_neg (by omega), if_pos hlt]
  | lzwRef code =>
    obtain rfl : x = code := BitVec.eq_of_toNat_eq hx
    have hr : c.clear + 2 ≤ x.toNat ∧ x.toNat < c.next := by simpa [Instr.wf] using hi
    rw [decodeLzwc, if_neg (by omega), if_neg (by omega), if_neg (by omega), if_pos hr.2]
  | lzwKwk code =>
    obtain rfl : x = code := BitVec.eq_of_toNat_eq hx
    have hk : x.toNat = c.next ∧ c.hasPrev = true ∧ c.next < 4096 := by simpa [Instr.wf, and_assoc] using hi
    rw [decodeLzwc, if_neg (by omega), if_neg (by omega), if_neg (by omega), if_neg (by omega), if_pos hk]
  | lzwIll code =>
    obtain rfl : x = code := BitVec.eq_of_toNat_eq hx
    simp only [Instr.wf, Bool.and_eq_true, Bool.or_eq_true, Bool.not_eq_true', decide_eq_true_eq, beq_iff_eq] at hi
    obtain ⟨-, hill⟩ := hi
    have hle : c.next ≤ x.toNat := by omega
    have hk : ¬ (x.toNat = c.next ∧ c.hasPrev = true ∧ c.next < 4096) := by
      rintro ⟨he, hp, hn⟩
      simp [he, hp, hn] at hill
    rw [decodeLzwc, if_neg (by omega), if_neg (by omega), if_neg (by omega), if_neg (by omega), if_neg hk]
  | _ => cases hf

/-- A code packed alone into bytes is read back, whatever follows (R65, R96). -/
theorem decodeLzwcBytes_encodeCode {c : LzwCtx} {v : Nat} (hpow : 2 ^ c.cw ≤ 4096) (hv : v < 2 ^ c.cw) (rest : List Byte) :
    decodeLzwcBytes c (encodeCode c.cw v ++ rest) = .ok (decodeLzwc c (BitVec.ofNat 12 v), rest) := by
  by_cases h8 : c.cw ≤ 8
  · have hpow8 : 2 ^ c.cw ≤ 2 ^ 8 := Nat.pow_le_pow_right (by omega) h8
    have hval : v % 256 = v := Nat.mod_eq_of_lt (by omega)
    simp [encodeCode, decodeLzwcBytes, h8, hval, Nat.mod_eq_of_lt hv]
  · have hval : v % 256 + 256 * (v / 256 % 256) = v := by omega
    simp [encodeCode, decodeLzwcBytes, h8, hval, Nat.mod_eq_of_lt hv]

theorem decode_encode_lzwc {c : LzwCtx} (hc : c.ok = true) {i : Instr} (hf : formatOf i = .lzwc) (hi : i.wf c = true)
    (rest : List Byte) : decode (formatOf i) c (encode c i ++ rest) = .ok (i, rest) := by
  have hpow := (LegalRegs.of_ok hc).pow_le
  have hv : codeValue c i < 2 ^ c.cw := codeValue_lt hc hf hi
  have hx : (BitVec.ofNat 12 (codeValue c i)).toNat = codeValue c i := by
    rw [BitVec.toNat_ofNat, Nat.mod_eq_of_lt (by omega)]
  rw [hf, encode_lzwc hf, decode, decodeLzwcBytes_encodeCode hpow hv, decodeLzwc_codeValue hc hf hi hx]

/-- What is left of a number under the mask of a width is a code of that width (R96). -/
theorem codeBits_lt (n cw : Nat) : (BitVec.ofNat 12 (n % 2 ^ cw)).toNat < 2 ^ cw := by
  rw [BitVec.toNat_ofNat]
  exact (Nat.mod_le _ _).trans_lt (Nat.mod_lt _ (Nat.two_pow_pos cw))

theorem decodeLzwcBytes_answer {c : LzwCtx} (hc : c.ok = true) {bytes rest : List Byte} {i : Instr}
    (h : decodeLzwcBytes c bytes = .ok (i, rest)) : OfFormat .lzwc c i ∧ LeftOver bytes rest := by
  unfold decodeLzwcBytes at h
  split at h
  · cases h
  · split_ifs at h
    · cases h
      exact ⟨decodeLzwc_ofFormat hc (codeBits_lt _ _), leftOver_cons _ _⟩
    · split at h
      · cases h
      · cases h
        exact ⟨decodeLzwc_ofFormat hc (codeBits_lt _ _), leftOver_drop (n := 2) (by omega) (by simp)⟩

/-! ### Formats `SIG` and `CHUNK` (R99 to R102, R207) -/

theorem decodeSig_answer {c : LzwCtx} {bytes rest : List Byte} {i : Instr} (h : decodeSig bytes = .ok (i, rest)) :
    OfFormat .sig c i ∧ LeftOver bytes rest := by
  unfold decodeSig at h
  split_ifs at h
  cases h
  exact ⟨⟨rfl, rfl⟩, leftOver_drop (by omega) (by omega)⟩

theorem decodeChunk_answer {c : LzwCtx} {bytes rest : List Byte} {i : Instr} (h : decodeChunk bytes = .ok (i, rest)) :
    OfFormat .chunk c i ∧ LeftOver bytes rest := by
  unfold decodeChunk at h
  split at h
  · cases h
  have head : LeftOver bytes (bytes.drop 8) := leftOver_drop (by omega) (by omega)
  have whole : LeftOver bytes ((bytes.drop 8).drop 4) := by
    rw [List.drop_drop]; exact leftOver_drop (by omega) (by omega)
  dsimp only at h
  split_ifs at h <;> cases h
  · exact ⟨⟨rfl, rfl⟩, head⟩
  · exact ⟨⟨rfl, rfl⟩, head⟩
  · exact ⟨⟨rfl, rfl⟩, head⟩
  · exact ⟨⟨rfl, rfl⟩, head⟩
  · exact ⟨⟨rfl, rfl⟩, whole⟩

theorem decodeSig_sigBytes (rest : List Byte) : decodeSig (sigBytes ++ rest) = .ok (.pngSig, rest) := by
  simp [decodeSig, sigBytes]

theorem decode_encode_chunk (c : LzwCtx) {i : Instr} (hf : formatOf i = .chunk) (rest : List Byte) :
    decode (formatOf i) c (encode c i ++ rest) = .ok (i, rest) := by
  rw [hf, decode]
  cases i with
  | pngIhdr | pngPlte | pngTrns | pngIdat | pngIend =>
    simp [decodeChunk, encode, lenBe32, splitBe32, tagIHDR, tagPLTE, tagTRNS, tagIDAT, tagIEND, crcIEND]
  | _ => cases hf

/-! ### The obligations -/

/-- Settles O3: each word runs through the decoder of its format. -/
theorem wordsOfTheTablesDecode : Obligations.WordsOfTheTablesDecode :=
  ⟨rfl, rfl, rfl, rfl, rfl, rfl, rfl, rfl, rfl, rfl, rfl, rfl, rfl⟩

/-- Settles O2, decoder by decoder. -/
theorem decodedInstructionIsWellFormed : Obligations.DecodedInstructionIsWellFormed := by
  intro f c bytes rest i hc h
  suffices hs : OfFormat f c i ∧ LeftOver bytes rest from ⟨hs.1.wf, hs.1.format, hs.2⟩
  unfold decode at h
  split at h
  · cases h; exact ⟨decodeSb_ofFormat c _, leftOver_cons _ _⟩
  · cases h; exact ⟨decodeLzwn_ofFormat c _, leftOver_cons _ _⟩
  · cases h; exact ⟨decodeCmd_ofFormat c _, leftOver_cons _ _⟩
  · cases h; exact ⟨decodeDblk_ofFormat c _, leftOver_cons _ _⟩
  · cases h; exact ⟨decodeTag_ofFormat c _, leftOver_cons _ _⟩
  · cases h; exact ⟨decodeExt_ofFormat c _, leftOver_cons _ _⟩
  · exact decodeZhdr_answer h
  · exact decodeLzwcBytes_answer hc h
  · exact decodeSig_answer h
  · exact decodeChunk_answer h
  · cases h

/-- Settles O1, format by format. -/
theorem decodeOfEncodeIsTheInstruction : Obligations.DecodeOfEncodeIsTheInstruction := by
  intro c i rest hc hi
  have byte {j : Instr} (h : j = i) : (.ok (j, rest) : Except DecodeError (Instr × List Byte)) = .ok (i, rest) := by rw [h]
  cases i with
  | sbTerm | cmdReset | cmdDecode | cmdEncode | gifTrailer | gifExt | gifImg | extGce | extPte | extApp | extCom => rfl
  | sbData len => exact byte (decodeSb_sbData hi)
  | lzwSize n => exact byte (decodeLzwn_lzwSize hi)
  | lzwSizeIll n => exact byte (decodeLzwn_lzwSizeIll hi)
  | cmdRsvd v => exact byte (decodeCmd_cmdRsvd hi)
  | gifBadtag t => exact byte (decodeTag_gifBadtag hi)
  | extBad k => exact byte (decodeExt_extBad hi)
  | deflStored b | deflFixed b | deflDyn b | deflRsvd b => cases b <;> rfl
  | zlibHdr cmf flg => exact congrArg (Except.map fun j => (j, rest)) (decodeZhdr_zlibHdr hi)
  | lzwClr | lzwEoi | lzwLit code | lzwRef code | lzwKwk code | lzwIll code => exact decode_encode_lzwc hc rfl hi rest
  | pngSig => exact decodeSig_sigBytes rest
  | pngIhdr | pngPlte | pngTrns | pngIdat | pngIend => exact decode_encode_chunk c rfl rest

end Sys2Proof
end

section
/-! `ENCODE`, phase by phase: with no write failing a phase appends its part of the file, and the parts are the bytes of the
format. -/

namespace Sys2Proof.Machine

/-! ### A part is written whole when no write fails (R193) -/

theorem outWriteAll_ready {s : State} (h : OutReady s) (bs : List Byte) : outWriteAll bs s = .ok () (wrote bs bs.length s) := by
  rcases outWriteAll_cases bs s with ⟨-, hok⟩ | ⟨j, -, hfail, -⟩
  · exact hok
  · exact absurd h hfail.not_ready

theorem serChunk_ready {s : State} (h : OutReady s) (tag payload : List Byte) :
    serChunk tag payload s = .ok () (withCrc ((tag ++ payload).foldl crcByte 0xFFFFFFFF)
      (wrote (chunkBytes tag payload) (chunkBytes tag payload).length s)) := by
  rcases serChunk_cases tag payload s with ⟨-, hok⟩ | ⟨j, c, -, hfail, -⟩
  · exact hok
  · exact absurd h hfail.not_ready

/-- The end of phase `i`: `part` appended to `OUT`, `r` in the serializer's working registers, the next phase entered, and `DONE`
set after the trailer (R190, R275). -/
def partWritten (i : Instr) (part : List Byte) (r : Ser) (s : State) : State :=
  { wrote part part.length s with
    ser := r
    seq := serAfter s i
    status := if i = .pngIend then { s.status with done := true } else s.status }

theorem settleAt_serChunk {s : State} (h : OutReady s) (q : Seq) (tag payload : List Byte) :
    ∃ r, settleAt q (serChunk tag payload s) =
      { wrote (chunkBytes tag payload) (chunkBytes tag payload).length s with ser := r, seq := q } :=
  ⟨_, by rw [serChunk_ready h]; rfl⟩

theorem exec_writes_part {s : State} {i : Instr} {part : List Byte} (hi : encodeInstr i = true) (h : OutReady s)
    (hp : serPart s i = some part) : ∃ r, exec i s = .next (partWritten i part r s) := by
  have chunk (q : Seq) (tag payload : List Byte) := settleAt_serChunk h q tag payload
  cases i with
  | pngSig =>
    cases hp
    exact ⟨s.ser, by rw [exec, execPngSig, outWriteAll_ready h]; rfl⟩
  | pngIhdr =>
    cases hp
    obtain ⟨r, hr⟩ := chunk .serPlte tagIHDR (ihdrPayload s)
    exact ⟨r, congrArg _ hr⟩
  | pngPlte =>
    obtain ⟨p, hpal, rfl⟩ := Option.map_eq_some_iff.1 hp
    obtain ⟨r, hr⟩ := chunk (afterPlte s) tagPLTE p
    exact ⟨r, by rw [exec, execPngPlte, hpal]; exact congrArg _ hr⟩
  | pngTrns =>
    cases ht : trnsPresent s with
    | true =>
      obtain ⟨r, hr⟩ := chunk .serIdat tagTRNS (trnsPayload s.trns.toNat)
      simp only [serPart, ht, if_true, Option.some.injEq] at hp
      exact ⟨r, by rw [exec, execPngTrns, if_pos ht, hr, ← hp]; rfl⟩
    | false =>
      simp only [serPart, ht, Option.some.injEq] at hp
      exact ⟨s.ser, by simp [exec, execPngTrns, ht, ← hp, partWritten, wrote, serAfter]⟩
  | pngIdat =>
    obtain ⟨raw, hraw, rfl⟩ := Option.map_eq_some_iff.1 hp
    obtain ⟨r, hr⟩ := chunk .serIend tagIDAT (zCompress s.cfg.compressor raw)
    exact ⟨r, by rw [exec, execPngIdat, hraw]; exact congrArg _ hr⟩
  | pngIend =>
    cases hp
    exact ⟨_, by rw [exec, execPngIend, serChunk_ready h]; rfl⟩
  | _ => cases hi

/-! ### The parts are the bytes of the format (R99 to R102, R204, R207) -/

theorem serPart_pngIhdr (s : State) : serPart s .pngIhdr = some (chunkBytes tagIHDR
    [0x00, 0x00, s.width.extractLsb' 8 8, s.width.extractLsb' 0 8, 0x00, 0x00, s.height.extractLsb' 8 8, s.height.extractLsb' 0 8,
      0x08, 0x03, 0x00, 0x00, 0x00]) := by
  rw [serPart, ihdrPayload, splitBe32_dimension, splitBe32_dimension]
  rfl

theorem serPart_pngTrns_present {s : State} (h : 0 ≤ s.trns.toInt) :
    serPart s .pngTrns = some (chunkBytes tagTRNS (trnsPayload s.trns.toInt.toNat)) := by
  have ht : s.trns.toInt.toNat = s.trns.toNat := by
    rw [BitVec.toInt_eq_toNat_cond] at h ⊢
    split at h <;> omega
  rw [serPart, trnsPresent, if_pos (decide_eq_true h), ht]

theorem serPart_pngTrns_absent {s : State} (h : s.trns.toInt < 0) : serPart s .pngTrns = some [] := by
  rw [serPart, trnsPresent, if_neg (by simpa using h)]

theorem crc32_tagIEND : crc32 tagIEND = 0xAE426082 := by
  simp [crc32, tagIEND, crcByte, crcBits, crcBit]

/-- The trailer chunk is the same in every file (R207). -/
theorem chunkBytes_IEND : chunkBytes tagIEND [] =
    [0x00, 0x00, 0x00, 0x00, 0x49, 0x45, 0x4E, 0x44, 0xAE, 0x42, 0x60, 0x82] := by
  simp only [chunkBytes, List.append_nil, crc32_tagIEND]
  rfl

/-- Settles O31: the phases write their parts whole, and each part is spelled out. -/
theorem eachPhaseWritesItsPart : Obligations.EachPhaseWritesItsPart := by
  intro s
  refine ⟨fun i part hi hr hp => ?_, rfl, serPart_pngIhdr s, fun p hp => congrArg (Option.map _) hp, serPart_pngTrns_present,
    serPart_pngTrns_absent, fun raw hraw => congrArg (Option.map _) hraw, congrArg some chunkBytes_IEND⟩
  obtain ⟨r, hx⟩ := exec_writes_part hi hr hp
  exact ⟨_, hx, rfl⟩

end Sys2Proof.Machine
end

section
/-! The deframer on well-formed sub-blocks: a payload that is there is fetched whole, and read requests deliver the flat stream. -/

namespace Sys2Proof.Machine

/-- Cells that hold the bytes `vs` in order are read as `vs`: the converse of `Memory.readList_spec`. -/
theorem Memory.readList_of_read {α : Type} {m : Memory α} {a : Nat} {vs : List α}
    (h : ∀ k, k < vs.length → Memory.read m (a + k) = vs[k]?) : Memory.readList m a vs.length = some vs := by
  obtain ⟨ws, hws⟩ := Memory.readList_isSome (m := m) (n := vs.length) (a := a)
    (fun k hk => by rw [h k hk, List.getElem?_eq_getElem hk]; rfl)
  obtain ⟨hlen, hread⟩ := Memory.readList_spec hws
  have hw : ws = vs := List.ext_getElem? fun k => by
    rcases Nat.lt_or_ge k vs.length with hk | hk
    · rw [← hread k hk, h k hk]
    · rw [List.getElem?_eq_none hk, List.getElem?_eq_none (by omega)]
  rw [hws, hw]

/-! ### `DFR.FILL` (R133, R134) -/

/-- A payload that is there goes into the buffer whole. -/
theorem dfrLoad_ready {len : Byte} {s : State} (h : InReady len.toNat s) : dfrLoad len s =
    .ok () { stored 0 (nextIn len.toNat s) s with dfr := { s.dfr with len := len.toNat, pos := 0 } } := by
  rw [dfrLoad, dfrPayload_ready h]; rfl

/-- Settles O10: SB.TERM by its definition, SB.DATA by the payload loop on the bytes that are there. -/
theorem subBlockTokensTakeTheirEffect : Obligations.SubBlockTokensTakeTheirEffect := by
  intro s len
  refine ⟨rfl, fun h => ⟨(stored 0 (nextIn len.toNat s) s).dfrbuf, ?_, fun i => (read_stored_nextIn h i).1,
    fun i => (read_stored_nextIn h i).2⟩⟩
  show Host.Outcome.next (settle (dfrLoad len s)) = _
  rw [dfrLoad_ready h, stored, nextIn_length h]; rfl

/-- The length byte of the next sub-block is there. -/
theorem dfrLength_ready {s : State} {b : Byte} {bs : List Byte} (hf : s.env.inFails = [])
    (h : s.env.inData.drop s.env.inPos = b :: bs) : dfrLength s = .ok b (afterIn 1 s) := by
  have hb : s.env.inData[s.env.inPos]? = some b := by rw [← List.head?_drop, h]; rfl
  rw [dfrLength, inRead_ready (by rw [hf]; rfl) hb]

/-! ### The part of the flat stream still to be delivered (R137) -/

/-- The deframer holds the bytes `q`, the sub-blocks `ps` follow on `IN`, no read fails, and their terminator ends at `e`. -/
structure FlatLeft (q : List Byte) (ps : List (List Byte)) (e : Nat) (s : State) : Prop where
  active : s.dfr.st = .active
  held : s.dfr.len = s.dfr.pos + q.length
  cells : ∀ k, k < q.length → Memory.read s.dfrbuf (s.dfr.pos + k) = q[k]?
  legal : payloadsOk ps = true
  noFail : s.env.inFails = []
  coming : ∃ rest, s.env.inData.drop s.env.inPos = subSeq ps ++ rest
  ends : s.env.inPos + (subSeq ps).length = e

theorem flatLeft_dfrOpen {s : State} {ps : List (List Byte)} {rest : List Byte} (hp : payloadsOk ps = true)
    (hf : s.env.inFails = []) (h : s.env.inData.drop s.env.inPos = subSeq ps ++ rest) :
    FlatLeft [] ps (s.env.inPos + (subSeq ps).length) (dfrOpen s) :=
  ⟨rfl, rfl, fun _ hk => absurd hk (Nat.not_lt_zero _), hp, hf, ⟨rest, h⟩, rfl⟩

theorem payloadsOk_cons {p : List Byte} {ps : List (List Byte)} :
    payloadsOk (p :: ps) = true ↔ (1 ≤ p.length ∧ p.length ≤ 255) ∧ payloadsOk ps = true := by
  simp [payloadsOk]

section

variable {q : List Byte} {ps : List (List Byte)} {e : Nat} {s : State}

/-- A request that finds bytes held takes the first `n` of them (R132, R139). -/
theorem FlatLeft.take (h : FlatLeft q ps e s) (n : Nat) :
    ∃ t, dfrTake n s = .ok (.data (q.take n)) t ∧ FlatLeft (q.drop n) ps e t := by
  obtain ⟨hact, hheld, hcells, hlegal, hfail, hcoming, hends⟩ := h
  have hn : min n (s.dfr.len - s.dfr.pos) = (q.take n).length := by rw [List.length_take, hheld]; omega
  have hslice : dfrSlice s s.dfr.pos (q.take n).length = some (q.take n) := by
    rw [dfrSlice, if_pos (by rw [List.length_take]; omega)]
    refine Memory.readList_of_read fun k hk => ?_
    rw [List.length_take] at hk
    rw [hcells k (by omega), List.getElem?_take_of_lt (by omega)]
  refine ⟨{ s with dfr := { s.dfr with pos := s.dfr.pos + (q.take n).length } }, by simp only [dfrTake, hn, hslice],
    hact, ?_, fun k hk => ?_, hlegal, hfail, hcoming, hends⟩
  · show s.dfr.len = s.dfr.pos + (q.take n).length + (q.drop n).length
    rw [hheld, Nat.add_assoc, ← List.length_append, List.take_append_drop]
  · rw [List.length_drop] at hk
    show Memory.read s.dfrbuf (s.dfr.pos + (q.take n).length + k) = (q.drop n)[k]?
    rw [List.length_take, Nat.min_eq_left (by omega), Nat.add_assoc, hcells (n + k) (by omega), List.getElem?_drop]

/-- With a sub-block to come, `DFR.FILL` answers `DATA` and holds its payload (R133). -/
theorem FlatLeft.fill {p : List Byte} (h : FlatLeft [] (p :: ps) e s) :
    ∃ t, dfrFill s = .ok true t ∧ FlatLeft p ps e t := by
  obtain ⟨hact, -, -, hlegal, hfail, ⟨rest, hcoming⟩, hends⟩ := h
  obtain ⟨⟨hpos, hmax⟩, hlegal⟩ := payloadsOk_cons.1 hlegal
  have hlen : (BitVec.ofNat 8 p.length).toNat = p.length := by rw [BitVec.toNat_ofNat]; omega
  have hne : BitVec.ofNat 8 p.length ≠ 0 := fun h0 => by rw [h0] at hlen; simp at hlen; omega
  have hpay : (afterIn 1 s).env.inData.drop (afterIn 1 s).env.inPos = p ++ (subSeq ps ++ rest) := by
    rw [← List.append_assoc]
    exact afterIn_drop (bs := [BitVec.ofNat 8 p.length]) hcoming
  have hready : InReady p.length (afterIn 1 s) :=
    inReady_of_drop (by simp [hfail]) hpay (List.ne_nil_of_length_pos hpos)
  refine ⟨{ stored 0 p (afterIn 1 s) with dfr := { s.dfr with len := p.length, pos := 0 } }, ?_, hact, (Nat.zero_add _).symm,
    fun k hk => ?_, hlegal, ?_, ⟨rest, afterIn_drop hpay⟩, ?_⟩
  · rw [dfrFill, dfrLength_ready hfail hcoming, Res.bind_ok, if_neg hne, dfrLoad_ready (by rwa [hlen]), hlen,
      nextIn_of_drop hpay]
    rfl
  · show Memory.read (stored 0 p (afterIn 1 s)).dfrbuf (0 + k) = p[k]?
    rw [read_stored, Nat.zero_add, Nat.zero_add, if_pos ⟨Nat.zero_le _, hk⟩, Nat.sub_zero]
  · show (s.env.inFails.drop 1).drop p.length = []
    simp [hfail]
  · rw [← hends]
    show s.env.inPos + 1 + p.length + (subSeq ps).length = _
    simp only [subSeq, List.length_cons, List.length_append]
    omega

/-- With only the terminator to come, `DFR.FILL` answers `EOF` and the cursor passes it (R134). -/
theorem FlatLeft.fill_term (h : FlatLeft [] [] e s) : ∃ t, dfrFill s = .ok false t ∧ t.env.inPos = e := by
  obtain ⟨rest, hcoming⟩ := h.coming
  refine ⟨dfrTerm (afterIn 1 s), ?_, h.ends⟩
  rw [dfrFill, dfrLength_ready h.noFail hcoming, Res.bind_ok, if_pos rfl]

/-- A non-empty request delivers the next bytes of the flat stream, at least one; with none left it answers `EOF`, and the cursor is
just after the terminator (R132). -/
theorem FlatLeft.read (h : FlatLeft q ps e s) {n : Nat} (hn : 0 < n) :
    (∃ bs q' ps' t, dfrRead n s = .ok (.data bs) t ∧ bs ≠ [] ∧ q ++ ps.flatten = bs ++ (q' ++ ps'.flatten) ∧
      FlatLeft q' ps' e t) ∨
    (q ++ ps.flatten = [] ∧ ∃ t, dfrRead n s = .ok .eof t ∧ t.env.inPos = e) := by
  have hstart : dfrRead n s = if s.dfr.pos = s.dfr.len then
      Res.bind (dfrFill s) (fun got s' => if got then dfrTake n s' else .ok .eof s') else dfrTake n s := by
    simp only [dfrRead, h.active, if_neg (Nat.ne_of_gt hn)]
  have htake_ne {r : List Byte} (hr : r ≠ []) : r.take n ≠ [] := by simp [hr, Nat.ne_of_gt hn]
  have hsplit (r : List Byte) (rs : List (List Byte)) :
      r ++ rs.flatten = r.take n ++ (r.drop n ++ rs.flatten) := by
    rw [← List.append_assoc, List.take_append_drop]
  have hheld := h.held
  cases q with
  | cons b q =>
    obtain ⟨t, htake, ht⟩ := h.take n
    rw [if_neg (by rw [hheld, List.length_cons]; omega)] at hstart
    exact .inl ⟨_, _, ps, t, hstart.trans htake, htake_ne (List.cons_ne_nil b q), hsplit _ ps, ht⟩
  | nil =>
    rw [if_pos (by rw [hheld]; rfl)] at hstart
    cases ps with
    | nil =>
      obtain ⟨t, hfill, ht⟩ := h.fill_term
      exact .inr ⟨rfl, t, by rw [hstart, hfill]; rfl, ht⟩
    | cons p ps =>
      obtain ⟨u, hfill, hu⟩ := h.fill
      obtain ⟨t, htake, ht⟩ := hu.take n
      have hp : p ≠ [] := List.ne_nil_of_length_pos (payloadsOk_cons.1 h.legal).1.1
      exact .inl ⟨_, _, ps, t, by rw [hstart, hfill]; exact htake, htake_ne hp, hsplit p ps, ht⟩

/-- A request answers `EOF` exactly when nothing of the flat stream is left. -/
theorem FlatLeft.read_eof_iff (h : FlatLeft q ps e s) {n : Nat} (hn : 0 < n) :
    (∃ t, dfrRead n s = .ok .eof t) ↔ q ++ ps.flatten = [] := by
  rcases h.read hn with ⟨bs, q', ps', t, hread, hne, hflat, -⟩ | ⟨hflat, t, hread, -⟩
  · rw [hread, hflat]
    exact ⟨fun ⟨_, ht⟩ => (nomatch ht), fun h0 => absurd (List.append_eq_nil_iff.1 h0).1 hne⟩
  · exact ⟨fun _ => hflat, fun _ => ⟨t, hread⟩⟩

/-- A series of non-empty requests either ends with `EOF` after the whole of what was left, or leaves the rest of it. -/
theorem FlatLeft.reads (h : FlatLeft q ps e s) {ns : List Nat} (hns : ∀ n ∈ ns, 0 < n) :
    (∃ t, dfrReads ns s = .ok (q ++ ps.flatten, true) t ∧ t.env.inPos = e) ∨
    (∃ bs q' ps' t, dfrReads ns s = .ok (bs, false) t ∧ ns.length ≤ bs.length ∧
      q ++ ps.flatten = bs ++ (q' ++ ps'.flatten) ∧ FlatLeft q' ps' e t) := by
  induction ns generalizing q ps s with
  | nil => exact .inr ⟨[], q, ps, s, rfl, Nat.le_refl _, rfl, h⟩
  | cons n ns ih =>
    obtain ⟨hn, hns⟩ := List.forall_mem_cons.1 hns
    rcases h.read hn with ⟨bs, q', ps', u, hread, hne, hflat, hu⟩ | ⟨hflat, t, hread, ht⟩
    · have hpos : 0 < bs.length := List.length_pos_iff.2 hne
      rcases ih hu hns with ⟨t, hreads, ht⟩ | ⟨cs, q'', ps'', t, hreads, hlen, hflat', ht⟩
      · refine .inl ⟨t, ?_, ht⟩
        rw [dfrReads, hread, hflat]
        simp only [hreads, Res.bind_ok]
      · refine .inr ⟨bs ++ cs, q'', ps'', t, ?_, ?_, ?_, ht⟩
        · rw [dfrReads, hread]
          simp only [hreads, Res.bind_ok]
        · rw [List.length_cons, List.length_append]; omega
        · rw [hflat, hflat', List.append_assoc]
    · exact .inl ⟨t, by rw [dfrReads, hread, hflat], ht⟩

end

/-- Settles O12: after `DFR.OPEN` all of the flat stream is left, and each request takes the next bytes of it. -/
theorem readsDeliverTheFlatStream : Obligations.ReadsDeliverTheFlatStream := by
  intro s ps rest ns hp hf hin hns
  have hopen := flatLeft_dfrOpen hp hf hin
  rcases hopen.reads hns with ⟨t, hreads, ht⟩ | ⟨bs, q, qs, t, hreads, hlen, hflat, ht⟩
  · exact ⟨_, true, t, hreads, List.prefix_rfl, fun _ => ⟨rfl, ht⟩, nofun⟩
  · rw [List.nil_append] at hflat
    refine ⟨bs, false, t, hreads, ⟨_, hflat.symm⟩, nofun, fun _ => ⟨hlen, fun n hn => ?_⟩⟩
    rw [ht.read_eof_iff hn, hflat, List.self_eq_append_right]

end Sys2Proof.Machine
end

section
/-! The decompressor's tokens: what starting a run, the control codes and the data codes do, and the strings of the data codes. -/

namespace Sys2Proof.Machine

/-! ### Starting a run, and the codes that emit nothing (R153, R157, R162, R163) -/

theorem codeSizeLegal_iff {n : Byte} : codeSizeLegal n = true ↔ 2 ≤ n.toNat ∧ n.toNat ≤ 8 := by
  simp [codeSizeLegal]

theorem exec_lzwSize_legal {n : Byte} (h : 2 ≤ n.toNat ∧ n.toNat ≤ 8) (s : State) :
    exec (.lzwSize n) s = .next (lzdStart n s) := by
  rw [exec, execLzwSize, if_pos (codeSizeLegal_iff.2 h)]

theorem exec_lzwSizeIll_illegal {n : Byte} (h : n.toNat < 2 ∨ 8 < n.toNat) (s : State) :
    exec (.lzwSizeIll n) s = .next (raiseExc .lzwCodeSize { s with fbLen := 0 }) := by
  rw [exec, execLzwSizeIll, if_neg (fun hl => by have := codeSizeLegal_iff.1 hl; omega)]

/-- Settles O13: the registers of the start, whose powers of two the spec writes as shifts, and the fault. -/
theorem codeSizeSetsUpTheRun : Obligations.CodeSizeSetsUpTheRun := by
  intro s n
  refine ⟨fun hmin hmax => ?_, fun hill => ?_⟩
  · rw [exec_lzwSize_legal ⟨hmin, hmax⟩, Nat.one_shiftLeft]; rfl
  · rw [exec_lzwSizeIll_illegal hill]; rfl

/-- Settles O14: each of the three has one effect, the same in every state. -/
theorem controlAndImpossibleCodesTakeTheirEffect : Obligations.ControlAndImpossibleCodesTakeTheirEffect :=
  fun _ _ => ⟨rfl, rfl, rfl⟩

/-! ### The codes that emit a string (R159, R160, R161) -/

theorem exec_lzwRef_of_string {s : State} {code : Code} {b : Byte} {bs : List Byte} (h : strCode s code = some (b :: bs)) :
    exec (.lzwRef code) s = .next (lzdPut (b :: bs) b code s) := by
  simp only [exec, execLzwRef, h]

theorem exec_lzwKwk_of_string {s : State} {p : Code} {b : Byte} {bs : List Byte} (hp : s.lzd.prev = some p)
    (h : strCode s p = some (b :: bs)) (code : Code) :
    exec (.lzwKwk code) s = .next (lzdPut (b :: bs ++ [b]) b code s) := by
  simp only [exec, execLzwKwk, hp, h]

/-- Settles O15: the three classes emit, add and remember alike, each with its own string. -/
theorem dataCodesEmitExtendAndRemember : Obligations.DataCodesEmitExtendAndRemember := by
  intro s code
  refine ⟨fun _ => ⟨_, rfl, lzdPut_spec _ _ _ s⟩, fun b bs hstr => ?_, fun p b bs hp hstr => ?_⟩
  · exact ⟨_, exec_lzwRef_of_string hstr, lzdPut_spec _ _ _ s⟩
  · exact ⟨_, exec_lzwKwk_of_string hp hstr code, lzdPut_spec _ _ _ s⟩

/-! ### The strings of the data codes (R158) -/

theorem strCode_literal {s : State} {c : Code} (h : c.toNat < s.lzd.clear) : strCode s c = some [c.setWidth 8] := by
  rw [strCode, strAux, if_pos h]

/-- A literal fits a byte, because `clear` is at most 256. -/
theorem LzdRanges.literal_toNat {s : State} (hr : LzdRanges s) {c : Code} (h : c.toNat < s.lzd.clear) :
    (c.setWidth 8).toNat = c.toNat := by
  obtain ⟨-, hn, hclear, -⟩ := hr
  have hpow : 2 ^ s.lzd.n ≤ 2 ^ 8 := Nat.pow_le_pow_right (by omega) hn
  rw [BitVec.toNat_setWidth, Nat.mod_eq_of_lt (by omega)]

/-- The guard of a dictionary cell: an entry is there only from `clear + 2` on and below `next` (R43). -/
theorem dictCell_eq_some_iff {s : State} {a : Nat} {e : DictEntry} :
    dictCell s a = some e ↔ s.lzd.clear + 2 ≤ a ∧ a < s.lzd.next ∧ Memory.read s.dict a = some e := by
  rw [dictCell, Option.ite_none_right_eq_some, and_assoc]

/-- In a sound dictionary an entry extends the string of a smaller code (R43). -/
theorem DictSound.pre_lt {s : State} (hd : DictSound s) {a : Nat} {e : DictEntry} (h : dictCell s a = some e) :
    s.lzd.clear + 2 ≤ a ∧ e.pre.toNat < a := by
  obtain ⟨hlow, hlt, hread⟩ := dictCell_eq_some_iff.1 h
  obtain ⟨e', hread', hpre, -, -⟩ := hd a hlow hlt
  obtain rfl : e' = e := by rw [hread] at hread'; exact (Option.some.inj hread').symm
  exact ⟨hlow, hpre⟩

/-- A string has one byte more than the one it extends, whose code is smaller. -/
theorem strAux_length_le {s : State} (hd : DictSound s) {k : Nat} {c : Code} {str : List Byte}
    (h : strAux s k c = some str) : str.length ≤ max 1 (c.toNat - s.lzd.clear) := by
  induction k generalizing c str with
  | zero => cases h
  | succ k ih =>
    rw [strAux] at h
    split_ifs at h with hlit
    · cases h; exact Nat.le_max_left _ _
    · cases hcell : dictCell s c.toNat with
      | none => rw [hcell] at h; cases h
      | some e =>
        rw [hcell] at h
        obtain ⟨pre, hpre, rfl⟩ := Option.map_eq_some_iff.1 h
        obtain ⟨hlow, hlt⟩ := hd.pre_lt hcell
        have hlen := ih hpre
        rw [List.length_append, List.length_singleton]
        omega

/-- Settles O16: the string is there, a literal's is its byte, and each entry adds one byte to a smaller code's. -/
theorem everyDataCodeHasAString : Obligations.EveryDataCodeHasAString := by
  intro s c hr hd hc
  obtain ⟨b, bs, hstr⟩ := strCode_dataCode hr hd hc
  refine ⟨b, bs, hstr, fun hlit => ?_, fun hclear => ?_⟩
  · rw [strCode_literal hlit] at hstr
    cases hstr
    exact ⟨rfl, hr.literal_toNat hlit⟩
  · have hne : c.toNat ≠ s.lzd.clear := hc.2.1
    have hlen := strAux_length_le hd hstr
    omega

/-! ### The entry a code creates for itself (R161) -/

/-- A data code that adds an entry leaves the cells of the other entries as they were. -/
theorem dictCell_lzdPut {s : State} {a : Nat} {e : DictEntry} (str : List Byte) (first : Byte) (code : Code)
    (h : dictCell s a = some e) : dictCell (lzdPut str first code s) a = some e := by
  obtain ⟨hlow, hlt, hread⟩ := dictCell_eq_some_iff.1 h
  rcases lzdPut_cases str first code s with ⟨p, -, -, ht⟩ | ⟨-, ht⟩ <;> rw [ht]
  · exact dictCell_eq_some_iff.2
      ⟨hlow, Nat.lt_succ_of_lt hlt, (Memory.read_write_other _ _ (Nat.ne_of_lt hlt)).trans hread⟩
  · exact dictCell_eq_some_iff.2 ⟨hlow, hlt, hread⟩

theorem lzdPut_clear (str : List Byte) (first : Byte) (code : Code) (s : State) :
    (lzdPut str first code s).lzd.clear = s.lzd.clear := by
  rcases lzdPut_cases str first code s with ⟨p, -, -, ht⟩ | ⟨-, ht⟩ <;> rw [ht]

/-- With a previous code and room, the next free cell gets the entry of the previous code and the first byte (R164). -/
theorem dictCell_lzdPut_next {s : State} {p : Code} (hp : s.lzd.prev = some p) (hroom : s.lzd.next < 4096)
    (hlow : s.lzd.clear + 2 ≤ s.lzd.next) (str : List Byte) (first : Byte) (code : Code) :
    dictCell (lzdPut str first code s) s.lzd.next = some { pre := p, suf := first } := by
  rcases lzdPut_cases str first code s with ⟨q, hq, -, ht⟩ | ⟨hfull, -⟩
  · obtain rfl : p = q := by rw [hp] at hq; exact Option.some.inj hq
    rw [ht]
    exact dictCell_eq_some_iff.2 ⟨hlow, Nat.lt_succ_self _, Memory.read_write_same _ _ _⟩
  · rcases hfull with hnone | hfull
    · rw [hp] at hnone; cases hnone
    · omega

/-- The string of a code that is an entry is the string it extends and the entry's byte (R158). -/
theorem strCode_entry {s : State} {c : Code} {e : DictEntry} {pre : List Byte} (hcell : dictCell s c.toNat = some e)
    (hlt : e.pre.toNat < c.toNat) (hpre : strCode s e.pre = some pre) : strCode s c = some (pre ++ [e.suf]) := by
  have hlow := (dictCell_eq_some_iff.1 hcell).1
  rw [strCode, strAux, if_neg (by omega), hcell]
  simp only [strAux_mono hpre hlt, Option.map_some]

/-- Settles O17: the new entry extends the previous code, whose string the new entry leaves as it was. -/
theorem kwkNamesTheEntryItCreates : Obligations.KwkNamesTheEntryItCreates := by
  intro s t code p b bs hr hprev _ hcode hroom hp hstr hx
  rw [exec_lzwKwk_of_string hp hstr] at hx
  cases hx
  obtain ⟨-, -, -, -, -, -, hlow, -⟩ := hr
  have hlt : p.toNat < code.toNat := by
    rw [LzdPrev, hp] at hprev
    rw [hcode]; exact hprev.1
  refine strCode_entry (e := { pre := p, suf := b }) ?_ hlt ?_
  · rw [hcode]; exact dictCell_lzdPut_next hp hroom hlow _ b code
  · exact strAux_congr (lzdPut_clear _ b code s) (fun _ _ => dictCell_lzdPut _ b code) hstr

end Sys2Proof.Machine
end

section
/-! The steps of `DECODE`: the finer steps of `LZD_RUN` against the fetch as one function, and the frame of zero size. -/

namespace Sys2Proof.Machine

/-! ### Some number of steps (notes/assumptions/1.md) -/

/-- Some number of steps from `s`, at least one, ends with the outcome `o`. -/
def Leads (s : State) (o : Host.Outcome State Fault Refusal) : Prop := ∃ k, Host.Core.run Sys2Proof.core (k + 1) s = o

theorem Leads.of_step {s : State} {o : Host.Outcome State Fault Refusal} (h : step s = o) : Leads s o :=
  ⟨0, (run_one s).trans h⟩

theorem Leads.trans {s u : State} {o : Host.Outcome State Fault Refusal} (h : Leads s (.next u)) (k : Leads u o) :
    Leads s o := by
  obtain ⟨m, hm⟩ := h
  obtain ⟨n, hn⟩ := k
  exact ⟨m + 1 + n, (run_add hm (n + 1)).trans hn⟩

theorem Leads.after_step {s u : State} {o : Host.Outcome State Fault Refusal} (h : step s = .next u) (k : Leads u o) : Leads s o :=
  (Leads.of_step h).trans k

/-! ### A byte of the flat stream, in one step or in two (R132, R133, R156) -/

/-- `DECODE` is running and owes bytes, and the block moves next. -/
structure Owing (s : State) : Prop where
  moves : blockMoves s = true
  phase : s.seq = .lzdRun
  owed : s.lzd.outcnt < s.lzd.target

/-- The deframer's changes do not end the run. -/
theorem Owing.of_dfrOnly {s u : State} (h : Owing s) (hd : DfrOnly s u) : Owing u := by
  rw [hd.eq]; exact ⟨h.moves, h.phase, h.owed⟩

theorem Owing.pushByte {s : State} (h : Owing s) (b : Byte) : Owing (pushByte b s) := ⟨h.moves, h.phase, h.owed⟩

/-- With bits missing a step fetches a sub-block or takes a byte. -/
theorem Owing.step_bitsMissing {s : State} (h : Owing s) (hb : s.lzd.bitcnt < s.lzd.cw) :
    step s = runFetched (if needsSub s = true then fetchSub s else takeByte s) := by
  rw [step_run h.moves h.phase, fetchRun_bitsMissing h.owed hb]

theorem dfrLength_ok {s u : State} {len : Byte} (h : dfrLength s = .ok len u) : u = afterIn 1 s := by
  rcases dfrLength_cases s with ⟨-, e⟩ | ⟨-, -, e⟩ | ⟨b, -, -, e⟩ <;> rw [e] at h <;> cases h
  rfl

/-- A payload fetched whole is in the deframer's buffer, nothing of it read. -/
theorem dfrLoad_ok {len : Byte} {s u : State} (h : dfrLoad len s = .ok () u) :
    u.dfr = { s.dfr with len := len.toNat, pos := 0 } := by
  rcases dfrLoad_cases len s with ⟨vs, -, -, e⟩ | ⟨vs, -, -, e⟩ | ⟨vs, -, -, e⟩ <;> rw [e] at h <;> cases h
  rfl

/-- A request that finds the buffer used up fetches a sub-block first (R132). -/
theorem dfrRead_needsSub {s : State} (h : needsSub s = true) :
    dfrRead 1 s = Res.bind (dfrFill s) (fun got s' => if got then dfrTake 1 s' else .ok .eof s') := by
  obtain ⟨hact, hpos⟩ := needsSub_iff.1 h
  simp only [dfrRead, hact, hpos, Nat.one_ne_zero, if_false, if_true]

/-- A request that finds bytes in the buffer takes the first of them (R132). -/
theorem dfrRead_held {s : State} (hact : s.dfr.st = .active) (hpos : s.dfr.pos ≠ s.dfr.len) :
    dfrRead 1 s = dfrTake 1 s := by
  simp only [dfrRead, hact, Nat.one_ne_zero, if_false, hpos]

/-- Where a sub-block is due, its fetch ends the run as the whole request would, or leads to a state in which no sub-block is due
and the request answers the same (R132, R133, R134). -/
theorem fetchSub_cases {s : State} (h : needsSub s = true) :
    runFetched (fetchSub s) = runFetched (takeByte s) ∨
    ∃ u, DfrOnly s u ∧ runFetched (fetchSub s) = .next u ∧ needsSub u = false ∧ takeByte u = takeByte s := by
  have hread := dfrRead_needsSub h
  rw [dfrFill] at hread
  have hcursor := dfrLength_dfrOnly s
  rw [fetchSub]
  cases hl : dfrLength s with
  | raised c u =>
    rw [hl] at hread
    exact .inl (by rw [takeByte, hread]; rfl)
  | ok len u =>
    rw [hl] at hread hcursor
    have hact : u.dfr.st = .active := by rw [dfrLength_ok hl]; exact (needsSub_iff.1 h).1
    rw [Res.bind_ok] at hread
    by_cases hterm : len = 0
    · subst hterm
      refine .inr ⟨dfrTerm u, hcursor.trans ⟨rfl, Nat.le_refl _, id⟩, rfl, rfl, ?_⟩
      rw [takeByte_eof rfl, takeByte, hread]; rfl
    · have hpayload := dfrLoad_dfrOnly len u
      rw [if_neg hterm] at hread
      have hfetch : runFetched (.token (decodeSb len) u) = .next (settle (dfrLoad len u)) := by
        rw [decodeSb, if_neg hterm]; rfl
      cases hd : dfrLoad len u with
      | raised c v =>
        rw [hd] at hread hfetch
        exact .inl (by rw [takeByte, hread]; exact hfetch)
      | ok _ v =>
        rw [hd] at hread hfetch hpayload
        have hv := dfrLoad_ok hd
        have hne : v.dfr.pos ≠ v.dfr.len := by
          rw [hv]; exact fun h0 => hterm (BitVec.eq_of_toNat_eq h0.symm)
        refine .inr ⟨v, hcursor.trans hpayload, hfetch, ?_, ?_⟩
        · rw [← Bool.not_eq_true, needsSub_iff]; exact fun hn => hne hn.2
        · rw [takeByte, takeByte, hread, dfrRead_held (by rw [hv]; exact hact) hne]; rfl

/-- Fetching a sub-block in a step of its own and then taking the byte is the whole request of R156. -/
theorem Owing.leads_takeByte {s : State} (h : Owing s) (hb : s.lzd.bitcnt < s.lzd.cw) :
    Leads s (runFetched (takeByte s)) := by
  have take {u : State} (hu : Owing u) (hbu : u.lzd.bitcnt < u.lzd.cw) (hn : needsSub u = false) :
      step u = runFetched (takeByte u) := by rw [hu.step_bitsMissing hbu, hn]; rfl
  cases hs : needsSub s with
  | false => exact .of_step (take h hb hs)
  | true =>
    have hstep : step s = runFetched (fetchSub s) := by rw [h.step_bitsMissing hb, hs]; rfl
    rcases fetchSub_cases hs with hend | ⟨u, hd, hnext, hn, heq⟩
    · exact .of_step (hstep.trans hend)
    · have hbu : u.lzd.bitcnt < u.lzd.cw := by rw [hd.eq]; exact hb
      exact .after_step (hstep.trans hnext) (.of_step (heq ▸ take (h.of_dfrOnly hd) hbu hn))

/-! ### The whole fetch (R152, R156) -/

/-- The steps from `s` carry out what the fetch answers: its code's instruction, under the registers of `s`, or its fault. -/
def CarriesOut (s : State) : Res FetchAns → Prop
  | .ok (.code c) t => Leads s (exec (decodeLzwc (lzwCtx s) c) t)
  | .ok .noValue _ => True
  | .raised c t => Leads s (.next (raiseExc c t))

/-- Steps that leave the registers that classify a code may come before. -/
theorem CarriesOut.after {s u : State} {r : Res FetchAns} (h : Leads s (.next u)) (hctx : lzwCtx u = lzwCtx s)
    (hu : CarriesOut u r) : CarriesOut s r := by
  match r, hu with
  | .ok (.code c) t, hu => exact h.trans (by rw [← hctx]; exact hu)
  | .ok .noValue _, _ => trivial
  | .raised c t, hu => exact h.trans hu

theorem lzwCtx_pushByte {s u : State} (h : u.lzd = s.lzd) (b : Byte) : lzwCtx (pushByte b u) = lzwCtx s := by
  simp only [lzwCtx, pushByte_lzd, h]

/-- Each round of the fetch that asks for a byte is one step or two, and the last round is the step that runs the code. -/
theorem Owing.carriesOut_lzdFetch {s : State} (h : Owing s) (k : Nat) : CarriesOut s (lzdFetch k s) := by
  induction k generalizing s with
  | zero => trivial
  | succ k ih =>
    rw [lzdFetch]
    by_cases hb : s.lzd.cw ≤ s.lzd.bitcnt
    · rw [if_pos hb]
      refine Leads.of_step ?_
      rw [step_run h.moves h.phase, fetchRun, if_neg (Nat.not_le.2 h.owed), if_pos hb]; rfl
    · rw [if_neg hb]
      have hlead := h.leads_takeByte (Nat.not_le.1 hb)
      rw [takeByte] at hlead
      have hd := dfrRead_dfrOnly 1 s
      cases hr : dfrRead 1 s with
      | raised c u => rw [hr] at hlead; exact hlead
      | ok a u =>
        rw [hr] at hlead hd
        cases a with
        | eof => exact hlead
        | noValue => trivial
        | data bs =>
          cases bs with
          | nil => trivial
          | cons b bs => exact .after hlead (lzwCtx_pushByte (dfrRead_lzd hr) b) (ih ((h.of_dfrOnly hd).pushByte b))

/-- Settles O19: three rounds of the fetch, each in the steps that carry it out. -/
theorem stepsCarryOutTheFetch : Obligations.StepsCarryOutTheFetch := by
  intro s t hm hq ho
  have h := (Owing.mk hm hq ho).carriesOut_lzdFetch 3
  exact ⟨fun c hc => by rw [hc] at h; exact h, fun c hc => by rw [hc] at h; exact h⟩

/-! ### A frame of zero size (R154) -/

theorem frameSize_zero {s : State} (h : s.width = 0 ∨ s.height = 0) : frameSize s = 0 := by
  unfold frameSize
  rcases h with h | h <;> simp [h]

/-- The state after DECODE has been taken from the pending actions and accepted: the code-size byte is due. -/
def codeSizeDue (rest : List HostAct) (s : State) : State := { clearDone { s with bus := rest } with seq := .lzdSize }

/-- DECODE is accepted without a latched error when the frame fits the buffer (R270, R273). -/
theorem step_decode {s : State} {v : Word} {rest : List HostAct} (hm : blockMoves s = true) (hb : busy s = false)
    (hbus : s.bus = .wr offCmd v :: rest) (hv : v.setWidth 8 = (0x02 : Byte)) (he : s.status.err = false)
    (hcap : frameSize s ≤ fbCap s) : step s = .next (codeSizeDue rest s) := by
  have haccept : ¬ fbCap { s with bus := rest } < frameSize { s with bus := rest } := Nat.not_lt.2 hcap
  rw [writtenCommandIsRun s v rest hm hb hbus, hv]
  show exec .cmdDecode { s with bus := rest } = _
  simp only [exec, execCmdDecode, he, haccept, Bool.false_eq_true, if_false]
  rfl

/-- A run that owes nothing from its start ends in the next step (R152, R154). -/
theorem step_lzdStart_zeroSize {s : State} (hm : blockMoves s = true) (hsize : frameSize s = 0) (b : Byte) :
    step (lzdStart b s) = .next (lzdFinish (lzdStart b s)) := by
  have hend : (lzdStart b s).lzd.target ≤ (lzdStart b s).lzd.outcnt := by rw [lzdStart_lzd]; exact hsize.le
  rw [step_run (s := lzdStart b s) hm rfl, fetchRun, if_pos hend]; rfl

/-- Settles O20: the command's step, the code-size byte's, and then the loop test, which finds nothing owed. -/
theorem zeroSizeFrameReadsOneByte : Obligations.ZeroSizeFrameReadsOneByte := by
  intro s v rest b hm hq he hbus hv hzero hready hin
  have hsize : frameSize s = 0 := frameSize_zero hzero
  have hcmd : step s = .next (codeSizeDue rest s) :=
    step_decode hm (by rw [busy, hq]) hbus hv he (hsize.le.trans (Nat.zero_le _))
  have hbyte := (codeSizeByteIsRun (codeSizeDue rest s) b hm rfl).1 hready hin
  refine ⟨fun hlegal => ?_, fun hill => ?_⟩
  · rw [decodeLzwn, if_pos hlegal, exec_lzwSize_legal hlegal] at hbyte
    have hend := step_lzdStart_zeroSize (s := afterIn 1 { codeSizeDue rest s with fbLen := 0 }) hm hsize b
    obtain ⟨k, hk⟩ := Leads.after_step hcmd (.after_step hbyte (.of_step hend))
    exact ⟨k + 1, _, hk, congrArg (BitVec.ofNat 32) hsize, rfl, congrArg (Status.mk true) he, rfl, rfl⟩
  · rw [decodeLzwn, if_neg (by omega), exec_lzwSizeIll_illegal hill] at hbyte
    obtain ⟨k, hk⟩ := Leads.after_step hcmd (.of_step hbyte)
    exact ⟨k + 1, _, hk, rfl, by simp [codeSizeDue, he], rfl⟩

end Sys2Proof.Machine
end

section
/-! The phases of `ENCODE`: the payloads cell by cell, a chunk with its checksum, and what a failing write leaves. -/

namespace Sys2Proof.Machine

/-- Settles O7: the step takes the instruction of the phase it is in. -/
theorem encodePhaseRunsItsInstruction : Obligations.EncodePhaseRunsItsInstruction := fun _ _ hm hi hq => step_ser hm hi hq

/-! ### The payloads (R201, R206) -/

/-- Settles O35: the payload holds the three bytes of each cell it was made of. -/
theorem palettePayloadHoldsTheTriples : Obligations.PalettePayloadHoldsTheTriples := by
  intro s p hp
  obtain ⟨hlen, hcells⟩ := pltePayload_spec hp
  refine ⟨hlen, fun i e hi he => ?_⟩
  obtain ⟨e', he', hbytes⟩ := hcells i hi
  rw [Nat.zero_add, he] at he'
  cases he'
  exact hbytes

/-- Rows `r` to `r + n - 1` in the filtered buffer: each is a zero byte and the row's cells. -/
theorem serFiltFrom_spec {s : State} {n r : Nat} {raw : List Byte} (h : serFiltFrom s r n = some raw) :
    raw.length = n * (s.width.toNat + 1) ∧
    ∀ k, k < n → raw[k * (s.width.toNat + 1)]? = some 0x00 ∧
      ∀ c, c < s.width.toNat → raw[k * (s.width.toNat + 1) + 1 + c]? = fbCell s ((r + k) * s.width.toNat + c) := by
  induction n generalizing r raw with
  | zero => cases h; simp
  | succ n ih =>
    simp only [serFiltFrom] at h
    split at h
    · rename_i row bs hrow hbs
      obtain ⟨hrowLen, hcell⟩ := fbSlice_spec hrow
      obtain ⟨hbsLen, hrows⟩ := ih hbs
      cases h
      refine ⟨by simp only [List.length_append, List.length_cons, hrowLen, hbsLen]; ring, fun k hk => ?_⟩
      cases k with
      | zero =>
        refine ⟨by simp, fun c hc => ?_⟩
        rw [List.getElem?_append_left (by simp [hrowLen]; omega)]
        simp only [Nat.add_zero, Nat.zero_mul, Nat.zero_add, Nat.add_comm 1 c, List.getElem?_cons_succ, hcell c hc]
      | succ k =>
        obtain ⟨hzero, hbytes⟩ := hrows k (by omega)
        have later (m : Nat) : (0x00 :: row ++ bs)[(k + 1) * (s.width.toNat + 1) + m]? = bs[k * (s.width.toNat + 1) + m]? := by
          have hpos : (k + 1) * (s.width.toNat + 1) + m = (0x00 :: row).length + (k * (s.width.toNat + 1) + m) := by
            rw [List.length_cons, hrowLen]; ring
          rw [hpos, List.getElem?_append_right (Nat.le_add_right _ _), Nat.add_sub_cancel_left]
        refine ⟨(later 0).trans hzero, fun c hc => ?_⟩
        rw [Nat.add_assoc, later, ← Nat.add_assoc, hbytes c hc, Nat.add_assoc r 1 k, Nat.add_comm 1 k]
    · cases h

/-- Settles O34: all rows, from row 0 on. -/
theorem filteredBufferHoldsTheRows : Obligations.FilteredBufferHoldsTheRows := by
  intro s raw h
  simpa using serFiltFrom_spec h

/-! ### A chunk (R193) -/

/-- Settles O32: the chunk is written whole, and the running checksum has taken in tag and payload. -/
theorem chunkCarriesItsChecksum : Obligations.ChunkCarriesItsChecksum := by
  intro s tag payload hr
  refine ⟨_, serChunk_ready hr tag payload, ?_, rfl⟩
  simp [withCrc, wrote, chunkBytes, lenBe32]

/-! ### A write that fails (R208, R330) -/

/-- `op`, begun in `s`, wrote the bytes whole, or the first `j` of them and raised the fault of the failing write; nothing else but
the serializer's working registers changed. -/
def WroteOrCut (bytes : List Byte) (s : State) (op : Res Unit) : Prop :=
  (WritesOk bytes.length s ∧ ∃ r, op = .ok () { wrote bytes bytes.length s with ser := r }) ∨
  ∃ j, j < bytes.length ∧ FirstFailure j s ∧ ∃ r, op = .raised .outWrite { wrote (bytes.take j) (j + 1) s with ser := r }

theorem outWriteAll_wroteOrCut (bytes : List Byte) (s : State) : WroteOrCut bytes s (outWriteAll bytes s) :=
  (outWriteAll_cases bytes s).imp (fun ⟨hw, h⟩ => ⟨hw, s.ser, h⟩) (fun ⟨j, hj, hf, h⟩ => ⟨j, hj, hf, s.ser, h⟩)

theorem serChunk_wroteOrCut (tag payload : List Byte) (s : State) :
    WroteOrCut (chunkBytes tag payload) s (serChunk tag payload s) :=
  (serChunk_cases tag payload s).imp (fun ⟨hw, h⟩ => ⟨hw, _, h⟩) (fun ⟨j, _, hj, hf, h⟩ => ⟨j, hj, hf, _, h⟩)

/-- The end of phase `i`, whose write was `op`: the next phase and, after the trailer, `DONE`; or the fault (R275). -/
def settlePart (i : Instr) (s : State) (op : Res Unit) : State :=
  match op with
  | .ok _ t => { t with seq := serAfter s i, status := if i = .pngIend then { t.status with done := true } else t.status }
  | .raised c t => raiseExc c t

theorem settlePart_of_ne {i : Instr} (hi : i ≠ .pngIend) (s : State) (op : Res Unit) :
    settlePart i s op = settleAt (serAfter s i) op := by
  cases op with
  | ok _ t => simp [settlePart, settleAt, hi]
  | raised c t => rfl

/-- Every phase is one write of its part, and the end of it. -/
theorem exec_eq_settlePart {s : State} {i : Instr} {part : List Byte} (hi : encodeInstr i = true)
    (hp : serPart s i = some part) : ∃ op, WroteOrCut part s op ∧ exec i s = .next (settlePart i s op) := by
  cases i with
  | pngSig =>
    cases hp
    exact ⟨_, outWriteAll_wroteOrCut _ s, by rw [settlePart_of_ne (by simp)]; rfl⟩
  | pngIhdr =>
    cases hp
    exact ⟨_, serChunk_wroteOrCut _ _ s, by rw [settlePart_of_ne (by simp)]; rfl⟩
  | pngPlte =>
    obtain ⟨p, hpal, rfl⟩ := Option.map_eq_some_iff.1 hp
    exact ⟨_, serChunk_wroteOrCut _ _ s, by rw [settlePart_of_ne (by simp), exec, execPngPlte, hpal]; rfl⟩
  | pngTrns =>
    simp only [serPart, Option.some.injEq] at hp
    subst hp
    refine ⟨if trnsPresent s then serChunk tagTRNS (trnsPayload s.trns.toNat) s else .ok () s, ?_, ?_⟩
    · split
      · exact serChunk_wroteOrCut _ _ s
      · exact outWriteAll_wroteOrCut [] s
    · rw [settlePart_of_ne (by simp), exec, execPngTrns]
      split <;> rfl
  | pngIdat =>
    obtain ⟨raw, hraw, rfl⟩ := Option.map_eq_some_iff.1 hp
    exact ⟨_, serChunk_wroteOrCut _ _ s, by rw [settlePart_of_ne (by simp), exec, execPngIdat, hraw]; rfl⟩
  | pngIend =>
    cases hp
    refine ⟨_, serChunk_wroteOrCut _ _ s, ?_⟩
    rw [exec, execPngIend]
    cases serChunk tagIEND [] s <;> rfl
  | _ => cases hi

theorem serAfter_ne_fault {i : Instr} (hi : encodeInstr i = true) (s : State) : serAfter s i ≠ .fault := by
  rcases serAfter_cases hi (s := s) (t := { s with seq := serAfter s i }) rfl with ⟨-, h⟩ | ⟨-, h⟩
  · exact fun hf => by simp [hf] at h
  · exact fun hf => by simp [encoding, hf] at h

/-- Settles O33: the phase's write stops at its first failure, and only then the phase ends in the fault. -/
theorem writeFailureLeavesAProperPrefix : Obligations.WriteFailureLeavesAProperPrefix := by
  intro s i part hi hp he
  obtain ⟨op, hop, hx⟩ := exec_eq_settlePart hi hp
  refine ⟨fun j hj hfail => ?_, fun t ht hfault => ?_⟩
  · rcases hop with ⟨hok, -⟩ | ⟨j', -, hfail', r, rfl⟩
    · exact absurd hok (hfail.not_ok hj)
    · cases hfail'.unique hfail
      refine ⟨_, hx, ?_⟩
      simp [settlePart, raiseExc, wrote, he, causeCode, causeClass, causeNumber]
  · rcases hop with ⟨-, r, rfl⟩ | ⟨j, hj, hfail, -⟩
    · rw [hx] at ht
      cases ht
      exact absurd hfault (serAfter_ne_fault hi s)
    · exact ⟨j, hj, hfail⟩

end Sys2Proof.Machine
end

section
/-! `ENCODE` whole: its preconditions, and its phases one after the other. -/

namespace Sys2Proof.Machine

/-! ### The preconditions (R191) -/

theorem palNLegal_iff {n : BitVec 9} : palNLegal n = true ↔ n.toNat ∈ [2, 4, 8, 16, 32, 64, 128, 256] :=
  List.contains_iff_mem

theorem palWritten_iff {s : State} {n : Nat} :
    palWritten s n = true ↔ ∀ i, i < n → (Memory.read s.pal i).isSome = true := by
  simp [palWritten]

/-- The first of preconditions 1 to 4 that fails gives its cause. -/
theorem exec_cmdEncode_of_check {s : State} {c : Cause} (he : s.status.err = false) (hc : encodeCheck s = some c) :
    exec .cmdEncode s =
      .next { s with status := { done := false, err := true }, errcode := causeCode c, seq := .fault } := by
  simp [exec, execCmdEncode, he, hc, raiseExc, clearDone]

/-- Precondition 5 is about the compressed payload. -/
theorem exec_cmdEncode_tooLong {s : State} {raw : List Byte} (he : s.status.err = false) (hc : encodeCheck s = none)
    (hraw : serFilt s = some raw) (hlen : chunkMaxLen < (zCompress s.cfg.compressor raw).length) :
    exec .cmdEncode s =
      .next { s with status := { done := false, err := true }, errcode := causeCode .chunkTooLong, seq := .fault } := by
  simp [exec, execCmdEncode, he, hc, hraw, hlen, raiseExc, clearDone]

theorem exec_cmdEncode_accepted {s : State} {raw : List Byte} (he : s.status.err = false) (hc : encodeCheck s = none)
    (hraw : serFilt s = some raw) (hlen : (zCompress s.cfg.compressor raw).length ≤ chunkMaxLen) :
    ∃ r, exec .cmdEncode s = .next { s with status := { done := false, err := false }, seq := .serSig, ser := r } :=
  ⟨(adlerAll raw s).ser, by simp [exec, execCmdEncode, he, hc, hraw, Nat.not_lt.2 hlen, adlerAll_eq, clearDone]⟩

/-- Settles O23: precondition by precondition, each with the ones before it. -/
theorem encodeChecksItsPreconditionsInOrder : Obligations.EncodeChecksItsPreconditionsInOrder := by
  intro s raw he
  dsimp only
  rw [← palNLegal_iff, ← palWritten_iff]
  have passed (hn : palNLegal s.palN = true) (hp : palWritten s s.palN.toNat = true) (ht : s.trns.toInt ≤ 255)
      (hl : s.fbLen.toNat = s.width.toNat * s.height.toNat) : encodeCheck s = none := by
    simp [encodeCheck, frameSize, hn, hp, hl, Int.not_lt.2 ht]
  refine ⟨fun hn => ?_, fun hn hp => ?_, fun hn hp ht => ?_, fun hn hp ht hl => ?_, fun hn hp ht hl hraw hlen => ?_,
    fun hn hp ht hl hraw hlen => ?_⟩
  · exact exec_cmdEncode_of_check he (c := .badPalN) (by simp [encodeCheck, hn])
  · exact exec_cmdEncode_of_check he (c := .palUnwritten) (by simp [encodeCheck, hn, hp])
  · exact exec_cmdEncode_of_check he (c := .badTrns) (by simp [encodeCheck, hn, hp, ht])
  · exact exec_cmdEncode_of_check he (c := .badFbLen)
      (by simp [encodeCheck, frameSize, hn, hp, hl, Int.not_lt.2 ht])
  · exact exec_cmdEncode_tooLong he (passed hn hp ht hl) hraw hlen
  · obtain ⟨r, hx⟩ := exec_cmdEncode_accepted he (passed hn hp ht hl) hraw hlen
    exact ⟨_, hx, rfl⟩

/-! ### The phases one after the other (R190, R275) -/

/-- `s` after the parts `bytes`, with phase `q` entered: `DONE` is set once that is `IDLE`. -/
def encodedTo (bytes : List Byte) (q : Seq) (r : Ser) (s : State) : State :=
  { wrote bytes bytes.length s with
    ser := r
    seq := q
    status := if q = .idle then { s.status with done := true } else s.status }

/-- A part depends on the setup and the frame, and not on what has been written. -/
theorem serPart_encodedTo (bytes : List Byte) (q : Seq) (r : Ser) (s : State) (i : Instr) :
    serPart (encodedTo bytes q r s) i = serPart s i := by
  have hplte := pltePayload_congr (s := s) (t := encodedTo bytes q r s) rfl 0 s.palN.toNat
  have hfilt := serFilt_congr (s := s) (t := encodedTo bytes q r s) rfl rfl rfl rfl
  cases i with
  | pngPlte => exact congrArg (Option.map _) hplte
  | pngIdat => exact congrArg (Option.map _) hfilt
  | _ => rfl

theorem partWritten_encodedTo {i : Instr} (hi : encodeInstr i = true) (bytes part : List Byte) (r r' : Ser) (s : State) :
    partWritten i part r' (encodedTo bytes (serPhase i) r s) = encodedTo (bytes ++ part) (serAfter s i) r' s := by
  have hafter : serAfter (encodedTo bytes (serPhase i) r s) i = serAfter s i := by cases i <;> rfl
  have hidle : serAfter s i = .idle ↔ i = .pngIend := by
    rcases serAfter_cases hi (s := s) (t := { s with seq := serAfter s i }) rfl with ⟨rfl, -⟩ | ⟨hne, h⟩
    · simp [serAfter]
    · exact iff_of_false (fun hf => by simp [encoding, hf] at h) hne
  have hphase : serPhase i ≠ .idle := by cases i <;> simp [serPhase]
  simp only [partWritten, hafter]
  simp [encodedTo, wrote, hphase, hidle, List.drop_drop]

/-- Some number of steps from `s₀` ends in phase `q` of the command accepted in `s`, with `bytes` written. -/
def Encodes (s₀ s : State) (bytes : List Byte) (q : Seq) : Prop := ∃ r, Leads s₀ (.next (encodedTo bytes q r s))

section
variable {s₀ s : State} {bytes : List Byte}

/-- Each phase goes on from the one before it. -/
theorem Encodes.part {i : Instr} {part : List Byte} (h : Encodes s₀ s bytes (serPhase i)) (hm : blockMoves s = true)
    (hr : OutReady s) (hi : encodeInstr i = true) (hp : serPart s i = some part) :
    Encodes s₀ s (bytes ++ part) (serAfter s i) := by
  obtain ⟨r, hlead⟩ := h
  have hready : OutReady (encodedTo bytes (serPhase i) r s) := outReady_drop hr rfl
  obtain ⟨r', hx⟩ := exec_writes_part hi hready ((serPart_encodedTo _ _ _ _ _).trans hp)
  rw [partWritten_encodedTo hi] at hx
  have hstep := step_ser (s := encodedTo bytes (serPhase i) r s) hm hi rfl
  exact ⟨r', hlead.trans (.of_step (hstep.trans hx))⟩

/-- The transparency chunk has a phase of its own only if it is written (R190, R204). -/
theorem Encodes.trns (h : Encodes s₀ s bytes (afterPlte s)) (hm : blockMoves s = true) (hr : OutReady s) :
    Encodes s₀ s (bytes ++ if trnsPresent s then chunkBytes tagTRNS (trnsPayload s.trns.toNat) else []) .serIdat := by
  unfold afterPlte at h
  split_ifs at h ⊢ with ht
  · exact Encodes.part (i := .pngTrns) h hm hr rfl (by rw [serPart, if_pos ht])
  · rwa [List.append_nil]

/-- From the first phase to the last the whole file is written. -/
theorem Encodes.file {raw plte : List Byte} (h : Encodes s₀ s [] .serSig) (hm : blockMoves s = true) (hr : OutReady s)
    (hraw : serFilt s = some raw) (hplte : pltePayload s 0 s.palN.toNat = some plte) :
    Encodes s₀ s (pngFile s plte (zCompress s.cfg.compressor raw)) .idle := by
  have hsig := Encodes.part (i := .pngSig) h hm hr rfl rfl
  have hihdr := Encodes.part (i := .pngIhdr) hsig hm hr rfl rfl
  have hpal := Encodes.part (i := .pngPlte) hihdr hm hr rfl (by rw [serPart, hplte]; rfl)
  have hidat := Encodes.part (i := .pngIdat) (hpal.trns hm hr) hm hr rfl (by rw [serPart, hraw]; rfl)
  exact Encodes.part (i := .pngIend) hidat hm hr rfl rfl

end

/-- The number of bytes of the file (R211). -/
theorem pngFile_length {s : State} {plte : List Byte} (hplte : pltePayload s 0 s.palN.toNat = some plte) (z : List Byte) :
    (pngFile s plte z).length = 8 + 25 + (12 + 3 * s.palN.toNat) +
      (if 0 ≤ s.trns.toInt then 12 + s.trns.toNat + 1 else 0) + (12 + z.length) + 12 := by
  have hihdr : (ihdrPayload s).length = 13 := rfl
  have htrns : (if trnsPresent s then chunkBytes tagTRNS (trnsPayload s.trns.toNat) else []).length =
      if 0 ≤ s.trns.toInt then 12 + s.trns.toNat + 1 else 0 := by
    by_cases ht : 0 ≤ s.trns.toInt
    · simp [trnsPresent, ht, chunkBytes_length tagTRNS _ rfl, trnsPayload, Nat.add_assoc]
    · simp [trnsPresent, ht]
  simp only [pngFile, List.length_append, htrns, chunkBytes_length tagIHDR _ rfl, chunkBytes_length tagPLTE _ rfl,
    chunkBytes_length tagIDAT _ rfl, chunkBytes_length tagIEND _ rfl, hihdr, (pltePayload_spec hplte).1]
  rfl

/-- The state in which `ENCODE`, taken from the pending actions, is accepted. -/
def encodeAccepted (rest : List HostAct) (s : State) : State :=
  { s with bus := rest, status := { done := false, err := false } }

/-- The step that takes a written `ENCODE` whose preconditions hold: the signature is due, nothing is written (R191, R274). -/
theorem step_encode {s : State} {v : Word} {rest : List HostAct} {raw : List Byte} (hm : blockMoves s = true)
    (hb : busy s = false) (he : s.status.err = false) (hbus : s.bus = .wr offCmd v :: rest)
    (hv : v.setWidth 8 = (0x03 : Byte)) (hc : encodeCheck s = none) (hraw : serFilt s = some raw)
    (hlen : (zCompress s.cfg.compressor raw).length ≤ chunkMaxLen) :
    ∃ r, step s = .next (encodedTo [] .serSig r (encodeAccepted rest s)) := by
  have hraw' : serFilt { s with bus := rest } = some raw := by rw [← hraw]; exact serFilt_congr rfl rfl rfl rfl
  obtain ⟨r, hx⟩ := exec_cmdEncode_accepted (s := { s with bus := rest }) he hc hraw' hlen
  refine ⟨r, ?_⟩
  rw [writtenCommandIsRun s v rest hm hb hbus, hv]
  refine hx.trans (congrArg _ ?_)
  simp [encodedTo, encodeAccepted, wrote]

/-- Settles O36: the command's step, then the phases one after the other. -/
theorem encodeAppendsTheFile : Obligations.EncodeAppendsTheFile := by
  intro s rest v raw plte hm hq he hbus hv hc hraw hplte hlen hr
  obtain ⟨r, hstep⟩ := step_encode hm (by rw [busy, hq]) he hbus hv hc hraw hlen
  have hraw' : serFilt (encodeAccepted rest s) = some raw := by rw [← hraw]; exact serFilt_congr rfl rfl rfl rfl
  have hplte' : pltePayload (encodeAccepted rest s) 0 s.palN.toNat = some plte := by
    rw [← hplte]; exact pltePayload_congr (s := s) (t := encodeAccepted rest s) rfl _ _
  have hstart : Encodes s (encodeAccepted rest s) [] .serSig := ⟨r, .of_step hstep⟩
  obtain ⟨r', k, hk⟩ := hstart.file hm hr hraw' hplte'
  refine ⟨k + 1, _, hk, rfl, by rw [encodedTo, if_pos rfl, ← hq]; rfl, ?_⟩
  rw [← pngFile_length hplte]
  exact List.length_append

end Sys2Proof.Machine
end

section
/-! The checksum units: the table form of `CRC.UPDATE`, and the streaming forms against the functions. -/

namespace Sys2Proof.Machine

/-! ### The table form of `CRC.UPDATE` (R223) -/

/-- The inner step is linear: both the shift and the choice of the polynomial are. -/
theorem crcBit_xor (x y : BitVec 32) : crcBit (x ^^^ y) = crcBit x ^^^ crcBit y := by
  simp only [crcBit, BitVec.getLsbD_xor, BitVec.ushiftRight_xor_distrib]
  generalize x >>> 1 = u, y >>> 1 = v
  cases x.getLsbD 0 <;> cases y.getLsbD 0
  case false.false => rfl
  case false.true => exact BitVec.xor_assoc ..
  case true.false => exact show u ^^^ v ^^^ 0xEDB88320 = u ^^^ 0xEDB88320 ^^^ v by ac_rfl
  case true.true =>
    have hcancel : u ^^^ v = u ^^^ 0xEDB88320 ^^^ (v ^^^ 0xEDB88320) := by
      rw [BitVec.xor_comm v, ← BitVec.xor_assoc, BitVec.xor_assoc u, BitVec.xor_self, BitVec.xor_zero]
    exact hcancel

theorem crcBits_xor (n : Nat) (x y : BitVec 32) : crcBits n (x ^^^ y) = crcBits n x ^^^ crcBits n y := by
  induction n generalizing x y with
  | zero => rfl
  | succ n ih => simp only [crcBits, crcBit_xor, ih]

/-- As long as the bits shifted out are zero, the inner step only shifts. -/
theorem crcBits_of_low_bits_zero {n : Nat} {c : BitVec 32} (h : ∀ i < n, c.getLsbD i = false) :
    crcBits n c = c >>> n := by
  induction n generalizing c with
  | zero => simp [crcBits]
  | succ n ih =>
    have hbit : crcBit c = c >>> 1 := by rw [crcBit, h 0 (Nat.succ_pos n), if_neg Bool.false_ne_true]
    have hlow : ∀ i < n, (c >>> 1).getLsbD i = false := fun i hi => by
      rw [BitVec.getLsbD_ushiftRight]; exact h _ (by omega)
    rw [crcBits, hbit, ih hlow, ← BitVec.shiftRight_add, Nat.add_comm]

/-- A value is its low byte and the rest. -/
theorem low_byte_xor_rest (x : BitVec 32) : (x.setWidth 8).setWidth 32 ^^^ (x >>> 8) <<< 8 = x := by
  ext i hi
  by_cases h8 : i < 8
  · simp [h8, hi]
  · simp [h8, Nat.add_sub_cancel' (Nat.le_of_not_lt h8), BitVec.getLsbD_eq_getElem hi]

/-- The eight inner steps take the low byte through the table and shift the rest. -/
theorem crcBits_eight (x : BitVec 32) : crcBits 8 x = crcTable (x.setWidth 8) ^^^ (x >>> 8) := by
  have hrest : crcBits 8 ((x >>> 8) <<< 8) = x >>> 8 := by
    rw [crcBits_of_low_bits_zero (fun i hi => by simp [hi])]
    ext i hi
    simpa using BitVec.lt_of_getLsbD
  calc crcBits 8 x
      = crcBits 8 ((x.setWidth 8).setWidth 32 ^^^ (x >>> 8) <<< 8) := by rw [low_byte_xor_rest]
    _ = crcTable (x.setWidth 8) ^^^ (x >>> 8) := by rw [crcBits_xor, hrest, crcTable]

/-- Settles O37: the inner steps are linear, and the byte reaches the low eight bits of the register only. -/
theorem crcTableFormAgrees : Obligations.CrcTableFormAgrees := by
  intro c b
  have hshift : (c ^^^ b.setWidth 32) >>> 8 = c >>> 8 := by
    ext i hi
    simp
  rw [crcByte, crcBits_eight, hshift]

/-! ### The streaming forms (R222, R226) -/

/-- The word of R225 holds the two sums side by side. -/
theorem ofNat16_append_ofNat16 {a : Nat} (ha : a < 65536) (b : Nat) :
    BitVec.ofNat 16 b ++ BitVec.ofNat 16 a = BitVec.ofNat 32 (b * 65536 + a) := by
  apply BitVec.eq_of_toNat_eq
  rw [BitVec.toNat_append, ← Nat.shiftLeft_add_eq_or_of_lt (BitVec.isLt _), Nat.shiftLeft_eq]
  simp only [BitVec.toNat_ofNat]
  omega

theorem adlerFinal_adlerAll (bs : List Byte) (s : State) : adlerFinal (adlerAll bs s) = adler32 bs := by
  obtain ⟨ha, -⟩ := foldl_adlerStep_lt bs 1 0 (by decide) (by decide)
  rw [adlerAll_eq]
  exact ofNat16_append_ofNat16 (ha.trans (by decide)) _

/-- Settles O38: the registers hold the functions' running values; the check values are computed. -/
theorem checksumUnitsComputeTheFunctions : Obligations.ChecksumUnitsComputeTheFunctions :=
  ⟨fun s bs => ⟨by rw [foldl_crcUpdate, crcFinal_summed], adlerFinal_adlerAll bs s⟩,
    by decide, by decide, by simp [crc32, crcByte, crcBits, crcBit], crc32_tagIEND, by decide, by decide, by decide, by decide⟩

end Sys2Proof.Machine
end

section
/-! The symbols of a deflate stream against their canonical codes. -/

namespace Sys2Proof.Machine

/-! ### Canonical codes (R239) -/

/-- The construction of R239 gives the first code of each length. -/
theorem firstCode_eq {lens : List Nat} {first : Nat → Nat} (h1 : first 1 = 0)
    (hs : ∀ L, 1 ≤ L → first (L + 1) = 2 * (first L + lens.count L)) {L : Nat} (hL : 1 ≤ L) :
    firstCode lens L = first L := by
  induction L, hL using Nat.le_induction with
  | base => exact h1.symm
  | succ L hL ih => rw [firstCode, ih, hs L hL, lenCount, if_neg (by omega), Nat.mul_comm]

/-- The bits from `p` on begin with the canonical code of `sym`, which has length `L`. -/
def CodeOf (d : List Byte) (lens : List Nat) (p sym L : Nat) : Prop :=
  lens[sym]? = some L ∧ codeAt d p L = some (firstCode lens L + (lens.take sym).count L)

/-- The table's entry for length `L` holds the symbol whose code the bits are. -/
theorem codeOf_iff {d : List Byte} {lens : List Nat} {p sym L x : Nat} (hx : codeAt d p L = some x) :
    CodeOf d lens p sym L ↔ firstCode lens L ≤ x ∧ (symsOfLen L 0 lens)[x - firstCode lens L]? = some sym := by
  rw [symsOfLen_get, CodeOf, hx, Option.some_inj]
  constructor
  · rintro ⟨hlen, rfl⟩
    exact ⟨Nat.le_add_right _ _, sym, (Nat.zero_add _).symm, hlen, (Nat.add_sub_cancel_left ..).symm⟩
  · rintro ⟨hle, i, rfl, hlen, hcount⟩
    rw [Nat.zero_add]
    exact ⟨hlen, by omega⟩

theorem CodeOf.sym_unique {d : List Byte} {lens : List Nat} {p sym sym' L : Nat} (h : CodeOf d lens p sym L)
    (h' : CodeOf d lens p sym' L) : sym = sym' := by
  obtain ⟨-, hsym⟩ := (codeOf_iff h.2).1 h
  obtain ⟨-, hsym'⟩ := (codeOf_iff h.2).1 h'
  exact Option.some_inj.1 (hsym.symm.trans hsym')

/-- The codes of one length are fewer than the symbols that have it. -/
theorem count_take_lt {lens : List Nat} {sym L : Nat} (h : lens[sym]? = some L) : (lens.take sym).count L < lens.count L := by
  rw [← symsOfLen_length L 0 lens]
  exact (List.getElem?_eq_some_iff.1 (symsOfLen_get.2 ⟨sym, (Nat.zero_add _).symm, h, rfl⟩)).1

/-- No code begins with another: the longer one's first `L` bits lie above all codes of length `L`. -/
theorem CodeOf.length_le {d : List Byte} {lens : List Nat} {p sym sym' L L' : Nat} (hL : 1 ≤ L)
    (h : CodeOf d lens p sym L) (h' : CodeOf d lens p sym' L') : L' ≤ L := by
  obtain ⟨hlen, hcode⟩ := h
  obtain ⟨-, hcode'⟩ := h'
  by_contra hlt
  obtain ⟨n, rfl⟩ : ∃ n, L' = L + (n + 1) := ⟨L' - L - 1, by omega⟩
  have habove : (firstCode lens L + lens.count L) * 2 ^ (n + 1) ≤
      firstCode lens (L + (n + 1)) + (lens.take sym').count (L + (n + 1)) := by
    have hgrow := firstCode_grow lens hL n
    rw [Nat.pow_succ, ← Nat.mul_assoc, Nat.mul_comm _ (2 ^ n)]
    exact Nat.le_add_right_of_le hgrow
  have hprefix := (Nat.le_div_iff_mul_le (Nat.two_pow_pos _)).2 habove
  rw [codeAt_prefix hcode hcode'] at hprefix
  have := count_take_lt hlen
  omega

/-! ### The decoding loop (R239) -/

/-- The table's entries for the lengths `m + 1` to `m + n`. -/
def levels (lens : List Nat) (m n : Nat) : Huff :=
  (List.range n).map (fun i => (firstCode lens (m + i + 1), symsOfLen (m + i + 1) 0 lens))

theorem huffTable_eq_levels (lens : List Nat) : huffTable lens = levels lens 0 15 := by
  simp only [huffTable, levels, Nat.zero_add]

theorem levels_succ (lens : List Nat) (m n : Nat) : levels lens m (n + 1) =
    (firstCode lens (m + 1), symsOfLen (m + 1) 0 lens) :: levels lens (m + 1) n := by
  simp only [levels, List.range_succ_eq_map, List.map_cons, List.map_map, Function.comp_def, Nat.add_zero]
  congr 2
  funext i
  rw [show m + i.succ + 1 = m + 1 + i + 1 by omega]

theorem codeAt_succ {d : List Byte} {p m c b : Nat} (hc : codeAt d p m = some c) (hb : bitAt d (p + m) = some b) :
    codeAt d p (m + 1) = some (2 * c + b) := by simp only [codeAt, hc, hb]

/-- A code of more than `m` bits has a bit behind its first `m`. -/
theorem bitAt_of_codeAt {d : List Byte} {p m L x : Nat} (h : codeAt d p L = some x) (hm : m < L) :
    ∃ b, bitAt d (p + m) = some b := by
  induction L generalizing x with
  | zero => omega
  | succ L ih =>
    rw [codeAt] at h
    split at h
    · rename_i c b hc hb
      rcases Nat.lt_succ_iff_lt_or_eq.1 hm with hlt | rfl
      · exact ih hc hlt
      · exact ⟨b, hb⟩
    · cases h

/-- The decoding loop takes the symbol at the code read, if the entry of the table has one there, and else reads on. -/
theorem decodeSymFrom_cons {d : List Byte} {first c p b : Nat} {syms : List Nat} (rest : Huff) (hb : bitAt d p = some b) :
    (∀ sym, first ≤ 2 * c + b ∧ syms[2 * c + b - first]? = some sym →
      decodeSymFrom d ((first, syms) :: rest) c p = some (sym, p + 1)) ∧
    ((∀ sym, ¬ (first ≤ 2 * c + b ∧ syms[2 * c + b - first]? = some sym)) →
      decodeSymFrom d ((first, syms) :: rest) c p = decodeSymFrom d rest (2 * c + b) (p + 1)) := by
  simp only [decodeSymFrom, hb]
  refine ⟨fun sym h => by simp only [if_pos h.1, h.2], fun h => ?_⟩
  split_ifs with hle
  · cases hs : syms[2 * c + b - first]? with
    | none => rfl
    | some sym => exact absurd ⟨hle, hs⟩ (h sym)
  · rfl

/-- With `m` bits read, the entries that are left decode the symbol whose code has one of their lengths. -/
theorem decodeSymFrom_levels {d : List Byte} {lens : List Nat} {p m n c sym q : Nat} (hc : codeAt d p m = some c) :
    decodeSymFrom d (levels lens m n) c (p + m) = some (sym, q) ↔
      ∃ L, m < L ∧ L ≤ m + n ∧ q = p + L ∧ CodeOf d lens p sym L := by
  induction n generalizing m c with
  | zero =>
    constructor
    · intro h; cases h
    · rintro ⟨L, hlo, hhi, -⟩; omega
  | succ n ih =>
    rw [levels_succ]
    cases hb : bitAt d (p + m) with
    | none =>
      rw [decodeSymFrom, hb]
      constructor
      · intro h; cases h
      · rintro ⟨L, hlo, -, -, -, hcode⟩
        obtain ⟨b, hb'⟩ := bitAt_of_codeAt hcode hlo
        rw [hb] at hb'; cases hb'
    | some b =>
      have hx := codeAt_succ hc hb
      obtain ⟨htake, hgo⟩ := decodeSymFrom_cons (first := firstCode lens (m + 1)) (c := c) (syms := symsOfLen (m + 1) 0 lens)
        (levels lens (m + 1) n) hb
      by_cases hhit : ∃ sym', CodeOf d lens p sym' (m + 1)
      · obtain ⟨sym', hsym⟩ := hhit
        rw [htake sym' ((codeOf_iff hx).1 hsym)]
        constructor
        · intro h; cases h
          exact ⟨m + 1, by omega, by omega, by omega, hsym⟩
        · rintro ⟨L, hlo, -, rfl, hcode⟩
          obtain rfl : L = m + 1 := Nat.le_antisymm (hsym.length_le (by omega) hcode) hlo
          rw [hcode.sym_unique hsym, Nat.add_assoc]
      · rw [hgo (fun sym' h => hhit ⟨sym', (codeOf_iff hx).2 h⟩), Nat.add_assoc, ih hx]
        constructor
        · rintro ⟨L, hlo, hhi, hrest⟩
          exact ⟨L, by omega, by omega, hrest⟩
        · rintro ⟨L, hlo, hhi, hq, hcode⟩
          have hne : L ≠ m + 1 := by rintro rfl; exact hhit ⟨sym, hcode⟩
          exact ⟨L, by omega, by omega, hq, hcode⟩

/-- Settles O43: the decoding loop on the whole table. -/
theorem canonicalCodesAreDecoded : Obligations.CanonicalCodesAreDecoded := by
  intro d lens p sym q first h1 hs
  have hloop := decodeSymFrom_levels (lens := lens) (n := 15) (sym := sym) (q := q) (show codeAt d p 0 = some 0 from rfl)
  rw [decodeSym, huffTable_eq_levels]
  refine hloop.trans (exists_congr fun L => ?_)
  constructor
  · rintro ⟨hlo, hhi, hq, hlen, hcode⟩
    rw [firstCode_eq h1 hs hlo] at hcode
    exact ⟨hlen, hlo, by omega, hq, hcode⟩
  · rintro ⟨hlen, hlo, hhi, hq, hcode⟩
    rw [← firstCode_eq h1 hs hlo] at hcode
    exact ⟨hlo, by omega, hq, hlen, hcode⟩

end Sys2Proof.Machine
end

section
/-! The coded data of a deflate stream: literals, the end and matches, one symbol at a time; and the tables of a dynamic block. -/

namespace Sys2Proof.Machine

/-! ### Coded data (R242) -/

theorem baseExtra_outside {base extra : List Nat} {k : Nat} (h : base.length ≤ k) (d : List Byte) (p : Nat) :
    baseExtra d base extra k p = none := by
  rw [baseExtra, List.getElem?_eq_none h]

theorem baseExtra_inside {base extra : List Nat} {k b n : Nat} (hb : base[k]? = some b) (hn : extra[k]? = some n) (d : List Byte)
    (p : Nat) : baseExtra d base extra k p = (bitsAt d p n).map (fun v => (b + v, p + n)) := by
  simp only [baseExtra, hb, hn]

/-- A literal byte is appended, and the data go on. -/
theorem inflateCoded_literal {d : List Byte} {lit : Huff} {p sym q : Nat} (h : decodeSym d lit p = some (sym, q)) (hs : sym < 256)
    (dst : Huff) (u : List Byte) : inflateCoded d lit dst (bitFuel d) p u =
      inflateCoded d lit dst (bitFuel d) q (u ++ [BitVec.ofNat 8 sym]) := by
  simp only [inflateCoded_step d lit dst p, inflateSym, h, if_pos hs]

/-- Symbol 256 ends the block. -/
theorem inflateCoded_end {d : List Byte} {lit : Huff} {p q : Nat} (h : decodeSym d lit p = some (256, q)) (dst : Huff)
    (u : List Byte) : inflateCoded d lit dst (bitFuel d) p u = some (q, u) := by
  simp only [inflateCoded_step d lit dst p, inflateSym, h, Nat.lt_irrefl, if_false, if_true]

/-- A length symbol: the match is made, and the data go on. -/
theorem inflateCoded_match {d : List Byte} {lit : Huff} {p sym q : Nat} (h : decodeSym d lit p = some (sym, q)) (hs : 257 ≤ sym)
    (dst : Huff) (u : List Byte) : inflateCoded d lit dst (bitFuel d) p u =
      (inflateMatch d dst (sym - 257) q u).bind (fun e => inflateCoded d lit dst (bitFuel d) e.1 e.2) := by
  have hlit : ¬ sym < 256 := by omega
  have hend : sym ≠ 256 := by omega
  simp only [inflateCoded_step d lit dst p, inflateSym, h, if_neg hlit, if_neg hend]
  cases inflateMatch d dst (sym - 257) q u <;> rfl

/-- A match with its length read: the distance symbol, its extra bits, and the copy. -/
theorem inflateMatch_length {d : List Byte} {k p len q : Nat} (h : baseExtra d lenBase lenExtra k p = some (len, q)) (dst : Huff)
    (u : List Byte) : inflateMatch d dst k p u = (decodeSym d dst q).bind (fun t =>
      (baseExtra d distBase distExtra t.1 t.2).bind (fun e =>
        if u.length < e.1 then none else some (e.2, copyMatch e.1 len u))) := by
  simp only [inflateMatch, h]
  cases hd : decodeSym d dst q with
  | none => rfl
  | some t =>
    simp only [Option.bind_some]
    cases baseExtra d distBase distExtra t.1 t.2 <;> rfl

theorem inflateMatch_noLength {d : List Byte} {k p : Nat} (h : baseExtra d lenBase lenExtra k p = none) (dst : Huff)
    (u : List Byte) : inflateMatch d dst k p u = none := by
  rw [inflateMatch, h]

/-- Every distance is at least 1. -/
theorem distBase_pos {t db : Nat} (h : distBase[t]? = some db) : 0 < db := by
  have hall : ∀ x ∈ distBase, 0 < x := by decide
  exact hall db (List.mem_of_getElem? h)

/-- Settles O44: one symbol of the data at a time. -/
theorem codedDataIsDecoded : Obligations.CodedDataIsDecoded := by
  intro d lit dst p u
  refine ⟨fun h => ?_, fun sym q h => ⟨fun hs => inflateCoded_literal h hs dst u, ?_, fun hs => ?_, ?_⟩, rfl⟩
  · simp only [inflateCoded_step d lit dst p, inflateSym, h]
  · rintro rfl
    exact inflateCoded_end h dst u
  · rw [inflateCoded_match h (by omega), inflateMatch_noLength (baseExtra_outside (show 29 ≤ sym - 257 by omega) d q)]
    rfl
  · intro lb le hs hlb hle
    have hlen := baseExtra_inside (base := lenBase) (extra := lenExtra) hlb hle d q
    rw [inflateCoded_match h hs]
    refine ⟨fun hx => ?_, fun x hx => ?_⟩
    · rw [hx] at hlen
      rw [inflateMatch_noLength hlen]
      rfl
    rw [hx] at hlen
    rw [inflateMatch_length hlen]
    refine ⟨fun ht => by rw [ht]; rfl, fun t r ht => ?_⟩
    rw [ht, Option.bind_some]
    refine ⟨fun ht29 => by rw [baseExtra_outside (show 30 ≤ t from ht29)]; rfl, fun db de hdb hde => ?_⟩
    rw [baseExtra_inside (base := distBase) (extra := distExtra) hdb hde]
    refine ⟨fun hy => by rw [hy]; rfl, fun y hy => ?_⟩
    rw [hy]
    refine ⟨fun hfar => ?_, fun hnear => ?_⟩
    · simp [hfar]
    · obtain ⟨w, hw, hwlen, hcopy⟩ := copyMatch_spec (db + y) (lb + x) u (Nat.add_pos_left (distBase_pos hdb) y) hnear
      refine ⟨w, ?_, hwlen, fun k hk => hcopy k (by omega)⟩
      simp [Nat.not_lt.2 hnear, hw]

/-! ### The tables of a dynamic block (R241) -/

theorem readLens_over {d : List Byte} {h : Huff} {need p : Nat} {acc : List Nat} (hn : need < acc.length) :
    readLens d h need (bitFuel d) p acc = none := by
  rw [bitFuel, readLens, if_pos hn]

theorem readLens_full {d : List Byte} {h : Huff} {need p : Nat} {acc : List Nat} (hn : acc.length = need) :
    readLens d h need (bitFuel d) p acc = some (p, acc) := by
  rw [bitFuel, readLens, if_neg (by omega), if_pos hn]

theorem readLens_noSym {d : List Byte} {h : Huff} {need p : Nat} {acc : List Nat} (hn : acc.length < need)
    (hs : decodeSym d h p = none) : readLens d h need (bitFuel d) p acc = none := by
  rw [bitFuel, readLens, if_neg (by omega), if_neg (by omega), hs]

/-- Where the two tables of a dynamic block come from: the counts, the code-length code, and the lengths under it. -/
theorem dynTables_iff {d : List Byte} {p q : Nat} {lit dst : List Nat} :
    dynTables d p = some (q, lit, dst) ↔ ∃ a b c cl lens,
      bitsAt d p 5 = some a ∧ bitsAt d (p + 5) 5 = some b ∧ bitsAt d (p + 10) 4 = some c ∧ a + 257 ≤ 286 ∧
      readClLens d (clOrder.take (c + 4)) (p + 14) (List.replicate 19 0) = some cl ∧ huffComplete cl = true ∧
      readLens d (huffTable cl) (a + 257 + (b + 1)) (bitFuel d) (p + 14 + 3 * (c + 4)) [] = some (q, lens) ∧
      lit = lens.take (a + 257) ∧ dst = lens.drop (a + 257) := by
  constructor
  · intro h
    unfold dynTables at h
    split at h
    · rename_i a b c ha hb hc
      split_ifs at h with hlit
      split at h
      · cases h
      · rename_i cl hcl
        split_ifs at h with hfull
        split at h
        · cases h
        · rename_i q' lens hlens
          cases h
          exact ⟨a, b, c, cl, lens, ha, hb, hc, Nat.not_lt.1 hlit, hcl, by simpa using hfull, hlens, rfl, rfl⟩
    · cases h
  · rintro ⟨a, b, c, cl, lens, ha, hb, hc, hlit, hcl, hfull, hlens, rfl, rfl⟩
    simp only [dynTables, ha, hb, hc, if_neg (Nat.not_lt.2 hlit), hcl, hfull, hlens, Bool.true_eq_false, if_false]

theorem inflateDyn_noTables {d : List Byte} {p : Nat} (h : dynTables d p = none) (u : List Byte) : inflateDyn d p u = none := by
  rw [inflateDyn, h]

/-- The block's data are decoded under its two tables if both codes are complete (U33). -/
theorem inflateDyn_tables {d : List Byte} {p q : Nat} {lit dst : List Nat} (h : dynTables d p = some (q, lit, dst)) (u : List Byte) :
    inflateDyn d p u = if kraftSum lit = 2 ^ 15 ∧ kraftSum dst = 2 ^ 15 then
      inflateCoded d (huffTable lit) (huffTable dst) (bitFuel d) q u else none := by
  simp only [inflateDyn, h, ← huffComplete_iff]
  cases huffComplete lit <;> cases huffComplete dst <;> rfl

/-- Settles O45: one symbol of the lengths at a time, and the two tables they are cut into. -/
theorem dynamicTablesAreRead : Obligations.DynamicTablesAreRead := by
  intro d h need p acc u
  refine ⟨readLens_over, readLens_full, readLens_noSym, fun sym q hn hs => ?_, fun q lit dst => ?_,
    fun hnone => inflateDyn_noTables hnone u, fun q lit dst htab => inflateDyn_tables htab u⟩
  · have hstep := readLens_step d h need p sym q acc hn hs
    refine ⟨fun hsym => by rw [hstep, if_pos hsym], fun l v hsym hl hv => by simp [hstep, hsym, hl, hv], ?_,
      fun v hsym hv => by simp [hstep, hsym, hv], fun hsym hv => by simp [hstep, hsym, hv],
      fun v hsym hv => by simp [hstep, hsym, hv], fun hsym hv => by simp [hstep, hsym, hv]⟩
    rintro rfl (rfl | hv)
    · simp [hstep]
    · simp [hstep, hv]
  · rw [dynTables_iff]
    refine exists_congr fun a => exists_congr fun b => exists_congr fun c => exists_congr fun cl => exists_congr fun lens => ?_
    rw [readCl_iff, huffComplete_iff, and_assoc]
    rfl

end Sys2Proof.Machine
end

section
/-! The yardstick as an agent: the headers it takes, what a block of each kind leaves, and its run from the header to the result. -/

namespace Sys2Proof.Machine

/-- Settles O57: the frames of the two groups of instructions. -/
theorem hostAndYardstickLeaveTheBlockAlone : Obligations.HostAndYardstickLeaveTheBlockAlone :=
  fun _ _ _ h => ⟨fun hi => (exec_host hi h).eq, fun hi => exec_yard hi h⟩

/-! ### The headers (R234, R235) -/

/-- Where a stream's header is due, a valid one is run; a short stream and a header that is not valid are invalid. -/
theorem step_header {s : State} (hp : s.pin = []) (hst : s.yard.st = .header) :
    step s = if s.yard.z.length < 6 ∨ zlibHdrOk (byteAt s.yard.z 0) (byteAt s.yard.z 1) = false then .next (yardDone none s)
      else exec (.zlibHdr (byteAt s.yard.z 0) (byteAt s.yard.z 1)) s := by
  rw [step_noPin hp, fetch, hst]
  simp only [fetchZhdr, decodeZhdr]
  by_cases hlen : s.yard.z.length < 6
  · simp [hlen, runFetched]
  · cases hok : zlibHdrOk (byteAt s.yard.z 0) (byteAt s.yard.z 1) <;> simp [hlen, runFetched]

/-- Where a block is due, its three header bits are taken and the block they name is run. -/
theorem step_block_header {s : State} {bits : Nat} (hp : s.pin = []) (hst : s.yard.st = .block)
    (h : bitsAt (yardData s) s.yard.p 3 = some bits) :
    step s = exec (decodeDblk bits) { s with yard := { s.yard with p := s.yard.p + 3 } } := by
  rw [step_noPin hp, fetch, hst]
  simp only [fetchDblk, h, runFetched]

/-- A block whose header bits are missing makes the stream invalid. -/
theorem step_block_missing {s : State} (hp : s.pin = []) (hst : s.yard.st = .block)
    (h : bitsAt (yardData s) s.yard.p 3 = none) : step s = .next (yardDone none s) := by
  rw [step_noPin hp, fetch, hst]
  simp only [fetchDblk, h, runFetched]

/-- Settles O9: the two header reads. -/
theorem streamHeadersAreRun : Obligations.StreamHeadersAreRun := by
  intro s cmf flg rest bits hp
  refine ⟨fun hst hz hlen hok => ?_, fun hst hbits => step_block_header hp hst hbits⟩
  rw [step_header hp hst, hz]
  exact if_neg (by simp [byteAt, hok]; omega)

/-! ### What a block leaves (R233, R235) -/

@[simp] theorem yardAfter_none (fin : Bool) (s : State) : yardAfter fin none s = yardDone none s := rfl

/-- The last block: the stream ends with the data or as invalid, as the trailer says. -/
theorem yardAfter_last (p : Nat) (u : List Byte) (s : State) : yardAfter true (some (p, u)) s =
    { s with yard := { s.yard with p := p, u := u, st := .result (zTrailer s.yard.z p u) } } := rfl

theorem exec_deflStored (fin : Bool) (s : State) :
    exec (.deflStored fin) s = .next (yardAfter fin (inflateStored (yardData s) s.yard.p s.yard.u) s) := rfl

theorem exec_deflFixed (fin : Bool) (s : State) :
    exec (.deflFixed fin) s = .next (yardAfter fin (inflateFixed (yardData s) s.yard.p s.yard.u) s) := rfl

theorem exec_deflDyn (fin : Bool) (s : State) :
    exec (.deflDyn fin) s = .next (yardAfter fin (inflateDyn (yardData s) s.yard.p s.yard.u) s) := rfl

theorem exec_zlibHdr_ok {cmf flg : Byte} (h : zlibHdrOk cmf flg = true) (s : State) :
    exec (.zlibHdr cmf flg) s = .next { s with yard := { s.yard with st := .block, p := 0, u := [] } } :=
  congrArg Host.Outcome.next (if_pos h)

/-- A header whose block decodes: the next block is due or, after the last one, the bytes behind the block's whole bytes decide. -/
theorem exec_of_decodes {i : Instr} {fin : Bool} {p : Nat} {u : List Byte} {s : State}
    (h : exec i s = .next (yardAfter fin (some (p, u)) s)) :
    (fin = false → exec i s = .next { s with yard := { s.yard with p := p, u := u, st := .block } }) ∧
    (fin = true → s.yard.z.drop (2 + (p + 7) / 8) = splitBe32 (adler32 u) →
      exec i s = .next { s with yard := { s.yard with p := p, u := u, st := .result (some u) } }) ∧
    (fin = true → s.yard.z.drop (2 + (p + 7) / 8) ≠ splitBe32 (adler32 u) →
      exec i s = .next { s with yard := { s.yard with p := p, u := u, st := .result none } }) := by
  rw [h]
  refine ⟨?_, ?_, ?_⟩
  · rintro rfl
    rfl
  · rintro rfl htrailer
    rw [yardAfter_last, zTrailer_eq, if_pos htrailer]
  · rintro rfl htrailer
    rw [yardAfter_last, zTrailer_eq, if_neg htrailer]

/-- Settles O42: each header's effect, and the end of the stream after a block that decodes. -/
theorem streamHeadersTakeTheirEffect : Obligations.StreamHeadersTakeTheirEffect := by
  intro s cmf flg fin
  refine ⟨fun hok => exec_zlibHdr_ok hok s, fun p u h => exec_of_decodes ?_, fun h => ?_,
    fun p u h => exec_of_decodes ?_, fun h => ?_, rfl⟩
  · rw [exec_deflFixed, yardData, h]
  · rw [exec_deflFixed, yardData, h, yardAfter_none]; rfl
  · rw [exec_deflDyn, yardData, h]
  · rw [exec_deflDyn, yardData, h, yardAfter_none]; rfl

/-! ### A stored block (R238) -/

/-- Settles O41: the block's two lengths decide, and the bytes behind it are what the trailer is compared with. -/
theorem storedBlockIsCopied : Obligations.StoredBlockIsCopied := by
  intro s fin
  refine ⟨fun hshort => ?_, fun len nlen body hd => ?_⟩
  · rw [exec_deflStored, yardData, inflateStored_short hshort, yardAfter_none]; rfl
  have hexec := exec_deflStored fin s
  rw [yardData, inflateStored_cases hd] at hexec
  refine ⟨fun hn => ?_, fun _ hb => ?_, fun hn hb => ?_⟩
  · rw [hexec, if_neg (fun h => hn h.1), yardAfter_none]; rfl
  · rw [hexec, if_neg (fun h => Nat.not_le.2 hb h.2), yardAfter_none]; rfl
  · have hleft : s.yard.z.drop (2 + (8 * ((s.yard.p + 7) / 8 + 4 + len.toNat) + 7) / 8) = body.drop len.toNat := by
      have h := congrArg (List.drop (4 + len.toNat)) hd
      rw [List.drop_drop, List.drop_drop] at h
      have hk : 2 + (8 * ((s.yard.p + 7) / 8 + 4 + len.toNat) + 7) / 8 = 2 + ((s.yard.p + 7) / 8 + (4 + len.toNat)) := by omega
      rw [hk, h, ← List.drop_drop]
      rfl
    rw [if_pos ⟨hn, hb⟩] at hexec
    have hafter := exec_of_decodes hexec
    rwa [hleft] at hafter

/-! ### The whole stream (R234, R235) -/

/-- Some number of steps from `s` ends with that result in the yardstick, and nothing outside it changed. -/
def YardEnds (s : State) (r : Option (List Byte)) : Prop :=
  ∃ k y, Host.Core.run Sys2Proof.core k s = .next { s with yard := y } ∧ y.st = .result r

theorem YardEnds.of_step {s : State} {y : Yard} {r : Option (List Byte)} (h : step s = .next { s with yard := y })
    (hy : y.st = .result r) : YardEnds s r :=
  ⟨1, y, (run_one s).trans h, hy⟩

theorem YardEnds.after_step {s : State} {y : Yard} {r : Option (List Byte)} (h : step s = .next { s with yard := y })
    (hy : YardEnds { s with yard := y } r) : YardEnds s r := by
  obtain ⟨k, y', hk, hr⟩ := hy
  exact ⟨k + 1, y', (run_succ h k).trans hk, hr⟩

/-- What `ZDecompress` makes of the end of `Inflate`. -/
def zResult (z : List Byte) (r : Option (Nat × List Byte)) : Option (List Byte) := r.bind (fun e => zTrailer z e.1 e.2)

theorem zDecompress_eq (z : List Byte) : zDecompress z =
    if z.length < 6 ∨ zlibHdrOk (byteAt z 0) (byteAt z 1) = false then none
    else zResult z (inflateFrom (z.drop 2) (bitFuel (z.drop 2)) 0 []) := by
  rw [zDecompress]
  cases inflateFrom (z.drop 2) (bitFuel (z.drop 2)) 0 [] <;> rfl

/-- The instruction that three header bits name runs the block of their kind. -/
theorem exec_decodeDblk {bits : Nat} (h : bits < 8) (s : State) : exec (decodeDblk bits) s =
    .next (yardAfter (bits % 2 == 1) (inflateBlock (yardData s) (bits / 2) s.yard.p s.yard.u) s) := by
  interval_cases bits <;> rfl

/-- One turn of the loop of `Inflate`: the block its header bits name, and then the next turn unless it was the last (R235). -/
theorem inflateFrom_succ {d : List Byte} {p bits : Nat} (h : bitsAt d p 3 = some bits) (k : Nat) (u : List Byte) :
    inflateFrom d (k + 1) p u = (inflateBlock d (bits / 2) (p + 3) u).bind
      (fun e => if bits % 2 = 1 then some e else inflateFrom d k e.1 e.2) := by
  simp only [inflateFrom, h]
  cases inflateBlock d (bits / 2) (p + 3) u <;> rfl

theorem inflateFrom_missing {d : List Byte} {p : Nat} (h : bitsAt d p 3 = none) (k : Nat) (u : List Byte) :
    inflateFrom d k p u = none := by
  cases k with
  | zero => rfl
  | succ k => rw [inflateFrom, h]

/-- With the yardstick at a block's header, what is left of the run computes the loop of `Inflate` and then tests the trailer. -/
theorem yardEnds_block {s : State} (hp : s.pin = []) (z : List Byte) {k p : Nat} (hk : 8 * (z.drop 2).length < p + k)
    (u : List Byte) : YardEnds { s with yard := { st := .block, z := z, p := p, u := u } }
      (zResult z (inflateFrom (z.drop 2) k p u)) := by
  induction k generalizing p u with
  | zero =>
    have hbits : bitsAt (z.drop 2) p 3 = none := by
      cases h : bitsAt (z.drop 2) p 3 with
      | none => rfl
      | some bits => have := bitsAt_bound h; omega
    exact .of_step (step_block_missing hp rfl hbits) rfl
  | succ k ih =>
    cases h : bitsAt (z.drop 2) p 3 with
    | none =>
      rw [inflateFrom_missing h]
      exact .of_step (step_block_missing hp rfl h) rfl
    | some bits =>
      have hstep := (step_block_header (s := { s with yard := ⟨.block, z, p, u⟩ }) hp rfl h).trans
        (exec_decodeDblk (bitsAt_lt h) _)
      rw [inflateFrom_succ h]
      simp only [yardData] at hstep
      cases hb : inflateBlock (z.drop 2) (bits / 2) (p + 3) u with
      | none =>
        rw [hb] at hstep
        exact .of_step hstep rfl
      | some e =>
        obtain ⟨p', u'⟩ := e
        have hle := inflateBlock_le hb
        rw [hb] at hstep
        by_cases hfin : bits % 2 = 1
        · rw [hfin] at hstep
          simp only [Option.bind_some, if_pos hfin]
          exact .of_step hstep rfl
        · rw [beq_false_of_ne hfin] at hstep
          simp only [Option.bind_some, if_neg hfin]
          exact .after_step hstep (ih (by omega) u')

/-- Settles O40: the header's step, then the loop of blocks. -/
theorem yardstickComputesZDecompress : Obligations.YardstickComputesZDecompress := by
  intro s z hp hy
  obtain ⟨hst, rfl⟩ : s.yard.st = .header ∧ s.yard.z = z := by rw [hy]; exact ⟨rfl, rfl⟩
  have hstep := step_header hp hst
  show YardEnds s (zDecompress s.yard.z)
  rw [zDecompress_eq]
  split_ifs at hstep ⊢ with h
  · exact .of_step hstep rfl
  · rw [exec_zlibHdr_ok (by simpa using (not_or.1 h).2)] at hstep
    exact .after_step hstep (yardEnds_block hp _ (by rw [bitFuel]; omega) [])

end Sys2Proof.Machine
end

section
/-! The reference compressor against the yardstick: its stored blocks decode one after the other, and its trailer is the right one. -/

namespace Sys2Proof.Machine

/-! ### The stored blocks (R238, R244) -/

/-- Behind its header byte a stored block is its length, the complement, and its data. -/
theorem storedBlock_eq (fin : Bool) (c : List Byte) : storedBlock fin c = BitVec.ofNat 8 fin.toNat ::
    (splitLe16 (BitVec.ofNat 16 c.length) ++ splitLe16 (BitVec.ofNat 16 c.length ^^^ 0xFFFF) ++ c) := by
  simp [storedBlock]

theorem storedBlock_length (fin : Bool) (c : List Byte) : (storedBlock fin c).length = 5 + c.length := by
  simp [storedBlock, splitLe16]; omega

/-- A stored block of the reference compressor, at its header byte: its data are appended, and the loop of `Inflate` goes on behind
it, or ends there if it is the last. -/
theorem inflateFrom_storedBlock {d c rest : List Byte} {q : Nat} {fin : Bool} (hd : d.drop q = storedBlock fin c ++ rest)
    (hc : c.length ≤ 65535) (k : Nat) (u : List Byte) :
    inflateFrom d (k + 1) (8 * q) u =
      if fin then some (8 * (q + (storedBlock fin c).length), u ++ c)
      else inflateFrom d k (8 * (q + (storedBlock fin c).length)) (u ++ c) := by
  have hhead : bitsAt d (8 * q) 3 = some fin.toNat := by
    have hbyte : d[q]? = some (BitVec.ofNat 8 fin.toNat) := by
      rw [← Nat.add_zero q, ← List.getElem?_drop, hd, storedBlock_eq]; rfl
    rw [bitsAt_three hbyte]
    cases fin <;> rfl
  have hbody : d.drop ((8 * q + 3 + 7) / 8) =
      splitLe16 (BitVec.ofNat 16 c.length) ++ splitLe16 (BitVec.ofNat 16 c.length ^^^ 0xFFFF) ++ (c ++ rest) := by
    rw [show (8 * q + 3 + 7) / 8 = q + 1 by omega, ← List.drop_drop, hd, storedBlock_eq]
    simp
  have hlen : (BitVec.ofNat 16 c.length).toNat = c.length := by rw [BitVec.toNat_ofNat]; omega
  have hblock : inflateStored d (8 * q + 3) u = some (8 * (q + (storedBlock fin c).length), u ++ c) := by
    rw [inflateStored_cases hbody, hlen, if_pos ⟨rfl, by simp⟩, List.take_left, storedBlock_length]
    congr 2
    omega
  rw [inflateFrom_succ hhead]
  cases fin <;> exact congrArg (Option.bind · _) hblock

/-- The blocks of the reference compressor decode to the data they were cut from. -/
theorem inflateFrom_storedBlocks {d b rest : List Byte} {k n q : Nat} (hd : d.drop q = storedBlocks k b ++ rest)
    (hb : b.length < 65535 * (k + 1)) (hn : (storedBlocks k b).length ≤ n) (u : List Byte) :
    inflateFrom d n (8 * q) u = some (8 * (q + (storedBlocks k b).length), u ++ b) := by
  induction k generalizing b n q u with
  | zero =>
    rw [storedBlocks] at hd hn ⊢
    rw [storedBlock_length] at hn
    obtain ⟨m, rfl⟩ : ∃ m, n = m + 1 := ⟨n - 1, by omega⟩
    exact inflateFrom_storedBlock hd (by omega) m u
  | succ k ih =>
    rw [storedBlocks] at hd hn ⊢
    split_ifs at hd hn ⊢ with hlast
    · rw [storedBlock_length] at hn
      obtain ⟨m, rfl⟩ : ∃ m, n = m + 1 := ⟨n - 1, by omega⟩
      exact inflateFrom_storedBlock hd hlast m u
    · rw [List.append_assoc] at hd
      rw [List.length_append] at hn ⊢
      have hpos := storedBlock_length false (b.take 65535)
      obtain ⟨m, rfl⟩ : ∃ m, n = m + 1 := ⟨n - 1, by omega⟩
      have hd' : d.drop (q + (storedBlock false (b.take 65535)).length) = storedBlocks k (b.drop 65535) ++ rest := by
        rw [← List.drop_drop, hd, List.drop_left]
      rw [inflateFrom_storedBlock hd (List.length_take_le ..) m u, if_neg Bool.false_ne_true,
        ih hd' (by rw [List.length_drop]; omega) (by omega), List.append_assoc, List.take_append_drop, Nat.add_assoc]

/-! ### The compressors (R230, R244) -/

/-- The reference compressor obeys the law. -/
theorem zDecompress_zCompressRef (b : List Byte) : zDecompress (zCompressRef b) = some b := by
  obtain ⟨blocks, hblocks⟩ : ∃ blocks, storedBlocks (b.length / 65535) b = blocks := ⟨_, rfl⟩
  have hz : zCompressRef b = 0x78 :: 0xDA :: (blocks ++ splitBe32 (adler32 b)) := by
    rw [zCompressRef, hblocks]
    exact List.append_assoc ..
  have hheader : ¬ ((zCompressRef b).length < 6 ∨
      zlibHdrOk (byteAt (zCompressRef b) 0) (byteAt (zCompressRef b) 1) = false) := by
    rw [hz]
    simp [byteAt, splitBe32, zlibHdrOk]
  have hinflate : inflateFrom (blocks ++ splitBe32 (adler32 b)) (bitFuel (blocks ++ splitBe32 (adler32 b))) 0 [] =
      some (8 * (0 + blocks.length), b) := by
    rw [← hblocks]
    exact inflateFrom_storedBlocks (q := 0) rfl (by omega) (by rw [bitFuel, List.length_append]; omega) []
  have hleft : (zCompressRef b).drop (2 + (8 * (0 + blocks.length) + 7) / 8) = splitBe32 (adler32 b) := by
    rw [hz, show 2 + (8 * (0 + blocks.length) + 7) / 8 = blocks.length + 2 by omega]
    exact List.drop_left
  rw [zDecompress_eq, if_neg hheader, show (zCompressRef b).drop 2 = blocks ++ splitBe32 (adler32 b) by rw [hz]; rfl,
    hinflate, zResult, Option.bind_some, zTrailer_eq, if_pos hleft]

/-- Settles O39: an open compressor either obeys the law or writes what the reference writes. -/
theorem decompressUndoesCompress : Obligations.DecompressUndoesCompress := by
  intro c b
  cases c with
  | reference => exact zDecompress_zCompressRef b
  | free id =>
    rw [zCompress]
    split_ifs with h
    · exact h
    · exact zDecompress_zCompressRef b

end Sys2Proof.Machine
end

section
/-! The commands and the sequencer: what a written command does, in the order of its checks, and that every step keeps to the
transition table. -/

namespace Sys2Proof.Machine

/-! ### Dispatch (R270, R273, R335) -/

/-- A refusal with `ERR` set leaves the latched code alone (R25, R335). -/
theorem refusal_of_err {s : State} (c : Cause) (he : s.status.err = true) :
    raiseExc c (clearDone s) = { s with status := { done := false, err := true }, seq := .fault } := by
  simp [raiseExc, clearDone, he]

/-- A refusal with `ERR` clear latches its code (R329). -/
theorem refusal_of_noErr {s : State} (c : Cause) (he : s.status.err = false) :
    raiseExc c (clearDone s) =
      { s with status := { done := false, err := true }, errcode := causeCode c, seq := .fault } := by
  simp [raiseExc, clearDone, he]

/-- With `ERR` set every command but RESET is refused before anything else is looked at. -/
theorem exec_decodeCmd_sticky {s : State} {c : Byte} (hc : c ≠ 0x01) (he : s.status.err = true) :
    exec (decodeCmd c) s = .next (raiseExc .errSticky (clearDone s)) := by
  rw [decodeCmd, if_neg hc]
  split_ifs
  · simp [exec, execCmdDecode, he]
  · simp [exec, execCmdEncode, he]
  · simp [exec, execCmdRsvd, he]

/-- A code that is none of the three commands is reserved. -/
theorem decodeCmd_reserved {c : Byte} (hc : c = 0x00 ∨ 4 ≤ c.toNat) : decodeCmd c = .cmdRsvd c := by
  rw [decodeCmd, if_neg (by bv_omega), if_neg (by bv_omega), if_neg (by bv_omega)]

/-- Settles O21: the checks in their order, each refusal with its code. -/
theorem commandsAreDispatchedInOrder : Obligations.CommandsAreDispatchedInOrder := by
  intro s c
  refine ⟨⟨_, _, rfl⟩, fun hc he => ?sticky, fun he hfits => ?accepted, fun he hlarge => ?tooLarge,
    fun he hc => ?reserved⟩
  case sticky => rw [exec_decodeCmd_sticky hc he, refusal_of_err _ he]
  case accepted => simp [decodeCmd, exec, execCmdDecode, he, Nat.not_lt.2 hfits, clearDone]
  case tooLarge =>
    rw [← show causeCode .fbCap = 0x53 from rfl, ← refusal_of_noErr _ he]
    simp [decodeCmd, exec, execCmdDecode, he, hlarge]
  case reserved =>
    rw [← show causeCode .badCmd = 0x51 from rfl, ← refusal_of_noErr _ he, decodeCmd_reserved hc]
    simp [exec, execCmdRsvd, he]

/-! ### The transition table (R275) -/

/-- From any phase a fault leads to `FAULT`. -/
theorem seqEdge_raise (s : State) (c : Cause) (u : State) : SeqEdge s (raiseExc c u) := by
  refine .inr ?_
  cases hq : s.seq <;> simp

/-- Between commands the phase is `IDLE` or `FAULT`. -/
theorem seq_of_notBusy {s : State} (hb : busy s = false) : s.seq = .idle ∨ s.seq = .fault := by
  unfold busy at hb
  cases hq : s.seq <;> simp [hq] at hb ⊢

theorem StatusAgrees.idle {s : State} (h : StatusAgrees s) (hb : busy s = false) (he : s.status.err = false) :
    s.seq = .idle := by
  obtain ⟨-, hfault, -, -⟩ := h
  exact (seq_of_notBusy hb).resolve_right fun hq => by simp [hfault.1 hq] at he

/-- A command is refused, resets the block, or enters its first phase from `IDLE`. -/
theorem CmdCase.seqEdge {s t : State} (h : StatusAgrees s) (hb : busy s = false) (hc : CmdCase s t) :
    t.seq = s.seq ∨ SeqEdge s t := by
  cases hc with
  | reset e =>
    rw [e]
    rcases seq_of_notBusy hb with hq | hq
    · exact .inl hq.symm
    · exact .inr (.inr (by rw [hq]; rfl))
  | refuse c e => rw [e]; exact .inr (seqEdge_raise s c _)
  | decode he _ e => rw [e]; exact .inr (.inr (by simp [h.idle hb he]))
  | encode he _ r e => rw [e]; exact .inr (.inr (by simp [h.idle hb he]))

theorem BusCase.seqEdge {s t : State} {a : HostAct} (h : StatusAgrees s) (hb : busy s = false) (hc : BusCase s t a) :
    t.seq = s.seq ∨ SeqEdge s t := by
  cases hc with
  | cmd v _ hx => exact (cmd_case hx).1.seqEdge h hb
  | regs w h' tr n p _ e => rw [e]; exact .inl rfl
  | other e _ _ => rw [e]; exact .inl rfl

theorem SizeCase.seqEdge {s t : State} (hq : s.seq = .lzdSize) (hc : SizeCase s t) : SeqEdge s t := by
  cases hc with
  | raise c u _ e => rw [e]; exact seqEdge_raise s c u
  | start b u _ _ e => rw [e]; exact .inr (by simp [hq])

/-- `LZD_RUN` ends once the target is reached, or in a fault. -/
theorem RunCase.seqEdge {s t : State} (hq : s.seq = .lzdRun) (hc : RunCase s t) : t.seq = s.seq ∨ SeqEdge s t := by
  cases hc with
  | finish h0 e => rw [e]; exact .inr (.inr (by simp [hq, h0]))
  | raise c u _ _ e => rw [e]; exact .inr (seqEdge_raise s c u)
  | dfr hd _ => rw [hd.eq]; exact .inl rfl
  | push b u _ hd _ e => rw [e, hd.eq]; exact .inl rfl
  | clr _ hx => cases hx; exact .inl rfl
  | bad c e => rw [e]; exact .inr (seqEdge_raise s c _)
  | put str b code _ _ _ e => rw [e]; exact .inl (lzdPut_control str b code (dropCode s)).2.2

/-- The transparency chunk is due when `TRNS` is an index, not when it is negative (R204). -/
theorem afterPlte_cases (s : State) :
    (0 ≤ s.trns.toInt ∧ afterPlte s = .serTrns) ∨ (s.trns.toInt < 0 ∧ afterPlte s = .serIdat) := by
  rcases lt_or_ge s.trns.toInt 0 with h | h
  · exact .inr ⟨h, by simp [afterPlte, trnsPresent, h]⟩
  · exact .inl ⟨h, by simp [afterPlte, trnsPresent, h]⟩

/-- A phase of the serializer goes on to the next one; after the palette the sign of `TRNS` says to which. -/
theorem SerCase.seqEdge {s t : State} {i : Instr} (hi : encodeInstr i = true) (hq : s.seq = serPhase i)
    (hc : SerCase i s t) : SeqEdge s t := by
  cases hc with
  | fail e r _ ht => rw [ht]; exact seqEdge_raise s _ _
  | ok e r _ ht =>
    rw [ht]
    refine .inr ?_
    rcases eq_or_ne i .pngPlte with rfl | hplte
    · rcases afterPlte_cases s with ⟨htrns, hp⟩ | ⟨htrns, hp⟩ <;> simp [hq, serPhase, serAfter, hp, htrns]
    · rcases encodeInstr_cases hi with rfl | rfl | rfl | rfl | rfl | rfl <;> simp [hq, serPhase, serAfter] at hplte ⊢

theorem MoveCase.seqEdge {s t : State} (h : StatusAgrees s) (hm : MoveCase s t) : t.seq = s.seq ∨ SeqEdge s t := by
  cases hm with
  | yard e => rw [e]; exact .inl rfl
  | bus a rest hb _ hx => exact (bus_case hx).seqEdge (s := { s with bus := rest }) h hb
  | gif _ hf => rw [hf.eq]; exact .inl rfl
  | size hq hx => exact .inr ((size_case hx).seqEdge hq)
  | run hq hx => exact (run_case hx).seqEdge hq
  | ser i hi hq hx => exact .inr ((ser_case hi hx).seqEdge hi hq)

/-- What the agents do with no reset to come they do beside its count. -/
theorem SeqEdge.withPin {s t : State} (h : SeqEdge { s with pin := [] } t) (p : List Nat) : SeqEdge s { t with pin := p } := by
  rcases h with ⟨⟨_, hp⟩, -⟩ | h
  · cases hp
  · exact .inr h

/-- Settles O26: a reset of the pin is the table's first row, and each move of the agents keeps to the others. -/
theorem sequencerFollowsItsTable : Obligations.SequencerFollowsItsTable := by
  intro s t h hstep
  cases step_case hstep with
  | strike rest hp e => rw [e]; exact .inr (.inl ⟨⟨rest, hp⟩, rfl, rfl⟩)
  | move p u hm e =>
    rw [e]
    exact (hm.seqEdge (s := { s with pin := [] }) h).imp_right (·.withPin p)

end Sys2Proof.Machine
end

section
/-! The host's reads on bytes that are there, and the palette codec. -/

namespace Sys2Proof.Machine

/-! ### How a host operation ends (R280) -/

@[simp] theorem hostAt_ok (q : GifPhase) (s : State) : hostAt q (.ok () s) = setPhase q s := rfl
@[simp] theorem hostAt_raised (q : GifPhase) (c : Cause) (s : State) : hostAt q (.raised c s) = hostRaise c s := rfl
@[simp] theorem hostEnd_ok (s : State) : hostEnd (.ok () s) = s := rfl
@[simp] theorem hostEnd_raised (c : Cause) (s : State) : hostEnd (.raised c s) = hostRaise c s := rfl

/-! ### Reads of a field (R282) -/

/-- Behind the first `m` bytes of `IN` stand those the cursor finds after `m` reads. -/
theorem nextIn_drop_add (m n : Nat) (s : State) : (nextIn (m + n) s).drop m = nextIn n (afterIn m s) := by
  simp [nextIn, List.drop_take, List.drop_drop]

/-- One byte is read, whatever it is, and the host goes on to `q`. -/
theorem hostAt_hRead_one {s : State} (q : GifPhase) (h : InReady 1 s) :
    hostAt q (Res.bind (hRead 1 s) (fun _ s' => .ok () s')) = setPhase q (afterIn 1 s) := by
  rw [hRead_ready h, Res.bind_ok, hostAt_ok]

/-! ### Bytes that stand next on `IN` -/

/-- The bytes `bs` stand next on `IN`, and no read fails. -/
def Comes (bs : List Byte) (s : State) : Prop := s.env.inFails = [] ∧ bs <+: s.env.inData.drop s.env.inPos

theorem comes_of_drop {s : State} {bs rest : List Byte} (hf : s.env.inFails = [])
    (h : s.env.inData.drop s.env.inPos = bs ++ rest) : Comes bs s := ⟨hf, rest, h.symm⟩

theorem Comes.split {s : State} {as bs : List Byte} (h : Comes (as ++ bs) s) :
    Comes as s ∧ Comes bs (afterIn as.length s) := by
  obtain ⟨hf, rest, hr⟩ := h
  have hd : s.env.inData.drop s.env.inPos = as ++ (bs ++ rest) := by rw [← hr, List.append_assoc]
  exact ⟨comes_of_drop hf hd, comes_of_drop (by simp [hf]) (afterIn_drop hd)⟩

theorem Comes.length_le {s : State} {bs : List Byte} (h : Comes bs s) : bs.length ≤ s.env.inData.length - s.env.inPos := by
  simpa using h.2.length_le

theorem Comes.ready {s : State} {bs : List Byte} (h : Comes bs s) (hb : bs ≠ []) : InReady bs.length s := by
  obtain ⟨hf, rest, hr⟩ := h
  exact inReady_of_drop hf hr.symm hb

theorem Comes.head {s : State} {b : Byte} {bs : List Byte} (h : Comes (b :: bs) s) : s.env.inData[s.env.inPos]? = some b := by
  obtain ⟨-, rest, hr⟩ := h
  rw [← List.head?_drop, ← hr]; rfl

theorem inRead_comes {s : State} {b : Byte} {bs : List Byte} (h : Comes (b :: bs) s) : inRead s = (.byte b, afterIn 1 s) :=
  inRead_ready (by simp [h.1]) h.head

/-- `HRead` takes the bytes that stand there (R282). -/
theorem hRead_comes {s : State} {bs : List Byte} (h : Comes bs s) : hRead bs.length s = .ok bs (afterIn bs.length s) := by
  by_cases hb : bs = []
  · subst hb; rfl
  · obtain ⟨-, rest, hr⟩ := id h
    rw [hRead_ready (h.ready hb), nextIn_of_drop hr.symm]

/-- The skipped payload of a sub-block (R282). -/
theorem hSkipPayload_comes {s : State} {bs : List Byte} (h : Comes bs s) :
    hSkipPayload bs.length s = .ok () (afterIn bs.length s) := by
  induction bs generalizing s with
  | nil => rfl
  | cons b bs ih =>
    have htail : Comes bs (afterIn 1 s) := (Comes.split (as := [b]) h).2
    rw [List.length_cons, hSkipPayload, inRead_comes h]
    exact (ih htail).trans (by rw [afterIn_add, Nat.add_comm])

/-- The length byte of a sub-block tells its payload's length (R91). -/
theorem lengthByte_toNat {p : List Byte} (hp : p.length ≤ 255) : (BitVec.ofNat 8 p.length).toNat = p.length := by
  rw [BitVec.toNat_ofNat]; omega

/-- The length byte of a sub-block is not the terminator (R91). -/
theorem lengthByte_ne_zero {p : List Byte} (hpos : 1 ≤ p.length) (hmax : p.length ≤ 255) : BitVec.ofNat 8 p.length ≠ 0 := by
  intro h
  have h0 : (0 : Byte).toNat = p.length := h ▸ lengthByte_toNat hmax
  exact absurd h0 (Nat.ne_of_lt hpos)

/-- One sub-block, or the terminator, which is one without a payload (R282). -/
theorem hSkipSub_comes {s : State} {p : List Byte} (hp : p.length ≤ 255) (h : Comes (BitVec.ofNat 8 p.length :: p) s) :
    hSkipSub s = .ok (BitVec.ofNat 8 p.length) (afterIn (1 + p.length) s) := by
  have hpay : Comes p (afterIn 1 s) := (Comes.split (as := [_]) h).2
  simp only [hSkipSub, inRead_comes h, lengthByte_toNat hp, hSkipPayload_comes hpay, Res.bind_ok, afterIn_add]

/-- A whole sub-block sequence: each sub-block takes one unit of fuel (R282). -/
theorem hSkipSeq_comes {s : State} {ps : List (List Byte)} {k : Nat} (hok : payloadsOk ps = true) (hk : ps.length < k)
    (h : Comes (subSeq ps) s) : hSkipSeq k s = .ok () (afterIn (subSeq ps).length s) := by
  induction ps generalizing s k with
  | nil =>
    obtain ⟨k, rfl⟩ := Nat.exists_eq_add_one.2 hk
    rw [hSkipSeq, hSkipSub_comes (p := []) (by decide) h]
    rfl
  | cons p ps ih =>
    obtain ⟨⟨hpos, hmax⟩, hok⟩ := payloadsOk_cons.1 hok
    obtain ⟨hsub, hrest⟩ := Comes.split (as := BitVec.ofNat 8 p.length :: p) h
    obtain ⟨k, rfl⟩ := Nat.exists_eq_add_one.2 (Nat.zero_lt_of_lt hk)
    rw [List.length_cons, Nat.add_comm] at hrest
    rw [hSkipSeq, hSkipSub_comes hmax hsub, Res.bind_ok, if_neg (lengthByte_ne_zero hpos hmax),
      ih hok (Nat.lt_of_succ_lt_succ hk) hrest, afterIn_add]
    simp only [subSeq, List.length_append, List.length_cons, Nat.add_comm 1]

/-! ### The Palette Codec (R285, R286) -/

theorem palEncode_length (p : List Rgb) : (palEncode p).length = 3 * p.length := by
  induction p with
  | nil => rfl
  | cons e p ih =>
    have hcons : (palEncode (e :: p)).length = (palEncode p).length + 3 := rfl
    rw [hcons, ih, List.length_cons, Nat.mul_add_one]

theorem rgbTriples_palEncode (p : List Rgb) : rgbTriples (palEncode p) = p := by
  induction p with
  | nil => rfl
  | cons e p ih => exact congrArg (e :: ·) ih

/-- The right number of bytes is decoded (R285). -/
theorem palDecode_of_length {bytes : List Byte} {n : Nat} (h : bytes.length = 3 * n) :
    palDecode bytes n = .ok (rgbTriples bytes) := by
  rw [palDecode, if_pos (by omega)]

/-- Settles O46: three bytes an entry, and each triple is read back. -/
theorem paletteCodecRoundTrip : Obligations.PaletteCodecRoundTrip := fun p =>
  ⟨by rw [palDecode_of_length (palEncode_length p), rgbTriples_palEncode], palEncode_length p⟩

/-- A palette whose bytes are there is read whole (R284, R304). -/
theorem readPalette_ready {n : Nat} {s : State} (h : InReady (3 * n) s) :
    readPalette n s = .ok (rgbTriples (nextIn (3 * n) s)) (afterIn (3 * n) s) := by
  rw [readPalette, hRead_ready h, Res.bind_ok, palDecode_of_length (nextIn_length h)]

end Sys2Proof.Machine
end

section
/-! The container parser's tokens: tags, extensions and the image descriptor. -/

namespace Sys2Proof.Machine

/-- Settles O47: the tags that are read, and the two faults. -/
theorem tagsTakeTheirEffect : Obligations.TagsTakeTheirEffect := fun _ _ =>
  ⟨fun h => congrArg _ (hostAt_hRead_one .finished h), fun h => congrArg _ (hostAt_hRead_one .ext h), rfl, rfl⟩

/-! ### Extensions (R295 to R302) -/

/-- The terminator of a fixed extension block (R298). -/
theorem hTerm_ready {s : State} {b : Byte} (h : InReady 1 s) (hb : s.env.inData[s.env.inPos]? = some b) :
    hTerm s = if b = 0x00 then .ok () (afterIn 1 s) else .raised .badTerminator (afterIn 1 s) := by
  rw [hTerm, hRead_ready h, nextIn_succ hb]; rfl

@[simp] theorem afterIn_setControl (n : Nat) (g : List Byte) (s : State) :
    afterIn n (setControl g s) = setControl g (afterIn n s) := rfl

/-- EXT.GCE's length byte and its four bytes, and what is left to do behind them (R295, R298). -/
theorem exec_extGce {s : State} {l : Byte} {g : List Byte} (hg : g.length = 4) (h : Comes (l :: g) s) :
    (s.cfg.extTerm = .literal → exec .extGce s = .next (setPhase .tag (setControl g (afterIn 5 s)))) ∧
    (s.cfg.extTerm = .consume → exec .extGce s = .next (hostAt .tag (hTerm (setControl g (afterIn 5 s))))) := by
  obtain ⟨hlen, hblock⟩ := Comes.split (as := [l]) h
  have h4 : hRead 4 (afterIn 1 s) = .ok g (afterIn 5 s) := by
    have := hRead_comes hblock
    rwa [hg, afterIn_add] at this
  have h1 : hRead 1 s = .ok [l] (afterIn 1 s) := hRead_comes hlen
  refine ⟨fun hc => ?_, fun hc => ?_⟩ <;>
    simp only [exec, execExtGce, h1, h4, Res.bind_ok, afterIn_cfg, hc, hostAt_ok]

/-- Settles O48: the block is recorded, then nothing more or the terminator. -/
theorem graphicsControlSetsThePendingIndex : Obligations.GraphicsControlSetsThePendingIndex := by
  intro s l g0 g1 g2 g3 term rest hf hd gif'
  obtain ⟨hblock, hterm⟩ := Comes.split (as := [l, g0, g1, g2, g3]) (bs := [term]) (comes_of_drop (rest := rest) hf hd)
  obtain ⟨hlit, hcons⟩ := exec_extGce (g := [g0, g1, g2, g3]) rfl hblock
  have ht := hTerm_ready (s := setControl [g0, g1, g2, g3] (afterIn 5 s)) (hterm.ready (List.cons_ne_nil _ _)) hterm.head
  refine ⟨hlit, fun hc h0 => ?_, fun hc h0 => ?_⟩ <;> rw [hcons hc, ht, afterIn_setControl, afterIn_add]
  · rw [if_pos h0]; rfl
  · rw [if_neg h0]; rfl

/-- How many bytes of a sub-block sequence `HSkipVar` takes: the sequence, or one sub-block (R298). -/
def varTaken (c : ExtTerm) (ps : List (List Byte)) : Nat :=
  match c with
  | .consume => (subSeq ps).length
  | .literal => 1 + (ps.headD []).length

theorem length_lt_subSeq (ps : List (List Byte)) : ps.length < (subSeq ps).length := by
  induction ps with
  | nil => decide
  | cons p ps ih => simp only [subSeq, List.length_cons, List.length_append]; omega

/-- Under `literal` one sub-block is skipped, which may be the terminator; under `consume` the sequence, for which the fuel is enough
(R282, R298). -/
theorem hSkipVar_comes {s : State} {ps : List (List Byte)} (hok : payloadsOk ps = true) (h : Comes (subSeq ps) s) :
    hSkipVar s = .ok () (afterIn (varTaken s.cfg.extTerm ps) s) := by
  unfold hSkipVar
  cases s.cfg.extTerm with
  | consume =>
    have hfuel := h.length_le
    have hlen := length_lt_subSeq ps
    exact hSkipSeq_comes hok (by omega) h
  | literal =>
    cases ps with
    | nil => rw [hSkipSub_comes (p := []) (by decide) h]; rfl
    | cons p ps =>
      obtain ⟨⟨-, hmax⟩, -⟩ := payloadsOk_cons.1 hok
      rw [hSkipSub_comes hmax (Comes.split (as := BitVec.ofNat 8 p.length :: p) h).1]; rfl

/-- A fixed block behind its length byte, then the variable data (R299, R301). -/
theorem skipFixed_comes {s : State} {fixed : List Byte} {ps : List (List Byte)} {n : Nat} (hok : payloadsOk ps = true)
    (hn : fixed.length = n + 1) (h : Comes (fixed ++ subSeq ps) s) :
    skipFixed n s = .ok () (afterIn (fixed.length + varTaken s.cfg.extTerm ps) s) := by
  obtain ⟨l, block, rfl⟩ : ∃ l block, fixed = l :: block := List.exists_cons_of_length_eq_add_one hn
  obtain rfl : block.length = n := by simpa using hn
  obtain ⟨hfixed, hvar⟩ := h.split
  obtain ⟨hlen, hblock⟩ := Comes.split (as := [l]) hfixed
  have h1 : hRead 1 s = .ok [l] (afterIn 1 s) := hRead_comes hlen
  have hrest : hRead block.length (afterIn 1 s) = .ok block (afterIn (l :: block).length s) := by
    rw [List.length_cons, Nat.add_comm, ← afterIn_add]
    exact hRead_comes hblock
  rw [skipFixed, h1, Res.bind_ok, hrest, Res.bind_ok, hSkipVar_comes hok hvar, afterIn_add, afterIn_cfg]

theorem exec_extCom (s : State) : exec .extCom s = .next (hostAt .tag (hSkipVar s)) := rfl
theorem exec_extPte (s : State) : exec .extPte s = .next (hostAt .tag (skipFixed 12 s)) := rfl
theorem exec_extApp (s : State) : exec .extApp s = .next (hostAt .tag (skipFixed 11 s)) := rfl

/-- Settles O49: the variable data alone, or behind a fixed block of 12 or of 11 bytes with its length byte. -/
theorem extensionsAreSkipped : Obligations.ExtensionsAreSkipped := by
  intro s fixed ps rest hok hf hd taken
  have h : Comes (fixed ++ subSeq ps) s := comes_of_drop hf hd
  have htaken : taken = fixed.length + varTaken s.cfg.extTerm ps := rfl
  refine ⟨fun h0 => ?_, fun h13 => ?_, fun h12 => ?_⟩ <;> rw [htaken]
  · obtain rfl := List.eq_nil_of_length_eq_zero h0
    rw [List.length_nil, Nat.zero_add, exec_extCom, hSkipVar_comes hok h, hostAt_ok]
  · rw [exec_extPte, skipFixed_comes hok h13 h, hostAt_ok]
  · rw [exec_extApp, skipFixed_comes hok h12 h, hostAt_ok]

/-! ### The image descriptor (R300, R304, R305) -/

/-- GIF.IMG with its descriptor there: the local palette is looked for, then the active one is resolved. -/
theorem gifImage_of_localPalette {s t : State} {d : List Byte} {loc : Option (List Rgb)} (h : InReady 10 s)
    (hd : d = (nextIn 10 s).drop 1) (hl : localPalette (byteAt d 8) (setDescriptor d (afterIn 10 s)) = .ok loc t) :
    (∀ active, activePalette loc t.gif.gPal = some active → gifImage s = .ok () (startDecode d active t)) ∧
    (activePalette loc t.gif.gPal = none → gifImage s = .raised .noPalette t) := by
  obtain ⟨h1, h9⟩ := inReady_add (m := 1) (n := 9) h
  rw [nextIn_drop_add 1 9] at hd
  have hread : hRead 9 (afterIn 1 s) = .ok d (afterIn 10 s) := by rw [hRead_ready h9, ← hd, afterIn_add]
  refine ⟨fun active ha => ?_, fun ha => ?_⟩ <;>
    simp only [gifImage, hRead_ready h1, hread, hl, ha, Res.bind_ok]

theorem exec_gifImg (s : State) : exec .gifImg s = .next (hostEnd (gifImage s)) := rfl

/-- Settles O50: no palette is read, so the global one is bound, or there is none. -/
theorem imageWithoutLocalPalette : Obligations.ImageWithoutLocalPalette := by
  intro s d h hd hflag read
  have hl : localPalette (byteAt d 8) (setDescriptor d (afterIn 10 s)) = .ok none (setDescriptor d (afterIn 10 s)) := by
    rw [localPalette, hflag, if_neg Bool.false_ne_true]
  obtain ⟨hbound, hnone⟩ := gifImage_of_localPalette h hd hl
  refine ⟨fun g hg => ?_, fun hg => ?_⟩
  · rw [exec_gifImg, hbound g hg, hostEnd_ok]; rfl
  · rw [exec_gifImg, hnone hg, hostEnd_raised]; rfl

/-- Settles O51: the palette behind the descriptor is read, and it is the one bound. -/
theorem localPaletteOverridesGlobal : Obligations.LocalPaletteOverridesGlobal := by
  intro s d n h hd hflag hn
  obtain ⟨h10, hpal⟩ := inReady_add h
  have hl : localPalette (byteAt d 8) (setDescriptor d (afterIn 10 s)) =
      .ok (some (rgbTriples ((nextIn (10 + 3 * n) s).drop 10))) (setDescriptor d (afterIn (10 + 3 * n) s)) := by
    rw [localPalette, if_pos hflag, palEntries, ← hn, readPalette_ready (s := setDescriptor d (afterIn 10 s)) hpal, Res.bind_ok,
      nextIn_drop_add, ← afterIn_add]
    rfl
  rw [exec_gifImg, (gifImage_of_localPalette h10 hd hl).1 _ rfl, hostEnd_ok]
  rfl

end Sys2Proof.Machine
end

section
/-! The container parser between its tokens: the header, the start of a run, and what it does before and after each command. -/

namespace Sys2Proof.Machine

/-- Between commands and actions the step is the parser's. -/
theorem step_gifHeader {s : State} (hm : blockMoves s = true) (hb : busy s = false) (hbus : s.bus = [])
    (hp : s.gif.phase = .header) : step s = .next (hostAt .tag (gifHeader s)) := by
  rw [step_gif hm hb hbus, fetchGif, hp]; rfl

theorem step_gifAfterDecode {s : State} {p : List Rgb} (hm : blockMoves s = true) (hb : busy s = false) (hbus : s.bus = [])
    (hp : s.gif.phase = .decoding p) : step s = .next (gifAfterDecode p s) := by
  rw [step_gif hm hb hbus, fetchGif, hp]; rfl

theorem step_gifOpen {s : State} (hm : blockMoves s = true) (hb : busy s = false) (hbus : s.bus = [])
    (hp : s.gif.phase = .opening) : step s = .next (gifOpen s) := by
  rw [step_gif hm hb hbus, fetchGif, hp]; rfl

theorem step_gifAfterEncode {s : State} (hm : blockMoves s = true) (hb : busy s = false) (hbus : s.bus = [])
    (hp : s.gif.phase = .encoding) : step s = .next (gifAfterEncode s) := by
  rw [step_gif hm hb hbus, fetchGif, hp]; rfl

/-! ### The header (R283, R284) -/

/-- Signature and version decide the six bytes, the signature first (R283). -/
theorem gifHeader_ready {s : State} (h : InReady 6 s) :
    (∀ c, gifSignature (nextIn 6 s) = some c → gifHeader s = .raised c (afterIn 6 s)) ∧
    (gifSignature (nextIn 6 s) = none → gifHeader s = gifScreen (afterIn 6 s)) := by
  refine ⟨fun c hc => ?_, fun hc => ?_⟩ <;> rw [gifHeader, hRead_ready h, Res.bind_ok, hc]

/-- The screen descriptor without a global palette (R284). -/
theorem gifScreen_noPalette {s : State} {d : List Byte} (h : InReady 7 s) (hd : d = nextIn 7 s)
    (hflag : (byteAt d 4).getLsbD 7 = false) :
    gifScreen s = .ok () { setScreen d (afterIn 7 s) with gif := { (setScreen d (afterIn 7 s)).gif with gPal := none } } := by
  rw [gifScreen, hRead_ready h, Res.bind_ok, ← hd, hflag, if_neg Bool.false_ne_true]

/-- The screen descriptor with the global palette behind it (R284). -/
theorem gifScreen_palette {s : State} {d : List Byte} {n : Nat} (h : InReady (7 + 3 * n) s) (hd : d = nextIn 7 s)
    (hflag : (byteAt d 4).getLsbD 7 = true) (hn : n = palEntries (byteAt d 4)) :
    gifScreen s = .ok () { setScreen d (afterIn (7 + 3 * n) s) with
      gif := { (setScreen d (afterIn 7 s)).gif with gPal := some (rgbTriples (nextIn (3 * n) (afterIn 7 s))) } } := by
  obtain ⟨h7, hpal⟩ := inReady_add h
  rw [gifScreen, hRead_ready h7, Res.bind_ok, ← hd, if_pos hflag, ← hn,
    readPalette_ready (s := setScreen d (afterIn 7 s)) hpal, Res.bind_ok, ← afterIn_add]
  rfl

/-- Settles O54: the two tests, then the descriptor with its flag clear and set. -/
theorem headerIsCheckedAndRead : Obligations.HeaderIsCheckedAndRead := by
  intro s hm hb hbus hp h6 signature version d n screen
  obtain ⟨hbad, hgood⟩ := gifHeader_ready h6
  have hd : d = nextIn 7 (afterIn 6 s) := nextIn_drop_add 6 7 s
  have hpass (hs : signature) (hv : version) : gifHeader s = gifScreen (afterIn 6 s) :=
    hgood (by rw [gifSignature, if_neg (not_not.2 hs), if_neg (fun hw => hv.elim hw.1 hw.2)])
  rw [step_gifHeader hm hb hbus hp]
  refine ⟨fun hs => ?_, fun hs hv => ?_, fun hs hv h hflag => ?_, fun hs hv h hflag => ?_⟩
  · rw [hbad .badSignature (by rw [gifSignature, if_pos hs])]; rfl
  · rw [hbad .badVersion (by rw [gifSignature, if_neg (not_not.2 hs), if_pos (not_or.1 hv)])]; rfl
  · rw [hpass hs hv, gifScreen_noPalette (inReady_add (m := 6) (n := 7) h).2 hd hflag, afterIn_add]
    simp only [hostAt, setPhase, setScreen, hflag, screen, Option.isSome_none, afterIn_gif]
  · have hscreen : InReady (7 + 3 * n) (afterIn 6 s) := (inReady_add (m := 6) (by rwa [← Nat.add_assoc])).2
    rw [hpass hs hv, gifScreen_palette hscreen hd hflag rfl]
    simp only [hostAt, setPhase, setScreen, hflag, screen, Option.isSome_some, afterIn_gif, afterIn_add, nextIn_drop_add,
      ← Nat.add_assoc, Nat.reduceAdd]

/-! ### The start of a run and the file of a frame (R281, R289, R309) -/

/-- The next draw decides an opening, and is used up (R309). -/
theorem openDraw_of_draw {s : State} {fails : Bool} (h : s.env.openFails.headD false = fails) :
    openDraw s = (!fails, { s with env := { s.env with openFails := s.env.openFails.tail } }) := by rw [openDraw, h]

theorem step_gifRun {s : State} {base : List Byte} {rest : List HostAct} (hm : blockMoves s = true) (hb : busy s = false)
    (hbus : s.bus = .gifRun base :: rest) : step s = .next (gifStart base { s with bus := rest }) := step_bus hm hb hbus

/-- Settles O52: either opening in its two answers. -/
theorem runStartsAndFrameFileIsOpened : Obligations.RunStartsAndFrameFileIsOpened := by
  intro s base rest hm hb drawn
  refine ⟨fun hbus => ⟨fun hf => ?_, fun hf => ?_⟩, fun hbus hp => ⟨fun hf => ?_, fun hf => ?_⟩⟩
  · rw [step_gifRun hm hb hbus, gifStart, openDraw_of_draw (s := { s with bus := rest }) hf]
    exact ⟨_, rfl, rfl⟩
  · rw [step_gifRun hm hb hbus, gifStart, openDraw_of_draw (s := { s with bus := rest }) hf]
    exact ⟨_, rfl, rfl, rfl, rfl, rfl, rfl, rfl, rfl⟩
  · rw [step_gifOpen hm hb hbus hp, gifOpen,
      openDraw_of_draw (s := { s with gif := { s.gif with frameNo := s.gif.frameNo + 1 } }) hf]
    rfl
  · rw [step_gifOpen hm hb hbus hp, gifOpen,
      openDraw_of_draw (s := { s with gif := { s.gif with frameNo := s.gif.frameNo + 1 } }) hf]
    simp only [hbus]
    rfl

/-! ### After ENCODE (R297, R305, R306) -/

/-- The pending index after an image, by the carry policy (R297). -/
def carriedTrns (s : State) : Int :=
  match s.cfg.trnsCarry with
  | .carry => s.gif.pendTrns
  | .reset => -1

theorem carryTrns_eq (s : State) : carryTrns s = { s with gif := { s.gif with pendTrns := carriedTrns s } } := by
  unfold carryTrns carriedTrns
  cases s.cfg.trnsCarry <;> rfl

/-- Settles O53: the file is closed, the index is carried on or not, and the terminator is read. -/
theorem imageTerminatorIsChecked : Obligations.ImageTerminatorIsChecked := by
  intro s b hm hq hbus hp he hr hin
  have hstep : step s = .next { afterIn 1 (closeOut s) with
      gif := { s.gif with pendTrns := carriedTrns s, phase := if b = 0x00 then .tag else .failed 0x19 } } := by
    rw [step_gifAfterEncode hm (by rw [busy, hq]) hbus hp, gifAfterEncode, he, if_neg Bool.false_ne_true,
      hTerm_ready (s := carryTrns (closeOut s)) (b := b) (by rw [carryTrns_eq]; exact hr) (by rw [carryTrns_eq]; exact hin),
      carryTrns_eq]
    split_ifs <;> rfl
  exact ⟨_, hstep, rfl, rfl, rfl⟩

/-! ### After DECODE (R286, R297, R305) -/

/-- Pending writes of the palette entries from `i` on are carried out one a step. -/
theorem Leads.of_palWrites {w : Nat → Word} {rest : List HostAct} {o : Host.Outcome State Fault Refusal} (n : Nat) {i : Nat}
    {s : State} (hin : i + n ≤ 256) (hm : blockMoves s = true) (hb : busy s = false)
    (hbus : s.bus = (List.range' i n).map (fun j => HostAct.wr (offPal + 4 * j) (w j)) ++ rest)
    (h : Leads { s with bus := rest, pal := Memory.writeList s.pal i ((List.range' i n).map (fun j => (w j).setWidth 24)) } o) :
    Leads s o := by
  induction n generalizing i s with
  | zero =>
    have hs : { s with bus := rest, pal := s.pal } = s := by rw [← show s.bus = rest from hbus]
    exact hs ▸ h
  | succ n ih =>
    have hstep := (step_write hm hb hbus (by unfold offPal offCmd; omega)).1 _ (busWrite_pal (by omega) (w i) s)
    exact .after_step hstep (ih (by omega) hm hb rfl h)

/-- The cells that the entries' writes leave are the entries (R42). -/
theorem palCells_eq (p : List Rgb) : (List.range' 0 p.length).map
    (fun i => ((rgbCell (p.getD i ⟨0, 0, 0⟩)).setWidth 32).setWidth 24) = p.map rgbCell := by
  refine List.ext_getElem (by simp) fun i h1 h2 => ?_
  have hi : i < p.length := by simpa using h2
  simp [hi]

/-- The low half of a number as a word is the number as a half word. -/
theorem setWidth_ofInt_half (x : Int) : (BitVec.ofInt 32 x).setWidth 16 = BitVec.ofInt 16 x := by
  refine BitVec.eq_of_toNat_eq ?_
  simp only [BitVec.toNat_setWidth, BitVec.toNat_ofInt]
  omega

/-- The palette `p` has been written to the block, and the actions `rest` are pending. -/
def palLoaded (p : List Rgb) (rest : List HostAct) (s : State) : State :=
  { s with bus := rest, palN := BitVec.ofNat 9 p.length, pal := Memory.writeList s.pal 0 (p.map rgbCell) }

/-- Loading a palette and an index: the count, the entries, the index. -/
theorem leads_load {s : State} {p : List Rgb} {x : Int} {rest : List HostAct} (hp : p.length ≤ 256) (hm : blockMoves s = true)
    (hb : busy s = false) (hbus : s.bus = palWrites p ++ [.wr offTrns (BitVec.ofInt 32 x)] ++ rest) :
    Leads s (.next { palLoaded p rest s with trns := BitVec.ofInt 16 x }) := by
  rw [palWrites, List.range_eq_range', List.cons_append, List.cons_append, List.append_assoc] at hbus
  have hcount := (step_write hm hb hbus (by decide)).1 _ rfl
  rw [BitVec.setWidth_ofNat_of_le (by decide)] at hcount
  refine .after_step hcount (.of_palWrites _ (by omega) hm hb rfl ?_)
  rw [palCells_eq]
  have htrns := (step_write (s := palLoaded p (.wr offTrns (BitVec.ofInt 32 x) :: rest) s) hm hb rfl (by decide)).1 _ rfl
  rw [setWidth_ofInt_half] at htrns
  exact .of_step htrns

/-- Settles O55: the block's fault ends the run; else the load is issued, and carried out. -/
theorem paletteAndIndexAreLoaded : Obligations.PaletteAndIndexAreLoaded := by
  intro s p hm hb hbus hp hlen
  have hstep := step_gifAfterDecode hm hb hbus hp
  refine ⟨fun he => ?_, fun he => ?_⟩
  · rw [hstep, gifAfterDecode, if_pos he]; rfl
  · rw [gifAfterDecode, he, if_neg Bool.false_ne_true] at hstep
    obtain ⟨k, hk⟩ := Leads.after_step hstep (leads_load (rest := s.bus) hlen hm hb rfl)
    refine ⟨k + 1, _, hk, rfl, fun i e hi => ?_, fun i hi => ?_⟩ <;>
      simp only [palLoaded, setPhase_pal, Memory.read_writeList, List.length_map]
    · have hlt := (List.getElem?_eq_some_iff.1 hi).1
      rw [if_pos (by omega), Nat.sub_zero, List.getElem?_map, hi]; rfl
    · rw [if_neg (by omega)]

end Sys2Proof.Machine
end

section
/-! Refusals and the phase `FAULT`: a refused command touches `STATUS`, `ERRCODE` and `seq` alone, and only a reset leaves `FAULT`. -/

namespace Sys2Proof.Machine

/-! ### A refused command (R329) -/

/-- The high half of a code is the class of its cause (R321). -/
theorem causeCode_class (c : Cause) : (causeCode c).extractLsb' 4 4 = BitVec.ofNat 4 (causeClass c) := by
  cases c <;> rfl

/-- From `s` a command was refused for a cause of class 5 (R329). -/
def RefusedFrom (s t : State) : Prop := ∃ c, causeClass c = 5 ∧ t = raiseExc c (clearDone s)

theorem encodeCheck_class {s : State} {c : Cause} (h : encodeCheck s = some c) : causeClass c = 5 := by
  unfold encodeCheck at h
  split_ifs at h <;> cases h <;> rfl

/-- DECODE is refused, or enters its first phase. -/
theorem exec_cmdDecode_refused {s t : State} (h : exec .cmdDecode s = .next t) : RefusedFrom s t ∨ t.seq = .lzdSize := by
  simp only [exec, execCmdDecode, refuseCmd_eq] at h
  split_ifs at h <;> cases h
  · exact .inl ⟨.errSticky, rfl, rfl⟩
  · exact .inl ⟨.fbCap, rfl, rfl⟩
  · exact .inr rfl

/-- ENCODE is refused, by a precondition or for its payload's length, or enters its first phase. -/
theorem exec_cmdEncode_refused {s t : State} (h : exec .cmdEncode s = .next t) : RefusedFrom s t ∨ t.seq = .serSig := by
  simp only [exec, execCmdEncode, refuseCmd_eq] at h
  split_ifs at h
  · cases h; exact .inl ⟨.errSticky, rfl, rfl⟩
  · split at h
    · rename_i c hc
      cases h; exact .inl ⟨c, encodeCheck_class hc, rfl⟩
    · split at h
      · cases h
      · split_ifs at h <;> cases h
        · exact .inl ⟨.chunkTooLong, rfl, rfl⟩
        · exact .inr rfl

/-- A reserved code is always refused. -/
theorem exec_cmdRsvd_refused {s t : State} {c : Byte} (h : exec (.cmdRsvd c) s = .next t) : RefusedFrom s t := by
  simp only [exec, execCmdRsvd, refuseCmd_eq] at h
  split_ifs at h <;> cases h
  · exact ⟨.errSticky, rfl, rfl⟩
  · exact ⟨.badCmd, rfl, rfl⟩

/-- What a refusal leaves: all but `STATUS`, `ERRCODE` and `seq`, and a code that was latched before (R25, R329). -/
theorem RefusedFrom.frame {s t : State} (h : RefusedFrom s t) :
    t = { s with status := t.status, errcode := t.errcode, seq := .fault } ∧
      t.status = { done := false, err := true } ∧ (s.status.err = true → t.errcode = s.errcode) ∧
      (s.status.err = false → t.errcode.extractLsb' 4 4 = 5) := by
  obtain ⟨c, hclass, rfl⟩ := h
  refine ⟨rfl, rfl, fun he => by rw [refusal_of_err c he], fun he => ?_⟩
  rw [refusal_of_noErr c he, causeCode_class, hclass]
  rfl

/-- Settles O24: a command that leads to `FAULT` was not accepted, so it was refused. -/
theorem refusalTouchesOnlyTheStatus : Obligations.RefusalTouchesOnlyTheStatus := by
  intro s t i hi h hfault _
  suffices hr : RefusedFrom s t from hr.frame
  rcases hi with rfl | rfl | ⟨c, rfl⟩
  · exact (exec_cmdDecode_refused h).resolve_right (by simp [hfault])
  · exact (exec_cmdEncode_refused h).resolve_right (by simp [hfault])
  · exact exec_cmdRsvd_refused h

/-! ### Leaving `FAULT` (R331, R335) -/

/-- From `s` to `t` the phase, `STATUS` and `ERRCODE` are kept. -/
def ControlKept (s t : State) : Prop := t.seq = s.seq ∧ t.status = s.status ∧ t.errcode = s.errcode

theorem StatusAgrees.status_of_fault {s : State} (h : StatusAgrees s) (hq : s.seq = .fault) :
    s.status = { done := false, err := true } := by
  obtain ⟨hexcl, hfault, -, -⟩ := h
  have he : s.status.err = true := hfault.1 hq
  have hd : s.status.done = false := by simpa [he] using hexcl
  change (⟨s.status.done, s.status.err⟩ : Status) = _
  rw [hd, he]

/-- In `FAULT` a command other than RESET is refused, which changes nothing (R335). -/
theorem exec_decodeCmd_fault {s t : State} {b : Byte} (h : StatusAgrees s) (hq : s.seq = .fault) (hb : b ≠ 0x01)
    (hx : exec (decodeCmd b) s = .next t) : ControlKept s t := by
  have hst := h.status_of_fault hq
  have he : s.status.err = true := by rw [hst]
  rw [exec_decodeCmd_sticky hb he, refusal_of_err _ he] at hx
  cases hx
  exact ⟨hq.symm, hst.symm, rfl⟩

theorem BusCase.controlKept {s t : State} {a : HostAct} (h : StatusAgrees s) (hq : s.seq = .fault) (hc : BusCase s t a) :
    ControlKept s t ∨ ∃ v, a = .wr offCmd v ∧ v.setWidth 8 = (0x01 : Byte) := by
  cases hc with
  | cmd v ha hx =>
    rcases eq_or_ne (v.setWidth 8) (0x01 : Byte) with hv | hv
    · exact .inr ⟨v, ha, hv⟩
    · exact .inl (exec_decodeCmd_fault h hq hv hx)
  | regs w h' tr n p _ e => rw [e]; exact .inl ⟨rfl, rfl, rfl⟩
  | other e _ _ => rw [e]; exact .inl ⟨rfl, rfl, rfl⟩

/-- In `FAULT` no command runs, so only the host's actions reach the block. -/
theorem MoveCase.controlKept {s t : State} (h : StatusAgrees s) (hq : s.seq = .fault) (hm : MoveCase s t) :
    ControlKept s t ∨ ∃ v rest, s.bus = .wr offCmd v :: rest ∧ v.setWidth 8 = (0x01 : Byte) := by
  cases hm with
  | yard e => rw [e]; exact .inl ⟨rfl, rfl, rfl⟩
  | bus a rest _ hbus hx =>
    refine ((bus_case hx).controlKept (s := { s with bus := rest }) h hq).imp_right ?_
    rintro ⟨v, rfl, hv⟩
    exact ⟨v, rest, hbus, hv⟩
  | gif _ hf => rw [hf.eq]; exact .inl ⟨rfl, rfl, rfl⟩
  | size hq' _ => simp [hq] at hq'
  | run hq' _ => simp [hq] at hq'
  | ser i hi hq' _ =>
    obtain ⟨-, hb⟩ := serPhase_busy hi hq'
    simp [busy, hq] at hb

/-- Settles O25: a reset of the pin was due, or an agent moved, and of these only the command RESET reaches the three. -/
theorem onlyResetLeavesTheFaultPhase : Obligations.OnlyResetLeavesTheFaultPhase := by
  intro s t h hq hstep
  cases step_case hstep with
  | strike rest hp _ => exact .inr (.inl ⟨rest, hp⟩)
  | move p u hm e =>
    rw [e]
    rcases hm.controlKept (s := { s with pin := [] }) h hq with ⟨hseq, hkept⟩ | hreset
    · exact .inl ⟨hseq.trans hq, hkept⟩
    · exact .inr (.inr hreset)

end Sys2Proof.Machine
end
